-- ==== Sys2Proof/Word.lean ====
section
/-!
DEFINITION. The word types of DirectIO CORE and their plainest arithmetic.
-/

namespace Sys2Proof

/-- A value of at most 32 bits: the contents of a register triple's register (its low `W` bits, R9, R22), the DATA
operand of a command (R101), the RESULT of a command (R84), the Shifter's accumulator, mask and value (R37). -/
abbrev Word := BitVec 32

/-- One command of the DIOC command set (R100). -/
abbrev CmdWord := BitVec 64

/-- `ones(n) = 2^n - 1` (R14), in 32 bits. -/
abbrev ones (n : Nat) : Word := BitVec.ofNat 32 (2 ^ n - 1)

end Sys2Proof
end

