-- ==== Sys2Proof/Syntax.lean ====
section
/-!
DEFINITION. The 24 commands of the DIOC command set (R113), one constructor for each row of spec/opcode_table.json.
-/

namespace Sys2Proof

/-- The register selector REG (R107): 0, 1, 2 and the value 3, which names no register. -/
inductive RegSel where
  | input
  | output
  | direction
  | noRegister
  deriving DecidableEq, Repr

/-- Whether a Port Handle is open for writing or for reading (R30, R109). -/
inductive Dirn where
  | reading
  | writing
  deriving DecidableEq, Repr

/-- The order of a serial transfer (R33, R193). -/
inductive BitOrder where
  | lsbFirst
  | msbFirst
  deriving DecidableEq, Repr

/-- The two kinds of Shifter slot (R33, R190). -/
inductive ShiftMode where
  | shiftIn
  | shiftOut
  deriving DecidableEq, Repr

/-- A pin identifier (R108): the sentinel NO_PIN, or the pin `(port, bit)`. -/
inductive PinId where
  | noPin
  | pin (port bit : Nat)
  deriving DecidableEq, Repr

/-- The commands (R113). `k` is always the slot index UNIT. -/
inductive Instr where
  /-- NOP, R130. -/
  | nop
  /-- STAT.RD, R131. -/
  | statRd
  /-- IE.SET, R132. -/
  | ieSet
  /-- IE.CLR, R133. -/
  | ieClr
  /-- REG.RD, R135. -/
  | regRd (port : Nat) (reg : RegSel)
  /-- REG.WR, R136. -/
  | regWr (port : Nat) (reg : RegSel) (value : Word)
  /-- PORT.BIND, R151. -/
  | portBind (k port : Nat) (dirn : Dirn) (start nbits : Nat)
  /-- PORT.ENOUT, R154. -/
  | portEnout (k : Nat)
  /-- PORT.ENIN, R156. -/
  | portEnin (k : Nat)
  /-- PORT.READ, R158. -/
  | portRead (k : Nat)
  /-- PORT.WRITE, R160. -/
  | portWrite (k : Nat) (value : Word)
  /-- PIN.BINDIN, R172. -/
  | pinBindin (k : Nat) (pin : PinId) (pullup : Bool)
  /-- PIN.BINDOUT, R174. -/
  | pinBindout (k : Nat) (pin : PinId) (init dyn inv : Bool)
  /-- PIN.READ, R177. -/
  | pinRead (k : Nat)
  /-- PIN.WRITE, R176. -/
  | pinWrite (k : Nat) (value : Bool)
  /-- PIN.TOGGLE, R179. -/
  | pinToggle (k : Nat)
  /-- PIN.PULSE, R180. -/
  | pinPulse (k : Nat) (value : Bool)
  /-- SHIFT.CFG, R191. -/
  | shiftCfg (k : Nat) (mode : ShiftMode) (datah clkh nbits : Nat) (order : BitOrder)
  /-- SHIFT.IN, R195. -/
  | shiftIn (k : Nat)
  /-- SHIFT.OUT, R197. -/
  | shiftOut (k : Nat) (value : Word)
  /-- CHIP.CFG, R211. -/
  | chipCfg (k shifter latchh oeh : Nat) (initEn : Bool)
  /-- CHIP.WRITE, R213. -/
  | chipWrite (k : Nat) (value : Word)
  /-- CHIP.ENABLE, R214. -/
  | chipEnable (k : Nat)
  /-- CHIP.DISABLE, R215. -/
  | chipDisable (k : Nat)
  deriving DecidableEq, Repr

/-- The pseudo-commands of R118, each an exact spelling of one command. -/
abbrev Instr.pinHigh (k : Nat) : Instr := .pinWrite k true
/-- `pin.low` (R118). -/
abbrev Instr.pinLow (k : Nat) : Instr := .pinWrite k false
/-- `clock.pulse` (R118). -/
abbrev Instr.clockPulse (k : Nat) : Instr := .pinPulse k true

end Sys2Proof
end

