-- ==== Sys2Proof/Decode.lean ====
section
/-!
DEFINITION. The command word: the opcode table (R113), the decoder (R100 to R112), the encoder, and the assembler
spelling (R116, R117). Every definition of this file may be mended by a later repair.
-/

namespace Sys2Proof

/-- One row of the opcode map (R113): a word `w` is this command when `w &&& mask = value`. -/
structure OpcodeRow where
  mnemonic : String
  value : CmdWord
  mask : CmdWord
  deriving DecidableEq, Repr

/-- The opcode map of R113: the `match` and `mask` columns, row by row. -/
def opcodeMap : List OpcodeRow :=
  [ ⟨"NOP", 0x0000000000000000, 0xFFFFFFFFFFFFFFFF⟩,
    ⟨"STAT.RD", 0x0100000000000000, 0xFFFFFFFFFFFFFFFF⟩,
    ⟨"IE.SET", 0x0200000000000000, 0xFFFFFFFFFFFFFFFF⟩,
    ⟨"IE.CLR", 0x0300000000000000, 0xFFFFFFFFFFFFFFFF⟩,
    ⟨"REG.RD", 0x0400000000000000, 0xFFFFFC00FFFFFFFF⟩,
    ⟨"REG.WR", 0x0500000000000000, 0xFFFFFC0000000000⟩,
    ⟨"PORT.BIND", 0x1000000000000000, 0xFF00FE00FFFFC0C0⟩,
    ⟨"PORT.ENOUT", 0x1100000000000000, 0xFF00FFFFFFFFFFFF⟩,
    ⟨"PORT.ENIN", 0x1200000000000000, 0xFF00FFFFFFFFFFFF⟩,
    ⟨"PORT.READ", 0x1300000000000000, 0xFF00FFFFFFFFFFFF⟩,
    ⟨"PORT.WRITE", 0x1400000000000000, 0xFF00FFFF00000000⟩ ] ++
  [ ⟨"PIN.BINDIN", 0x2000000000000000, 0xFF000000FFFFFFFE⟩,
    ⟨"PIN.BINDOUT", 0x2100000000000000, 0xFF000000FFFFFFF8⟩,
    ⟨"PIN.READ", 0x2200000000000000, 0xFF00FFFFFFFFFFFF⟩,
    ⟨"PIN.WRITE", 0x2300000000000000, 0xFF00FFFFFFFFFFFE⟩,
    ⟨"PIN.TOGGLE", 0x2400000000000000, 0xFF00FFFFFFFFFFFF⟩,
    ⟨"PIN.PULSE", 0x2500000000000000, 0xFF00FFFFFFFFFFFE⟩ ] ++
  [ ⟨"SHIFT.CFG", 0x3000000000000000, 0xFF000000FFFFFCC0⟩,
    ⟨"SHIFT.IN", 0x3100000000000000, 0xFF00FFFFFFFFFFFF⟩,
    ⟨"SHIFT.OUT", 0x3200000000000000, 0xFF00FFFF00000000⟩,
    ⟨"CHIP.CFG", 0x4000000000000000, 0xFF000000FFFFFE00⟩,
    ⟨"CHIP.WRITE", 0x4100000000000000, 0xFF00FFFF00000000⟩,
    ⟨"CHIP.ENABLE", 0x4200000000000000, 0xFF00FFFFFFFFFFFF⟩,
    ⟨"CHIP.DISABLE", 0x4300000000000000, 0xFF00FFFFFFFFFFFF⟩ ]

/-- The mnemonic of a command (R113). -/
def mnemonicOf : Instr → String
  | .nop => "NOP"
  | .statRd => "STAT.RD"
  | .ieSet => "IE.SET"
  | .ieClr => "IE.CLR"
  | .regRd _ _ => "REG.RD"
  | .regWr _ _ _ => "REG.WR"
  | .portBind _ _ _ _ _ => "PORT.BIND"
  | .portEnout _ => "PORT.ENOUT"
  | .portEnin _ => "PORT.ENIN"
  | .portRead _ => "PORT.READ"
  | .portWrite _ _ => "PORT.WRITE"
  | .pinBindin _ _ _ => "PIN.BINDIN"
  | .pinBindout _ _ _ _ _ => "PIN.BINDOUT"
  | .pinRead _ => "PIN.READ"
  | .pinWrite _ _ => "PIN.WRITE"
  | .pinToggle _ => "PIN.TOGGLE"
  | .pinPulse _ _ => "PIN.PULSE"
  | .shiftCfg _ _ _ _ _ _ => "SHIFT.CFG"
  | .shiftIn _ => "SHIFT.IN"
  | .shiftOut _ _ => "SHIFT.OUT"
  | .chipCfg _ _ _ _ _ => "CHIP.CFG"
  | .chipWrite _ _ => "CHIP.WRITE"
  | .chipEnable _ => "CHIP.ENABLE"
  | .chipDisable _ => "CHIP.DISABLE"

/-- Why a word is illegal (R112). Both end in the same refusal with `ILL`. -/
inductive DecodeError where
  /-- OPC is none of the 24 values of R113. -/
  | unassignedOpcode (opc : Nat)
  /-- A reserved bit of this command's format is 1. -/
  | reservedBits (mnemonic : String)
  deriving DecidableEq, Repr

/-! ### Fields (R101, R106 to R111) -/

/-- The `len`-bit field whose lowest bit is bit `lo`, as a number. -/
def fieldAt (w : CmdWord) (lo len : Nat) : Nat := (w.extractLsb' lo len).toNat

/-- One bit of the word. -/
def flagAt (w : CmdWord) (b : Nat) : Bool := w.getLsbD b

/-- OPC, bits 63:56 (R101). -/
def opcOf (w : CmdWord) : Nat := fieldAt w 56 8
/-- UNIT, bits 55:48 (R101). -/
def unitOf (w : CmdWord) : Nat := fieldAt w 48 8
/-- AUX[7:0]: PORT, DATAH, SHIFTER (R106, R109, R111). -/
def auxLowOf (w : CmdWord) : Nat := fieldAt w 32 8
/-- AUX[15:8]: CLKH, LATCHH (R111). -/
def auxHighOf (w : CmdWord) : Nat := fieldAt w 40 8
/-- DATA, bits 31:0 (R101). -/
def dataOf (w : CmdWord) : Word := w.extractLsb' 0 32

/-- REG, AUX[9:8] (R107). -/
def regSelOf (w : CmdWord) : RegSel :=
  match fieldAt w 40 2 with
  | 0 => .input
  | 1 => .output
  | 2 => .direction
  | _ => .noRegister

/-- DIRN, AUX[8] (R109). -/
def dirnOf (w : CmdWord) : Dirn := if flagAt w 40 then .writing else .reading

/-- PIN, the whole of AUX (R108): `port = PIN[15:8]`, `bit = PIN[7:0]`, and 0xFFFF is NO_PIN. -/
def pinIdOf (w : CmdWord) : PinId :=
  if fieldAt w 32 16 = 0xFFFF then .noPin else .pin (auxHighOf w) (auxLowOf w)

/-- ORDER, DATA[8] (R111). -/
def orderOf (w : CmdWord) : BitOrder := if flagAt w 8 then .msbFirst else .lsbFirst

/-- MODE, DATA[9] (R111). -/
def modeOf (w : CmdWord) : ShiftMode := if flagAt w 9 then .shiftOut else .shiftIn

/-! ### The decoder -/

/-- The word is `i` when every reserved bit of the format is 0, that is when `w &&& mask = value` (R112, R113). -/
def ofRow (w : CmdWord) (mnemonic : String) (value mask : CmdWord) (i : Instr) : Except DecodeError Instr :=
  if w &&& mask = value then .ok i else .error (.reservedBits mnemonic)

/-- The command a word stands for (R112, R113). Every word is one of the 24 commands or illegal. -/
def decode (w : CmdWord) : Except DecodeError Instr :=
  match opcOf w with
  | 0x00 => ofRow w "NOP" 0x0000000000000000 0xFFFFFFFFFFFFFFFF .nop
  | 0x01 => ofRow w "STAT.RD" 0x0100000000000000 0xFFFFFFFFFFFFFFFF .statRd
  | 0x02 => ofRow w "IE.SET" 0x0200000000000000 0xFFFFFFFFFFFFFFFF .ieSet
  | 0x03 => ofRow w "IE.CLR" 0x0300000000000000 0xFFFFFFFFFFFFFFFF .ieClr
  | 0x04 => ofRow w "REG.RD" 0x0400000000000000 0xFFFFFC00FFFFFFFF (.regRd (auxLowOf w) (regSelOf w))
  | 0x05 => ofRow w "REG.WR" 0x0500000000000000 0xFFFFFC0000000000 (.regWr (auxLowOf w) (regSelOf w) (dataOf w))
  | 0x10 => ofRow w "PORT.BIND" 0x1000000000000000 0xFF00FE00FFFFC0C0
      (.portBind (unitOf w) (auxLowOf w) (dirnOf w) (fieldAt w 0 6) (fieldAt w 8 6))
  | 0x11 => ofRow w "PORT.ENOUT" 0x1100000000000000 0xFF00FFFFFFFFFFFF (.portEnout (unitOf w))
  | 0x12 => ofRow w "PORT.ENIN" 0x1200000000000000 0xFF00FFFFFFFFFFFF (.portEnin (unitOf w))
  | 0x13 => ofRow w "PORT.READ" 0x1300000000000000 0xFF00FFFFFFFFFFFF (.portRead (unitOf w))
  | 0x14 => ofRow w "PORT.WRITE" 0x1400000000000000 0xFF00FFFF00000000 (.portWrite (unitOf w) (dataOf w))
  | 0x20 => ofRow w "PIN.BINDIN" 0x2000000000000000 0xFF000000FFFFFFFE
      (.pinBindin (unitOf w) (pinIdOf w) (flagAt w 0))
  | 0x21 => ofRow w "PIN.BINDOUT" 0x2100000000000000 0xFF000000FFFFFFF8
      (.pinBindout (unitOf w) (pinIdOf w) (flagAt w 0) (flagAt w 1) (flagAt w 2))
  | 0x22 => ofRow w "PIN.READ" 0x2200000000000000 0xFF00FFFFFFFFFFFF (.pinRead (unitOf w))
  | 0x23 => ofRow w "PIN.WRITE" 0x2300000000000000 0xFF00FFFFFFFFFFFE (.pinWrite (unitOf w) (flagAt w 0))
  | 0x24 => ofRow w "PIN.TOGGLE" 0x2400000000000000 0xFF00FFFFFFFFFFFF (.pinToggle (unitOf w))
  | 0x25 => ofRow w "PIN.PULSE" 0x2500000000000000 0xFF00FFFFFFFFFFFE (.pinPulse (unitOf w) (flagAt w 0))
  | 0x30 => ofRow w "SHIFT.CFG" 0x3000000000000000 0xFF000000FFFFFCC0
      (.shiftCfg (unitOf w) (modeOf w) (auxLowOf w) (auxHighOf w) (fieldAt w 0 6) (orderOf w))
  | 0x31 => ofRow w "SHIFT.IN" 0x3100000000000000 0xFF00FFFFFFFFFFFF (.shiftIn (unitOf w))
  | 0x32 => ofRow w "SHIFT.OUT" 0x3200000000000000 0xFF00FFFF00000000 (.shiftOut (unitOf w) (dataOf w))
  | 0x40 => ofRow w "CHIP.CFG" 0x4000000000000000 0xFF000000FFFFFE00
      (.chipCfg (unitOf w) (auxLowOf w) (auxHighOf w) (fieldAt w 0 8) (flagAt w 8))
  | 0x41 => ofRow w "CHIP.WRITE" 0x4100000000000000 0xFF00FFFF00000000 (.chipWrite (unitOf w) (dataOf w))
  | 0x42 => ofRow w "CHIP.ENABLE" 0x4200000000000000 0xFF00FFFFFFFFFFFF (.chipEnable (unitOf w))
  | 0x43 => ofRow w "CHIP.DISABLE" 0x4300000000000000 0xFF00FFFFFFFFFFFF (.chipDisable (unitOf w))
  | opc => .error (.unassignedOpcode opc)

/-- The host's reading of the decoder: the instruction whose bits are `w`, every bit above `nbits` zero. -/
def decodeTableWord (nbits w : Nat) : Option Instr := (decode (BitVec.ofNat 64 (w % 2 ^ nbits))).toOption

/-! ### The encoder -/

/-- `n` in the `len`-bit field whose lowest bit is bit `lo`. -/
def putField (lo len n : Nat) : CmdWord := (BitVec.ofNat len n).setWidth 64 <<< lo

/-- A bit at position `b`. -/
def putFlag (b : Nat) (v : Bool) : CmdWord := putField b 1 v.toNat

/-- The opcode byte and the slot index of a command (R101). -/
def putHead (opc k : Nat) : CmdWord := putField 56 8 opc ||| putField 48 8 k

/-- DATA (R101). -/
def putData (v : Word) : CmdWord := v.setWidth 64

/-- REG (R107). -/
def RegSel.code : RegSel → Nat
  | .input => 0
  | .output => 1
  | .direction => 2
  | .noRegister => 3

/-- DIRN (R109): 1 is open for writing. -/
def Dirn.code : Dirn → Bool
  | .reading => false
  | .writing => true

/-- ORDER (R111): 1 is MSB-first. -/
def BitOrder.code : BitOrder → Bool
  | .lsbFirst => false
  | .msbFirst => true

/-- MODE (R111): 1 is a shift-out unit. -/
def ShiftMode.code : ShiftMode → Bool
  | .shiftIn => false
  | .shiftOut => true

/-- PIN in AUX (R108). -/
def PinId.put : PinId → CmdWord
  | .noPin => putField 32 16 0xFFFF
  | .pin port bit => putField 40 8 port ||| putField 32 8 bit

/-- The word of a command (R101 to R111, R113). -/
def encode : Instr → CmdWord
  | .nop => putHead 0x00 0
  | .statRd => putHead 0x01 0
  | .ieSet => putHead 0x02 0
  | .ieClr => putHead 0x03 0
  | .regRd port reg => putHead 0x04 0 ||| putField 32 8 port ||| putField 40 2 reg.code
  | .regWr port reg value => putHead 0x05 0 ||| putField 32 8 port ||| putField 40 2 reg.code ||| putData value
  | .portBind k port dirn start nbits =>
      putHead 0x10 k ||| putField 32 8 port ||| putFlag 40 dirn.code ||| putField 0 6 start ||| putField 8 6 nbits
  | .portEnout k => putHead 0x11 k
  | .portEnin k => putHead 0x12 k
  | .portRead k => putHead 0x13 k
  | .portWrite k value => putHead 0x14 k ||| putData value
  | .pinBindin k pin pullup => putHead 0x20 k ||| pin.put ||| putFlag 0 pullup
  | .pinBindout k pin init dyn inv =>
      putHead 0x21 k ||| pin.put ||| putFlag 0 init ||| putFlag 1 dyn ||| putFlag 2 inv
  | .pinRead k => putHead 0x22 k
  | .pinWrite k value => putHead 0x23 k ||| putFlag 0 value
  | .pinToggle k => putHead 0x24 k
  | .pinPulse k value => putHead 0x25 k ||| putFlag 0 value
  | .shiftCfg k mode datah clkh nbits order =>
      putHead 0x30 k ||| putField 32 8 datah ||| putField 40 8 clkh ||| putField 0 6 nbits ||| putFlag 8 order.code
        ||| putFlag 9 mode.code
  | .shiftIn k => putHead 0x31 k
  | .shiftOut k value => putHead 0x32 k ||| putData value
  | .chipCfg k shifter latchh oeh initEn =>
      putHead 0x40 k ||| putField 32 8 shifter ||| putField 40 8 latchh ||| putField 0 8 oeh ||| putFlag 8 initEn
  | .chipWrite k value => putHead 0x41 k ||| putData value
  | .chipEnable k => putHead 0x42 k
  | .chipDisable k => putHead 0x43 k

/-! ### The assembler spelling (R116, R117) -/

/-- A register operand `p<P>.<in|out|dir>` (R116); REG = 3 has no spelling. -/
def asmReg (port : Nat) : RegSel → Option String
  | .input => some ("p" ++ toString port ++ ".in")
  | .output => some ("p" ++ toString port ++ ".out")
  | .direction => some ("p" ++ toString port ++ ".dir")
  | .noRegister => none

/-- A pin operand: `nopin` or `p<P>.<b>` (R116). -/
def asmPin : PinId → String
  | .noPin => "nopin"
  | .pin port bit => "p" ++ toString port ++ "." ++ toString bit

/-- A bit operand, `0` or `1` (R117). -/
def asmBit (b : Bool) : String := if b then "1" else "0"

/-- An optional word of R117, written only when its bit is 1. -/
def asmOpt (b : Bool) (word : String) : String := if b then ", " ++ word else ""

/-- A slot operand `ph<k>`, `pn<k>`, `sh<k>`, `ch<k>` (R116). -/
def asmSlot (table : String) (k : Nat) : String := table ++ toString k

/-- The assembler form of a command (R117), numbers in decimal; none where an operand has no spelling (REG = 3). -/
def asm : Instr → Option String
  | .nop => some "nop"
  | .statRd => some "stat.rd"
  | .ieSet => some "ie.set"
  | .ieClr => some "ie.clr"
  | .regRd port reg => (asmReg port reg).map fun r => "reg.rd " ++ r
  | .regWr port reg value => (asmReg port reg).map fun r => "reg.wr " ++ r ++ ", " ++ toString value.toNat
  | .portBind k port dirn start nbits =>
      some ("port.bind " ++ asmSlot "ph" k ++ ", p" ++ toString port ++ (if dirn = .writing then ", out, " else ", in, ")
        ++ toString start ++ ", " ++ toString nbits)
  | .portEnout k => some ("port.enout " ++ asmSlot "ph" k)
  | .portEnin k => some ("port.enin " ++ asmSlot "ph" k)
  | .portRead k => some ("port.read " ++ asmSlot "ph" k)
  | .portWrite k value => some ("port.write " ++ asmSlot "ph" k ++ ", " ++ toString value.toNat)
  | .pinBindin k pin pullup => some ("pin.bindin " ++ asmSlot "pn" k ++ ", " ++ asmPin pin ++ asmOpt pullup "pullup")
  | .pinBindout k pin init dyn inv =>
      some ("pin.bindout " ++ asmSlot "pn" k ++ ", " ++ asmPin pin ++ ", " ++ asmBit init ++ asmOpt dyn "dyn"
        ++ asmOpt inv "inv")
  | .pinRead k => some ("pin.read " ++ asmSlot "pn" k)
  | .pinWrite k value => some ("pin.write " ++ asmSlot "pn" k ++ ", " ++ asmBit value)
  | .pinToggle k => some ("pin.toggle " ++ asmSlot "pn" k)
  | .pinPulse k value => some ("pin.pulse " ++ asmSlot "pn" k ++ ", " ++ asmBit value)
  | .shiftCfg k mode datah clkh nbits order =>
      some ("shift.cfg " ++ asmSlot "sh" k ++ (if mode = .shiftOut then ", out, " else ", in, ") ++ asmSlot "pn" datah
        ++ ", " ++ asmSlot "pn" clkh ++ ", " ++ toString nbits ++ (if order = .msbFirst then ", msb" else ", lsb"))
  | .shiftIn k => some ("shift.in " ++ asmSlot "sh" k)
  | .shiftOut k value => some ("shift.out " ++ asmSlot "sh" k ++ ", " ++ toString value.toNat)
  | .chipCfg k shifter latchh oeh initEn =>
      some ("chip.cfg " ++ asmSlot "ch" k ++ ", " ++ asmSlot "sh" shifter ++ ", " ++ asmSlot "pn" latchh ++ ", "
        ++ asmSlot "pn" oeh ++ (if initEn then ", en" else ", dis"))
  | .chipWrite k value => some ("chip.write " ++ asmSlot "ch" k ++ ", " ++ toString value.toNat)
  | .chipEnable k => some ("chip.enable " ++ asmSlot "ch" k)
  | .chipDisable k => some ("chip.disable " ++ asmSlot "ch" k)

end Sys2Proof
end

