-- ==== Sys2Proof/Config.lean ====
section
/-!
DEFINITION. What an implementation of DirectIO CORE fixes (R9 to R11), and the values the spec leaves free.
-/

namespace Sys2Proof

/-- The register width `W`, in {8, 16, 32} (R9, D2). -/
inductive Width where
  | w8
  | w16
  | w32
  deriving DecidableEq, Repr

/-- The number of bits of a register (R9). -/
abbrev Width.bits : Width → Nat
  | .w8 => 8
  | .w16 => 16
  | .w32 => 32

/-- The parameters the spec leaves open (R9 to R11, D2, D3). Inside `State` they are the field `width` and the lengths
of the register and descriptor tables, so that a claim about every state is a claim about every parameter value. -/
structure Params where
  /-- `W`. -/
  width : Width
  /-- `NPORTS`, the number of register triples. -/
  nports : Nat
  /-- `NPH`, the number of Port Handle slots. -/
  nph : Nat
  /-- `NPN`, the number of Pin Handle slots. -/
  npn : Nat
  /-- `NSH`, the number of Shifter slots. -/
  nsh : Nat
  /-- `NCH`, the number of Chip Driver slots. -/
  nch : Nat
  deriving DecidableEq, Repr

/-- The ranges of R10 and R11. -/
def Params.wf (p : Params) : Bool :=
  decide (1 ≤ p.nports ∧ p.nports ≤ 255) && decide (1 ≤ p.nph ∧ p.nph ≤ 256) && decide (1 ≤ p.npn ∧ p.npn ≤ 256)
    && decide (1 ≤ p.nsh ∧ p.nsh ≤ 256) && decide (1 ≤ p.nch ∧ p.nch ≤ 256)

/-- The values D2 and D3 name for a model that needs one: `W = 8`, `NPORTS = 4`, eight slots of each kind.
DESIGN CHOICE (log entry 1): the parameters of `State.reset`. -/
def Params.default : Params :=
  { width := .w8, nports := 4, nph := 8, npn := 8, nsh := 8, nch := 8 }

namespace Config

/-- FREE VALUE (R63, I1, D33; log entry 5): the levels the environment drives onto the pads of a port, at a boundary for
which no environment model states them. The arguments are the number of the boundary and the port. -/
opaque extFree : Nat → Nat → Word

/-- FREE VALUE (R37, I4; log entry 8): what a one-bit field of the sequencer holds when a command is accepted. The
arguments are the number of the boundary and the field. -/
opaque seqBit : Nat → Nat → Bool

/-- FREE VALUE (R37, I4; log entry 8): what a register of the sequencer holds when a command is accepted. -/
opaque seqWord : Nat → Nat → Word

/-- FREE VALUE (R37, I4; log entry 8): what the Shifter's bit index holds when a command is accepted. -/
opaque seqIndex : Nat → Nat

/-- OPEN parameter (R275, I9, D31): the weight of one micro-operation for a claim that wants a cost. -/
opaque uopCost : Nat

end Config

end Sys2Proof
end

