-- ==== Sys2Proof/Machine/State.lean ====
section
/-!
DEFINITION. The state of DirectIO CORE (R20), the inputs of its step relation held beside it as plain data (R38), and the
devices of the reference environments (R85 to R90).
-/

namespace Sys2Proof.Machine

open Sys2Proof

/-! ### The register triples and the descriptors (R22 to R34) -/

/-- A register of a triple (R22, R61). -/
inductive Reg where
  | input
  | output
  | direction
  deriving DecidableEq, Repr

/-- A register triple (R22): `OUT` and `DIR`; `IN` holds no bits of its own (R25). The low `W` bits count. -/
structure Triple where
  /-- `OUT[p]` (R23). -/
  out : Word
  /-- `DIR[p]` (R24): 1 is output. -/
  dir : Word
  deriving DecidableEq, Repr

/-- A valid Port Handle slot (R30). -/
structure PortHandle where
  port : Nat
  dirn : Dirn
  start : Nat
  nbits : Nat
  deriving DecidableEq, Repr

/-- The kind of a Pin Handle with the fields that belong to it (R32). -/
inductive PinKind where
  | input (pullup : Bool)
  | output (dyn inv : Bool)
  deriving DecidableEq, Repr

/-- A valid Pin Handle slot (R32); `pin = noPin` is the field `nopin = 1`. -/
structure PinHandle where
  kind : PinKind
  pin : PinId
  deriving DecidableEq, Repr

/-- A valid Shifter slot (R33). -/
structure Shifter where
  mode : ShiftMode
  data : Nat
  clk : Nat
  nbits : Nat
  order : BitOrder
  deriving DecidableEq, Repr

/-- A valid Chip Driver slot (R34). -/
structure ChipDriver where
  sh : Nat
  latch : Nat
  oe : Nat
  deriving DecidableEq, Repr

/-! ### The sequencer and the ports (R37, R83) -/

/-- The two contexts that issue commands (R74). -/
inductive Ctx where
  | main
  | foreign
  deriving DecidableEq, Repr

/-- The sequencer of one context, live from the acceptance of a command to its response (R21, R37). -/
structure Seq where
  /-- The command in progress (R21). -/
  cmd : Instr
  /-- The number of its micro-operations performed so far, the position of R21 and R37. -/
  pos : Nat
  /-- `SAVED_IE`. -/
  savedIe : Bool
  /-- `ACC`, the Shifter's accumulator: its low `ACCW` bits. -/
  acc : Word
  /-- `SMASK`, the Shifter's advancing mask. -/
  smask : Word
  /-- `IDX`, the Shifter's bit index. -/
  idx : Nat
  /-- `VAL`, the DATA operand. -/
  val : Word
  /-- `TMP`, the value a register read gave. -/
  tmp : Word
  /-- The logical value last read through a handle: `r` of R179, `s` of R195 (log entry 9). -/
  samp : Bool
  deriving DecidableEq, Repr

/-- What a response port delivers for one command (R83, R84). -/
structure Response where
  result : Word
  err : Bool
  deriving DecidableEq, Repr

/-! ### Attached devices: the reference environments (R85 to R90) -/

/-- A pad `(p, b)` (R60). -/
structure Pad where
  port : Nat
  bit : Nat
  deriving DecidableEq, Repr

/-- A serial-in, parallel-out, latched chip (R86 to R89). The bit lists hold bit 0 first.
What the spec leaves to the device (I16) is a parameter of it. -/
structure Chip where
  /-- `n`, the number of stages (R86). -/
  stages : Nat
  /-- The data line `SER`. -/
  ser : Pad
  /-- The shift-clock line `SRCLK`. -/
  srclk : Pad
  /-- The storage clock line `RCLK`. -/
  rclk : Pad
  /-- The output-enable line `OEN`, where it is connected to the block (R89). -/
  oen : Option Pad
  /-- The electrical level of `OEN` at which the outputs are enabled (N12). -/
  oenActive : Bool
  /-- Whether the outputs are enabled by the wiring, where `OEN` is not connected (R89). -/
  wiredEnable : Bool
  /-- Parameter (log entry 14): where `SER` changes together with the rising shift clock, whether the new level is taken. -/
  takesNewSer : Bool
  /-- Parameter (log entry 14): where both clocks rise together, whether the shift comes before the latch. -/
  shiftsFirst : Bool
  /-- `SR`, the shift register (R86). -/
  sr : List Bool
  /-- `ST`, the storage register (R86). -/
  st : List Bool
  /-- The level of `SER` when last seen. -/
  lastSer : Bool
  /-- The level of `SRCLK` when last seen. -/
  lastSrclk : Bool
  /-- The level of `RCLK` when last seen. -/
  lastRclk : Bool
  deriving DecidableEq, Repr

/-- What the echo keeps for one context (R90, log entry 15). -/
structure EchoSide where
  /-- Whether the context's latest SHIFT.OUT has yet to append its first bit. -/
  fresh : Bool
  /-- The bits of `Q` that the context's latest SHIFT.OUT to append one has appended, first one first. -/
  sent : List Bool
  /-- The bits that the coming samples of the context's SHIFT.IN return, next one first. -/
  toCome : List Bool
  deriving DecidableEq, Repr

/-- The echo environment (R90). Its queue `Q` is kept by the SHIFT.OUT that appended each bit, as the rule asks for the bits
of one SHIFT.OUT; the bits no SHIFT.IN can return any more are dropped. -/
structure Echo where
  /-- The data-out line. -/
  dout : Pad
  /-- The shift-clock line. -/
  clk : Pad
  /-- The data-in line. -/
  din : Pad
  /-- The bits of the main context's shifts. -/
  main : EchoSide
  /-- The bits of the foreign context's shifts. -/
  foreign : EchoSide
  /-- The context whose SHIFT.OUT appended the newest bit. -/
  newest : Ctx
  /-- The level of the clock line when last seen. -/
  lastClk : Bool
  deriving DecidableEq, Repr

/-- What may stand on the pads outside the block. -/
inductive Device where
  /-- The chip of R86 to R89. -/
  | chip (c : Chip)
  /-- The echo queue of R90. -/
  | echo (e : Echo)
  /-- A bare wire from pad `src` to pad `dst` (C4). -/
  | wire (src dst : Pad)
  deriving DecidableEq, Repr

/-! ### Reasons to stop -/

/-- The block takes no fault (R230): no step of this model raises one. Every illegal word and every broken contract is a
command refused with a sticky flag and `ERR = 1` (R112, R232), which is a next state. -/
inductive Fault where
  deriving DecidableEq, Repr

/-- Why exec has no meaning for a command. -/
inductive Refusal where
  /-- Raised by exec alone, for a command that has no meaning yet; safe. No command is left without one. -/
  | notModelled (mnemonic : String)
  deriving DecidableEq, Repr

/-! ### The state -/

/-- The architectural state (R20), then the ports (R83), then the inputs of the step relation (R38) as plain data.
`NPORTS`, `NPH`, `NPN`, `NSH` and `NCH` are the lengths of `ports`, `ph`, `pn`, `sh` and `ch`. -/
structure State where
  /-- `W` (R9). -/
  width : Width
  /-- The register triples (R22). -/
  ports : List Triple
  /-- `IE` (R28). -/
  ie : Bool
  /-- `ILL` (R29). -/
  ill : Bool
  /-- `CFGERR` (R29). -/
  cfgerr : Bool
  /-- `OPERR` (R29). -/
  operr : Bool
  /-- The Port Handle slots (R30); `none` is `valid = 0`. -/
  ph : List (Option PortHandle)
  /-- The Pin Handle slots (R32). -/
  pn : List (Option PinHandle)
  /-- The Shifter slots (R33). -/
  sh : List (Option Shifter)
  /-- The Chip Driver slots (R34). -/
  ch : List (Option ChipDriver)
  /-- The main context's sequencer (R37); `none` when no command is in progress. -/
  mainSeq : Option Seq
  /-- The foreign context's sequencer (R37). -/
  foreignSeq : Option Seq
  /-- The latest response of the main response port since reset (R83). -/
  mainResp : Option Response
  /-- The responses the foreign response port has delivered since reset, first one first (R83). -/
  foreignResps : List Response
  /-- The main command port (R83): the commands the main context has yet to issue. -/
  cmds : List CmdWord
  /-- The foreign command port (R76, R83): for each coming boundary at which the foreign context may act, the sequence
  it issues there. The empty sequence, and the end of the list, say that it does not act. -/
  foreign : List (List CmdWord)
  /-- The reset input (R83, R260): for each coming boundary, whether reset is applied there. -/
  resets : List Bool
  /-- The environment's drive (R63): the levels of `EXT`, port by port, now and after each coming boundary, as far as an
  environment model states them. Where it states none, `EXT` is a free value (`Config.extFree`). -/
  ext : List (List Word)
  /-- The model's own: the number of boundaries passed, the argument of the free values. -/
  now : Nat
  /-- The devices on the pads (R85 to R90). -/
  devices : List Device
  deriving DecidableEq, Repr

/-- The state after reset (R39, R260) of a block with parameters `p`: every pin an input, every output latch low, `IE` and
the error flags 0, every slot invalid, no command in progress. Nothing stands at the ports and nothing on the pads. -/
def State.init (p : Params) : State :=
  { width := p.width
    ports := List.replicate p.nports { out := 0, dir := 0 }
    ie := false
    ill := false
    cfgerr := false
    operr := false
    ph := List.replicate p.nph none
    pn := List.replicate p.npn none
    sh := List.replicate p.nsh none
    ch := List.replicate p.nch none
    mainSeq := none
    foreignSeq := none
    mainResp := none
    foreignResps := []
    cmds := []
    foreign := []
    resets := []
    ext := []
    now := 0
    devices := [] }

/-- The machine right after reset, with the parameters D2 and D3 name (log entry 1). -/
def State.reset : State := State.init Params.default

end Sys2Proof.Machine
end

