-- ==== Sys2Proof/Machine/Pads.lean ====
section
/-!
DEFINITION. The register file, the pads and the world outside them (R60 to R65, R69), the ports (R83), and the devices of
the reference environments (R85 to R90).
-/

namespace Sys2Proof.Machine

open Sys2Proof

/-! ### Registers (R22 to R24, R60) -/

/-- `trunc_W` (R14). -/
def trunc (w : Width) (v : Word) : Word := v &&& ones w.bits

/-- `NPORTS` (R10). -/
def State.nports (s : State) : Nat := s.ports.length

/-- The triple of port `p` (R22). -/
def State.triple (s : State) (p : Nat) : Triple := (s.ports[p]?).getD { out := 0, dir := 0 }

/-- `OUT[p]` (R23). -/
def State.outReg (s : State) (p : Nat) : Word := trunc s.width (s.triple p).out

/-- `DIR[p]` (R24). -/
def State.dirReg (s : State) (p : Nat) : Word := trunc s.width (s.triple p).dir

/-! ### The levels the environment drives (R63) -/

/-- `EXT[p]` but for the devices: the level the environment model states, or a free value. -/
def State.extStated (s : State) (p : Nat) : Word :=
  trunc s.width ((((s.ext.head?).getD [])[p]?).getD (Config.extFree s.now p))

/-- The pads of port `p` but for the devices that drive a pad. -/
def State.padStated (s : State) (p : Nat) : Word :=
  (s.outReg p &&& s.dirReg p) ||| (s.extStated p &&& trunc s.width (~~~s.dirReg p))

/-- Whether a context has a SHIFT.IN in progress (R90: the echo answers during a SHIFT.IN). -/
def Seq.shiftingIn (q : Option Seq) : Bool :=
  match q with
  | some q => match q.cmd with
    | .shiftIn _ => true
    | _ => false
  | none => false

/-- Whether a context has a SHIFT.OUT in progress (R90). -/
def Seq.shiftingOut (q : Option Seq) : Bool :=
  match q with
  | some q => match q.cmd with
    | .shiftOut _ _ => true
    | _ => false
  | none => false

/-- What the echo keeps for a context. -/
def Echo.side (e : Echo) (c : Ctx) : EchoSide :=
  match c with
  | .main => e.main
  | .foreign => e.foreign

/-- What the echo keeps for a context changes. -/
def Echo.setSide (e : Echo) (c : Ctx) (x : EchoSide) : Echo :=
  match c with
  | .main => { e with main := x }
  | .foreign => { e with foreign := x }

/-- The context at work: the main context takes no step while a command of the foreign context is in progress (R76). -/
def State.atWork (s : State) : Ctx := if s.foreignSeq.isSome then .foreign else .main

/-- The bit the echo holds on the data-in line: the one the next sample returns to the context at work, while that context
has a SHIFT.IN in progress (R90). -/
def Echo.answer (e : Echo) (s : State) : Option Bool :=
  match s.atWork with
  | .main => if Seq.shiftingIn s.mainSeq then e.main.toCome.head? else none
  | .foreign => if Seq.shiftingIn s.foreignSeq then e.foreign.toCome.head? else none

/-- The level a device puts on a pad, where it drives one now: the echo the bit it is to return during a SHIFT.IN (R90), a
wire the level of its other end (C4). A chip drives no pad of the block. -/
def Device.drives (s : State) : Device → Option (Pad × Bool)
  | .chip _ => none
  | .echo e => (e.answer s).map fun b => (e.din, b)
  | .wire src dst => some (dst, (s.padStated src.port).getLsbD src.bit)

/-- The mask of bit `b`, `1 << b` (R66). -/
def bitMask (b : Nat) : Word := 1#32 <<< b

/-- Bit `b` at level `e`: `e ? (t | (1 << b)) : (t & ~(1 << b))` (R66, R175). -/
def withBit (t : Word) (b : Nat) (e : Bool) : Word := if e then t ||| bitMask b else t &&& ~~~bitMask b

/-- One device's drive laid over the levels of port `p`. -/
def overlay (s : State) (p : Nat) (v : Word) (d : Device) : Word :=
  match d.drives s with
  | some (pad, level) => if pad.port = p then withBit v pad.bit level else v
  | none => v

/-- `EXT[p]` (R63): the levels the world outside the block puts on the pads of port `p`. -/
def State.extWord (s : State) (p : Nat) : Word := trunc s.width (s.devices.foldl (overlay s p) (s.extStated p))

/-- `PAD[p] = (OUT[p] & DIR[p]) | (EXT[p] & ~DIR[p])` (R62). -/
def State.padWord (s : State) (p : Nat) : Word :=
  (s.outReg p &&& s.dirReg p) ||| (s.extWord p &&& trunc s.width (~~~s.dirReg p))

/-- The level of one pad. -/
def State.padLevel (s : State) (pad : Pad) : Bool := (s.padWord pad.port).getLsbD pad.bit

/-! ### The pad interface and the interrupt-enable output (R83) -/

/-- `pad_out`. -/
def State.padOut (s : State) (pad : Pad) : Bool := (s.outReg pad.port).getLsbD pad.bit
/-- `pad_oe`: the block drives the pad. -/
def State.padOe (s : State) (pad : Pad) : Bool := (s.dirReg pad.port).getLsbD pad.bit
/-- `pad_in`. -/
def State.padIn (s : State) (pad : Pad) : Bool := s.padLevel pad
/-- `ie`, to the processor beside the block. -/
def State.ieOut (s : State) : Bool := s.ie

/-! ### The access primitives (R64 to R66) -/

/-- `RegRead(p, r)` (R64). -/
def State.regRead (s : State) (p : Nat) : Reg → Word
  | .input => s.padWord p
  | .output => s.outReg p
  | .direction => s.dirReg p

/-- `RegWrite(p, r, v)` (R65): all `W` bits. There is no write to `IN`. -/
def State.regWrite (s : State) (p : Nat) (r : Reg) (v : Word) : State :=
  match r with
  | .input => s
  | .output => { s with ports := s.ports.modify p fun t => { t with out := trunc s.width v } }
  | .direction => { s with ports := s.ports.modify p fun t => { t with dir := trunc s.width v } }

/-- `BitWrite(p, r, b, e)` (R66): one bit, the other `W - 1` unchanged, at once. -/
def State.bitWrite (s : State) (p : Nat) (r : Reg) (b : Nat) (e : Bool) : State :=
  s.regWrite p r (withBit (s.regRead p r) b e)

/-! ### The devices (R86 to R90) -/

/-- `SR <- trunc_n((SR << 1) | SER)` (R87): the newest bit enters at bit 0. -/
def Chip.shift (c : Chip) (ser : Bool) : Chip := { c with sr := (ser :: c.sr).take c.stages }

/-- `ST <- SR` (R88). -/
def Chip.latch (c : Chip) : Chip := { c with st := c.sr }

/-- What a chip does when its lines come to these levels (R87, R88). -/
def Chip.see (c : Chip) (ser srclk rclk : Bool) : Chip :=
  let sampled := if c.takesNewSer then ser else c.lastSer
  let shiftEdge := srclk && !c.lastSrclk
  let latchEdge := rclk && !c.lastRclk
  let c1 := if shiftEdge && (c.shiftsFirst || !latchEdge) then c.shift sampled else c
  let c2 := if latchEdge then c1.latch else c1
  let c3 := if shiftEdge && latchEdge && !c.shiftsFirst then c2.shift sampled else c2
  { c3 with lastSer := ser, lastSrclk := srclk, lastRclk := rclk }

/-- The chip's parallel outputs (R89): `ST` while enabled, none while tri-stated. -/
def Chip.outputs (c : Chip) (s : State) : Option (List Bool) :=
  let enabled := match c.oen with
    | some pad => s.padLevel pad == c.oenActive
    | none => c.wiredEnable
  if enabled then some c.st else none

/-- A SHIFT.OUT of context `c` appends a bit (R90), its first one or a further one. -/
def Echo.append (e : Echo) (c : Ctx) (b : Bool) : Echo :=
  let x := e.side c
  { e.setSide c { x with fresh := false, sent := (if x.fresh then [] else x.sent) ++ [b] } with newest := c }

/-- What an echo does when its lines come to these levels (R90): a rising clock edge that a SHIFT.OUT causes appends the
data line's level. `shifter` is the context whose SHIFT.OUT brought the lines there, if one did. -/
def Echo.see (e : Echo) (shifter : Option Ctx) (dout clk : Bool) : Echo :=
  let e1 := match shifter with
    | some c => if clk && !e.lastClk then e.append c dout else e
    | none => e
  { e1 with lastClk := clk }

/-- A device sees the pads of state `s`. -/
def Device.see (s : State) (shifter : Option Ctx) : Device → Device
  | .chip c => .chip (c.see (s.padLevel c.ser) (s.padLevel c.srclk) (s.padLevel c.rclk))
  | .echo e => .echo (e.see shifter (s.padLevel e.dout) (s.padLevel e.clk))
  | .wire src dst => .wire src dst

/-- Every device sees the pads as they are now; `shifter` is the context whose SHIFT.OUT brought them there, if one did. -/
def State.observe (shifter : Option Ctx) (s : State) : State :=
  { s with devices := s.devices.map (Device.see s shifter) }

/-- Context `c` has a command accepted (R90): the bits of a SHIFT.OUT are told from those of an earlier one, and a SHIFT.IN
is to return the bits of the SHIFT.OUT before it, the one that appended the newest bit (log entry 15). What the other
context's shifts sent and are to return stays. -/
def Device.onAccept (c : Ctx) (i : Instr) : Device → Device
  | .echo e =>
      match i with
      | .shiftOut _ _ => .echo (e.setSide c { e.side c with fresh := true })
      | .shiftIn _ => .echo (e.setSide c { e.side c with toCome := (e.side e.newest).sent })
      | _ => .echo e
  | d => d

/-- A SHIFT.IN of context `c` has sampled this pad (R90): where it is the data-in line, the next sample returns the next
bit. -/
def Device.onSample (c : Ctx) (pad : Pad) : Device → Device
  | .echo e => if e.din = pad then .echo (e.setSide c { e.side c with toCome := (e.side c).toCome.tail }) else .echo e
  | d => d

end Sys2Proof.Machine
end

