-- ==== Sys2Proof/Machine/Flags.lean ====
section
/-!
DEFINITION. STATUS (R27), the sticky error flags (R29, R234).
-/

namespace Sys2Proof.Machine

open Sys2Proof

/-- The error flags (R29). -/
inductive Flag where
  | ill
  | cfgerr
  | operr
  deriving DecidableEq, Repr

/-- A flag at its bit of STATUS. -/
def statusBit (b : Nat) (v : Bool) : Word := if v then 1#32 <<< b else 0

/-- STATUS (R27, D32): `IE` at bit 0, `ILL`, `CFGERR`, `OPERR` at bits 8 to 10, every other bit 0. -/
def State.status (s : State) : Word :=
  statusBit 0 s.ie ||| statusBit 8 s.ill ||| statusBit 9 s.cfgerr ||| statusBit 10 s.operr

/-- A sticky flag is set and stays so (R29, R234). -/
def State.setFlag (s : State) : Flag → State
  | .ill => { s with ill := true }
  | .cfgerr => { s with cfgerr := true }
  | .operr => { s with operr := true }

end Sys2Proof.Machine
end

