-- ==== Sys2Proof/Machine/Uop.lean ====
section
/-!
DEFINITION. The vocabulary of a command's sequence: its micro-operations (R64 to R71, R132, R133), the sequencer's own
actions between them (R193 to R197), and what a command's checks decide (R114). All of it is plain data: a command is a
fixed sequence of micro-operations, known once its checks have passed.
-/

namespace Sys2Proof.Machine

open Sys2Proof

/-- Where the logical value of a write through a handle comes from (R175). -/
inductive Level where
  /-- A value the command or its rule gives. -/
  | const (v : Bool)
  /-- `(VAL & SMASK) != 0` (R197). -/
  | dataBit
  /-- The complement of the value just read (R179). -/
  | notSample
  deriving DecidableEq, Repr

/-- The value of a `RegWrite`, a function of `TMP` and `VAL` (R73: computed without any register access). -/
inductive Src where
  /-- A constant, `ones(W)` or 0 (R154, R156). -/
  | const (v : Word)
  /-- `VAL` (R136, R160). -/
  | val
  /-- `TMP | m` (R153). -/
  | tmpOr (m : Word)
  /-- `TMP & ~m` (R155). -/
  | tmpAndNot (m : Word)
  /-- `Merge(TMP, VAL)` (R159). -/
  | tmpMerge (start : Nat) (mask : Word)
  /-- `e ? (TMP | (1 << b)) : (TMP & ~(1 << b))` with `e` the electrical level (R175). -/
  | tmpBit (b : Nat) (level : Level) (inv : Bool)
  deriving DecidableEq, Repr

/-- The micro-operations: a single register access, a critical-section boundary, or the write of `IE` (R19). -/
inductive Uop where
  /-- `ACQ` (R70). -/
  | acq
  /-- `REL` (R71). -/
  | rel
  /-- `IE <- v` (R132, R133). -/
  | ieWrite (v : Bool)
  /-- `TMP <- RegRead(p, r)` (R64). -/
  | regRead (p : Nat) (r : Reg)
  /-- `RegWrite(p, r, v)` (R65). -/
  | regWrite (p : Nat) (r : Reg) (v : Src)
  /-- `BitWrite(p, r, b, e)` (R66), `e` the electrical level of a logical one (R16). -/
  | bitWrite (p : Nat) (r : Reg) (b : Nat) (level : Level) (inv : Bool)
  /-- `t <- RegRead(p, r)`, then the logical value `t[b] ^ inv` (R177). -/
  | sample (p : Nat) (r : Reg) (b : Nat) (inv : Bool)
  deriving DecidableEq, Repr

/-- What the sequencer does between micro-operations, touching no register. -/
inductive Internal where
  /-- `ACC <- 0` (R195). -/
  | clearAcc
  /-- `VAL <- trunc_ACCW(value)` (R197). -/
  | loadVal (nbits : Nat)
  /-- `SMASK <- initial mask`, `IDX <- 0` (R193, R194). -/
  | initMask (order : BitOrder) (nbits : Nat)
  /-- A read through a no-pin handle gives logical false (R178). -/
  | noSample
  /-- `if s = 1 then ACC <- ACC | SMASK` (R195). -/
  | accumulate
  /-- Advance `SMASK` and `IDX` (R193, R194), after the last iteration too (log entry 24). -/
  | advance (order : BitOrder) (nbits : Nat)
  deriving DecidableEq, Repr

/-- One action of a command's sequence. -/
inductive Act where
  | uop (u : Uop)
  | int (n : Internal)
  deriving DecidableEq, Repr

/-- Where RESULT comes from (R84). -/
inductive ResultSel where
  /-- 0. -/
  | zero
  /-- `zext_32(TMP)` (R135). -/
  | tmp
  /-- `zext_32((TMP & mask) >> start)` (R158). -/
  | tmpField (mask : Word) (start : Nat)
  /-- The value read through a handle (R177). -/
  | sample
  /-- `zext_32(ACC)` (R195). -/
  | acc
  /-- STATUS (R131). -/
  | status
  deriving DecidableEq, Repr

/-- The descriptor a configuration command writes (R35). -/
inductive Bind where
  | nothing
  | ph (k : Nat) (h : PortHandle)
  | pn (k : Nat) (h : PinHandle)
  | sh (k : Nat) (h : Shifter)
  | ch (k : Nat) (h : ChipDriver)
  deriving DecidableEq, Repr

/-- What a command that passed its checks does: write a descriptor, perform the actions in order, respond. -/
structure Plan where
  bind : Bind := .nothing
  acts : List Act := []
  result : ResultSel := .zero
  deriving DecidableEq, Repr

/-- What the checks of a command decide (R114, R232). -/
inductive Verdict where
  | refuse (f : Flag)
  | run (p : Plan)
  deriving DecidableEq, Repr

/-- How a stretch of the machine's work ends: it goes on, or the reset input was applied and what was in progress is
abandoned (R260). -/
inductive Flow where
  | live (s : State)
  | reset (s : State)
  deriving DecidableEq, Repr

end Sys2Proof.Machine
end

