-- ==== Sys2Proof/Machine/Operands.lean ====
section
/-!
DEFINITION. The operand forms: slots (R30 to R34), masks (R31, R193), the masked merge (R159), and the sequences by which
a command reads and writes through a handle (R73, R175, R177).
-/

namespace Sys2Proof.Machine

open Sys2Proof

/-! ### Slots -/

/-- `PH[k]` where `k < NPH` and the slot is valid (R152). -/
def State.portSlot (s : State) (k : Nat) : Option PortHandle := (s.ph[k]?).join
/-- `PN[k]` where `k < NPN` and the slot is valid (R171). -/
def State.pinSlot (s : State) (k : Nat) : Option PinHandle := (s.pn[k]?).join
/-- `SH[k]` where `k < NSH` and the slot is valid (R192). -/
def State.shiftSlot (s : State) (k : Nat) : Option Shifter := (s.sh[k]?).join
/-- `CH[k]` where `k < NCH` and the slot is valid (R212). -/
def State.chipSlot (s : State) (k : Nat) : Option ChipDriver := (s.ch[k]?).join

/-- Slot `k` exists and is invalid: the first two checks of every configuration command (R35, R115). -/
def freeSlot {α : Type} (table : List (Option α)) (k : Nat) : Bool :=
  match table[k]? with
  | some none => true
  | _ => false

/-- `kind = Output` (R32). -/
def PinHandle.isOutput (h : PinHandle) : Bool :=
  match h.kind with
  | .output _ _ => true
  | .input _ => false

/-- `PIN = NO_PIN`, or a valid pin: `port < NPORTS` and `bit < W` (R108, R172). -/
def State.pinOk (s : State) : PinId → Bool
  | .noPin => true
  | .pin port bit => decide (port < s.nports) && decide (bit < s.width.bits)

/-- Slot `k` of `PN` is a valid Output (R191, R211). -/
def State.outputSlot (s : State) (k : Nat) : Bool :=
  match s.pinSlot k with
  | some h => h.isOutput
  | none => false

/-- Slot `k` of `PN` is a valid Input (R191). -/
def State.inputSlot (s : State) (k : Nat) : Bool :=
  match s.pinSlot k with
  | some h => !h.isOutput
  | none => false

/-- Slot `k` of `SH` is a valid shift-out unit (R211). -/
def State.shiftOutSlot (s : State) (k : Nat) : Bool :=
  match s.shiftSlot k with
  | some h => decide (h.mode = .shiftOut)
  | none => false

/-- The register REG names, where it names one (R107). -/
def regOf : RegSel → Option Reg
  | .input => some .input
  | .output => some .output
  | .direction => some .direction
  | .noRegister => none

/-- The checks of a command in the order its rule lists them: the first that fails refuses it with the command's one
flag (R114). -/
def checked (flag : Flag) (checks : List Bool) (v : Verdict) : Verdict :=
  if checks.all id then v else .refuse flag

/-! ### Masks and the masked merge -/

/-- The Bit Mask of a Port Handle, `trunc_W(ones(nbits) << start)` (R31). -/
def PortHandle.mask (h : PortHandle) (w : Width) : Word := trunc w (ones h.nbits <<< h.start)

/-- `full(k)`: the handle covers the whole register (R31). -/
def PortHandle.full (h : PortHandle) (w : Width) : Bool := decide (h.nbits = w.bits)

/-- `Merge(v, raw)` (R159): the OR step asserts masked bits, the AND step clears masked bits `shifted` does not set. -/
def merge (w : Width) (start : Nat) (mask v raw : Word) : Word :=
  let shifted := trunc w (raw <<< start)
  let v1 := v ||| (shifted &&& mask)
  v1 &&& (shifted ||| trunc w (~~~mask))

/-- `ACCW(nbits)` (R12). -/
def accWidth (nbits : Nat) : Nat := if nbits ≤ 8 then 8 else if nbits ≤ 16 then 16 else 32

/-- `trunc_ACCW` (R14, R199). -/
def truncAcc (nbits : Nat) (v : Word) : Word := v &&& ones (accWidth nbits)

/-- The initial mask: `1` for LSB-first, `1 << (nbits-1)` for MSB-first (R193). -/
def initialMask (order : BitOrder) (nbits : Nat) : Word :=
  match order with
  | .lsbFirst => 1#32
  | .msbFirst => 1#32 <<< (nbits - 1)

/-- The mask moves one position toward the bits not yet transferred (R193; C1). -/
def nextMask (order : BitOrder) (nbits : Nat) (m : Word) : Word :=
  match order with
  | .lsbFirst => truncAcc nbits (m <<< 1)
  | .msbFirst => m >>> 1

/-- `pos(i)` (R193): the bit transferred in iteration `i`. -/
def bitPos (order : BitOrder) (nbits i : Nat) : Nat :=
  match order with
  | .lsbFirst => i
  | .msbFirst => nbits - 1 - i

/-- The DATA field of the command word (R101), which `VAL` holds while the command runs (R37). -/
def dataOperand (i : Instr) : Word :=
  match i with
  | .regWr _ _ v => v
  | .portWrite _ v => v
  | .shiftOut _ v => v
  | .chipWrite _ v => v
  | _ => (encode i).setWidth 32

/-- The electrical level of logical `v` through a handle of polarity `inv`: `v ^ inv` (R16, R175). -/
def electrical (v inv : Bool) : Bool := Bool.xor v inv

/-! ### Sequences -/

/-- `LockedRMW(p, r, f)` (R73). -/
def lockedRMW (p : Nat) (r : Reg) (f : Src) : List Act :=
  [.uop .acq, .uop (.regRead p r), .uop (.regWrite p r f), .uop .rel]

/-- The direction update of PORT.ENOUT (R154). -/
def enoutActs (w : Width) (h : PortHandle) : List Act :=
  if h.full w then [.uop (.regWrite h.port .direction (.const (ones w.bits)))]
  else lockedRMW h.port .direction (.tmpOr (h.mask w))

/-- The direction update of PORT.ENIN (R156). -/
def eninActs (w : Width) (h : PortHandle) : List Act :=
  if h.full w then [.uop (.regWrite h.port .direction (.const 0))]
  else lockedRMW h.port .direction (.tmpAndNot (h.mask w))

/-- The single-bit write through a handle (R175): one `BitWrite` when build-time-bound, a `LockedRMW` when dynamic, nothing
through a no-pin handle (R178). Inputs are never written through (R182). -/
def writeThrough (h : PinHandle) (v : Level) : List Act :=
  match h.pin, h.kind with
  | .noPin, _ => []
  | .pin _ _, .input _ => []
  | .pin p b, .output false inv => [.uop (.bitWrite p .output b v inv)]
  | .pin p b, .output true inv => lockedRMW p .output (.tmpBit b v inv)

/-- The read through a handle (R177): an Input's sensed level, an Output's logical value, false for a no-pin handle. -/
def readThrough (h : PinHandle) : List Act :=
  match h.pin, h.kind with
  | .noPin, _ => [.int .noSample]
  | .pin p b, .input _ => [.uop (.sample p .input b false)]
  | .pin p b, .output _ inv => [.uop (.sample p .output b inv)]

/-- `configure_pin` (R172): one `BitWrite` of the pin's direction bit. -/
def configurePin (pin : PinId) (output : Bool) : List Act :=
  match pin with
  | .noPin => []
  | .pin p b => [.uop (.bitWrite p .direction b (.const output) false)]

/-- `true`, then `false` through a handle: one clock or latch pulse (R180, R197, R213). -/
def pulseThrough (h : PinHandle) (v : Bool) : List Act := writeThrough h (.const v) ++ writeThrough h (.const (!v))

/-- The same actions `n` times (R194). -/
def repeatActs : Nat → List Act → List Act
  | 0, _ => []
  | n + 1, acts => acts ++ repeatActs n acts

/-- One iteration of SHIFT.IN, steps (a) to (e) of R195. -/
def shiftInRound (d c : PinHandle) (nbits : Nat) (order : BitOrder) : List Act :=
  writeThrough c (.const true) ++ readThrough d ++ [.int .accumulate] ++ writeThrough c (.const false)
    ++ [.int (.advance order nbits)]

/-- The sequence of SHIFT.IN (R195). -/
def shiftInActs (d c : PinHandle) (nbits : Nat) (order : BitOrder) : List Act :=
  [.int .clearAcc, .int (.initMask order nbits)] ++ repeatActs nbits (shiftInRound d c nbits order)

/-- One iteration of SHIFT.OUT, steps (a) to (c) of R197: data before clock (R198). -/
def shiftOutRound (d c : PinHandle) (nbits : Nat) (order : BitOrder) : List Act :=
  writeThrough d .dataBit ++ pulseThrough c true ++ [.int (.advance order nbits)]

/-- The sequence of SHIFT.OUT (R197). -/
def shiftOutActs (d c : PinHandle) (nbits : Nat) (order : BitOrder) : List Act :=
  [.int (.loadVal nbits), .int (.initMask order nbits)] ++ repeatActs nbits (shiftOutRound d c nbits order)

/-- How many micro-operations a sequence has (R203, R276). -/
def uopCount : List Act → Nat
  | [] => 0
  | .uop _ :: acts => uopCount acts + 1
  | .int _ :: acts => uopCount acts

end Sys2Proof.Machine
end

