-- ==== Sys2Proof/Machine/Ops.lean ====
section
/-!
DEFINITION. The operations every command is made of: the critical section (R70 to R72), refusal (R232), the
micro-operations, the sequencer, acceptance and response (R74, R84), reset (R260) and the passing of a boundary to the
environment (R63). DirectIO CORE takes no exception (R230): `acq` and `refuse` are what stands nearest to entering one
(R238, R232), and `rel` to returning from one (R239).
-/

namespace Sys2Proof.Machine

open Sys2Proof

/-! ### The sequencer (R37) -/

/-- A sequencer at the acceptance of a command: its position is 0 and `VAL` holds DATA; what else it holds is unspecified
(R37, R39, I4; log entry 8), and no command reads it before writing it. -/
def Seq.accepted (now : Nat) (i : Instr) : Seq :=
  { cmd := i, pos := 0, savedIe := Config.seqBit now 0, acc := Config.seqWord now 0, smask := Config.seqWord now 1
    idx := Config.seqIndex now, val := dataOperand i, tmp := Config.seqWord now 2, samp := Config.seqBit now 1 }

/-- A context's sequencer. Outside a command there is none; what is read then is unspecified. -/
def State.seq (s : State) (c : Ctx) : Seq :=
  match c with
  | .main => s.mainSeq.getD (Seq.accepted 0 .nop)
  | .foreign => s.foreignSeq.getD (Seq.accepted 0 .nop)

/-- Whether a context has a command in progress. -/
def State.busy (s : State) (c : Ctx) : Bool :=
  match c with
  | .main => s.mainSeq.isSome
  | .foreign => s.foreignSeq.isSome

/-- A context's sequencer changes. -/
def State.setSeq (s : State) (c : Ctx) (q : Option Seq) : State :=
  match c with
  | .main => { s with mainSeq := q }
  | .foreign => { s with foreignSeq := q }

/-- A context's sequencer is updated. -/
def State.updSeq (s : State) (c : Ctx) (f : Seq → Seq) : State := s.setSeq c (some (f (s.seq c)))

/-! ### The critical section and refusal -/

/-- `ACQ` (R70): `SAVED_IE <- IE; IE <- 0`, both at once. -/
def acq (c : Ctx) (s : State) : State :=
  { (s.updSeq c fun q => { q with savedIe := s.ie }) with ie := false }

/-- `REL` (R71): `IE <- SAVED_IE`. -/
def rel (c : Ctx) (s : State) : State := { s with ie := (s.seq c).savedIe }

/-- A context's response port delivers a response (R83, R84). -/
def respond (c : Ctx) (r : Response) (s : State) : State :=
  match c with
  | .main => { s with mainResp := some r }
  | .foreign => { s with foreignResps := s.foreignResps ++ [r] }

/-- `refuse <FLAG>` (R232): the sticky flag, `ERR = 1`, `RESULT = 0`, nothing else. -/
def refuse (c : Ctx) (f : Flag) (s : State) : State := respond c { result := 0, err := true } (s.setFlag f)

/-- A word that is no legal encoding (R112). -/
def illegal (c : Ctx) (s : State) : State := refuse c .ill s

/-! ### Micro-operations and the sequencer's own actions -/

/-- The logical value to write (R175, R179, R197). -/
def Level.eval (q : Seq) : Level → Bool
  | .const v => v
  | .dataBit => (q.val &&& q.smask) != 0
  | .notSample => !q.samp

/-- The value to write, computed without any register access (R73). -/
def Src.eval (w : Width) (q : Seq) : Src → Word
  | .const v => v
  | .val => q.val
  | .tmpOr m => q.tmp ||| m
  | .tmpAndNot m => q.tmp &&& ~~~m
  | .tmpMerge start mask => merge w start mask q.tmp q.val
  | .tmpBit b level inv => withBit q.tmp b (electrical (level.eval q) inv)

/-- A read through a handle gives its logical value (R177); the echo sees the samples of a SHIFT.IN (R90). -/
def sample (c : Ctx) (p : Nat) (r : Reg) (b : Nat) (inv : Bool) (s : State) : State :=
  let v := Bool.xor ((s.regRead p r).getLsbD b) inv
  let s1 := s.updSeq c fun q => { q with samp := v }
  if Seq.shiftingIn (some (s.seq c)) && decide (r = .input) then
    { s1 with devices := s1.devices.map (Device.onSample c { port := p, bit := b }) }
  else s1

/-- One micro-operation of context `c`. -/
def applyUop (c : Ctx) (u : Uop) (s : State) : State :=
  match u with
  | .acq => acq c s
  | .rel => rel c s
  | .ieWrite v => { s with ie := v }
  | .regRead p r => s.updSeq c fun q => { q with tmp := s.regRead p r }
  | .regWrite p r v => s.regWrite p r (v.eval s.width (s.seq c))
  | .bitWrite p r b level inv => s.bitWrite p r b (electrical (level.eval (s.seq c)) inv)
  | .sample p r b inv => sample c p r b inv s

/-- A micro-operation, the position moved on (R21), and the devices on the pads seeing its effect (R69). -/
def doUop (c : Ctx) (u : Uop) (s : State) : State :=
  let s1 := (applyUop c u s).updSeq c fun q => { q with pos := q.pos + 1 }
  s1.observe (if Seq.shiftingOut (some (s1.seq c)) then some c else none)

/-- One action of the sequencer between micro-operations. The last `advance` of a shift leaves `IDX` at `nbits`, where it
stays until the response: DESIGN CHOICE, log entry 24 (R37 gives it only the values 0 to nbits-1). -/
def doInternal (c : Ctx) (n : Internal) (s : State) : State :=
  s.updSeq c fun q =>
    match n with
    | .clearAcc => { q with acc := 0 }
    | .loadVal nbits => { q with val := truncAcc nbits q.val }
    | .initMask order nbits => { q with smask := initialMask order nbits, idx := 0 }
    | .noSample => { q with samp := false }
    | .accumulate => if q.samp then { q with acc := q.acc ||| q.smask } else q
    | .advance order nbits => { q with smask := nextMask order nbits q.smask, idx := q.idx + 1 }

/-! ### Reset and the passing of a boundary -/

/-- The reset input is applied (R260): every piece of state takes its reset value (R39); the parameters, what stands at the
ports, the environment and the devices are no state of the block and stay (R261). -/
def blockReset (s : State) : State :=
  { State.init
      { width := s.width, nports := s.ports.length, nph := s.ph.length, npn := s.pn.length, nsh := s.sh.length
        nch := s.ch.length } with
    cmds := s.cmds, foreign := s.foreign, resets := s.resets, ext := s.ext, now := s.now, devices := s.devices }

/-- Time passes at a boundary (R63): the environment's levels become those of the next boundary, and the devices see
them. -/
def elapse (s : State) : State :=
  State.observe none { s with now := s.now + 1, ext := s.ext.tail, resets := s.resets.tail }

/-- Whether the reset input is applied at the coming boundary. -/
def resetDue (s : State) : Bool :=
  match s.resets with
  | [] => false
  | r :: _ => r

/-- A boundary of either context as the environment has it: time passes, and the reset input may be applied. -/
def tick (s : State) : Flow :=
  if resetDue s then .reset ((blockReset (elapse s)).observe none) else .live (elapse s)

/-- Work that goes on only if no reset was applied. -/
def Flow.bind (x : Flow) (f : State → Flow) : Flow :=
  match x with
  | .live s => f s
  | .reset s => .reset s

/-- The state a stretch of work ends in. -/
def Flow.state : Flow → State
  | .live s => s
  | .reset s => s

/-! ### A command from acceptance to response (R74) -/

/-- A configuration command writes its descriptor (R35). -/
def applyBind (b : Bind) (s : State) : State :=
  match b with
  | .nothing => s
  | .ph k h => { s with ph := s.ph.set k (some h) }
  | .pn k h => { s with pn := s.pn.set k (some h) }
  | .sh k h => { s with sh := s.sh.set k (some h) }
  | .ch k h => { s with ch := s.ch.set k (some h) }

/-- The command is accepted: its descriptor is written and its sequencer is live. -/
def accept (c : Ctx) (i : Instr) (b : Bind) (s : State) : State :=
  let s1 := (applyBind b s).setSeq c (some (Seq.accepted s.now i))
  { s1 with devices := s1.devices.map (Device.onAccept c i) }

/-- The actions of a command in order, with `hook` at the boundary before each micro-operation (R75). -/
def runActs (c : Ctx) (hook : State → Flow) : List Act → State → Flow
  | [], s => .live s
  | .uop u :: acts, s => (hook s).bind fun s1 => runActs c hook acts (doUop c u s1)
  | .int n :: acts, s => runActs c hook acts (doInternal c n s)

/-- RESULT (R84). -/
def resultOf (c : Ctx) (sel : ResultSel) (s : State) : Word :=
  match sel with
  | .zero => 0
  | .tmp => (s.seq c).tmp
  | .tmpField mask start => ((s.seq c).tmp &&& mask) >>> start
  | .sample => if (s.seq c).samp then 1 else 0
  | .acc => (s.seq c).acc
  | .status => s.status

/-- The command responds and its sequencer state is gone (R37, R84), before the boundary that follows (log entry 25). -/
def finish (c : Ctx) (sel : ResultSel) (s : State) : State :=
  (respond c { result := resultOf c sel s, err := false } s).setSeq c none

/-- A command of context `c` whose checks decided `v`. It responds before the boundary after its last micro-operation, so
a reset there finds it answered: DESIGN CHOICE, log entry 25 (R74, R75 and R260 do not order the two). -/
def runCommand (c : Ctx) (hook : State → Flow) (i : Instr) (v : Verdict) (s : State) : Flow :=
  match v with
  | .refuse f => .live (refuse c f s)
  | .run p => (runActs c hook p.acts (accept c i p.bind s)).bind fun t => .live (finish c p.result t)

end Sys2Proof.Machine
end

