-- ==== Sys2Proof/Machine/PlanShifter.lean ====
section
/-!
DEFINITION. The Shifter commands (R190 to R203): their checks, micro-operations and RESULT.
-/

namespace Sys2Proof.Machine

open Sys2Proof

/-- SHIFT.CFG (R191): no micro-operation. -/
def planShiftCfg (k : Nat) (mode : ShiftMode) (datah clkh nbits : Nat) (order : BitOrder) (s : State) : Verdict :=
  checked .cfgerr
    [ freeSlot s.sh k,
      match mode with
        | .shiftIn => s.inputSlot datah
        | .shiftOut => s.outputSlot datah,
      s.outputSlot clkh,
      decide (1 ≤ nbits ∧ nbits ≤ 32) ]
    (.run { bind := .sh k { mode := mode, data := datah, clk := clkh, nbits := nbits, order := order } })

/-- The checks of R192 and the handles a valid slot names. That the handles are valid is no check of the rule: it holds of
every slot SHIFT.CFG bound (R192; log entry 16). -/
def withShifter (k : Nat) (mode : ShiftMode) (s : State) (f : Shifter → PinHandle → PinHandle → Verdict) : Verdict :=
  match s.shiftSlot k with
  | some h =>
      match s.pinSlot h.data, s.pinSlot h.clk with
      | some d, some c => checked .operr [decide (h.mode = mode)] (f h d c)
      | _, _ => .refuse .operr
  | none => .refuse .operr

/-- SHIFT.IN (R195). -/
def planShiftIn (k : Nat) (s : State) : Verdict :=
  withShifter k .shiftIn s fun h d c => .run { acts := shiftInActs d c h.nbits h.order, result := .acc }

/-- SHIFT.OUT (R197). -/
def planShiftOut (k : Nat) (s : State) : Verdict :=
  withShifter k .shiftOut s fun h d c => .run { acts := shiftOutActs d c h.nbits h.order }

end Sys2Proof.Machine
end

