-- ==== Sys2Proof/Machine/PlanChip.lean ====
section
/-!
DEFINITION. The Chip Driver commands (R210 to R218): their checks, micro-operations and RESULT.
-/

namespace Sys2Proof.Machine

open Sys2Proof

/-- CHIP.CFG (R211): the driver is bound, then the initial enable state is written. -/
def planChipCfg (k shifter latchh oeh : Nat) (initEn : Bool) (s : State) : Verdict :=
  match s.pinSlot oeh with
  | some oe =>
      checked .cfgerr [freeSlot s.ch k, s.shiftOutSlot shifter, s.outputSlot latchh, oe.isOutput]
        (.run { bind := .ch k { sh := shifter, latch := latchh, oe := oeh }, acts := writeThrough oe (.const initEn) })
  | none => .refuse .cfgerr

/-- CHIP.WRITE (R213): the whole SHIFT.OUT, then one latch pulse (R216). -/
def planChipWrite (k : Nat) (s : State) : Verdict :=
  match s.chipSlot k with
  | some h =>
      match s.pinSlot h.latch with
      | some latch =>
          withShifter h.sh .shiftOut s fun sh d c =>
            .run { acts := shiftOutActs d c sh.nbits sh.order ++ pulseThrough latch true }
      | none => .refuse .operr
  | none => .refuse .operr

/-- The write of an enable state through the output-enable handle (R214, R215). -/
def chipEnableTo (k : Nat) (v : Bool) (s : State) : Verdict :=
  match s.chipSlot k with
  | some h =>
      match s.pinSlot h.oe with
      | some oe => .run { acts := writeThrough oe (.const v) }
      | none => .refuse .operr
  | none => .refuse .operr

/-- CHIP.ENABLE (R214). -/
def planChipEnable (k : Nat) (s : State) : Verdict := chipEnableTo k true s

/-- CHIP.DISABLE (R215). -/
def planChipDisable (k : Nat) (s : State) : Verdict := chipEnableTo k false s

end Sys2Proof.Machine
end

