-- ==== Sys2Proof/Machine/PlanPin.lean ====
section
/-!
DEFINITION. The Pin Handle commands (R170 to R182): their checks, micro-operations and RESULT.
-/

namespace Sys2Proof.Machine

open Sys2Proof

/-- PIN.BINDIN (R172): the pull-up is recorded and has no effect (D14). -/
def planPinBindin (k : Nat) (pin : PinId) (pullup : Bool) (s : State) : Verdict :=
  checked .cfgerr [freeSlot s.pn k, s.pinOk pin]
    (.run { bind := .pn k { kind := .input pullup, pin := pin }, acts := configurePin pin false })

/-- PIN.BINDOUT (R173, R174): the initial value first, the direction second. -/
def planPinBindout (k : Nat) (pin : PinId) (init dyn inv : Bool) (s : State) : Verdict :=
  let h : PinHandle := { kind := .output dyn inv, pin := pin }
  checked .cfgerr [freeSlot s.pn k, s.pinOk pin]
    (.run { bind := .pn k h, acts := writeThrough h (.const init) ++ configurePin pin true })

/-- PIN.READ (R177). -/
def planPinRead (k : Nat) (s : State) : Verdict :=
  match s.pinSlot k with
  | some h => .run { acts := readThrough h, result := .sample }
  | none => .refuse .operr

/-- PIN.WRITE (R176). -/
def planPinWrite (k : Nat) (value : Bool) (s : State) : Verdict :=
  match s.pinSlot k with
  | some h => checked .operr [h.isOutput] (.run { acts := writeThrough h (.const value) })
  | none => .refuse .operr

/-- PIN.TOGGLE (R179): the read, then the write of the complement, two sub-operations. -/
def planPinToggle (k : Nat) (s : State) : Verdict :=
  match s.pinSlot k with
  | some h => checked .operr [h.isOutput] (.run { acts := readThrough h ++ writeThrough h .notSample })
  | none => .refuse .operr

/-- PIN.PULSE (R180): the value, then its complement. -/
def planPinPulse (k : Nat) (value : Bool) (s : State) : Verdict :=
  match s.pinSlot k with
  | some h => checked .operr [h.isOutput] (.run { acts := pulseThrough h value })
  | none => .refuse .operr

end Sys2Proof.Machine
end

