-- ==== Sys2Proof/Machine/PlanPort.lean ====
section
/-!
DEFINITION. The Port Handle commands (R150 to R165): their checks, micro-operations and RESULT.
-/

namespace Sys2Proof.Machine

open Sys2Proof

/-- PORT.BIND (R151): the handle is bound, then its direction is set as PORT.ENOUT or PORT.ENIN does. -/
def planPortBind (k port : Nat) (dirn : Dirn) (start nbits : Nat) (s : State) : Verdict :=
  let h : PortHandle := { port := port, dirn := dirn, start := start, nbits := nbits }
  checked .cfgerr
    [freeSlot s.ph k, decide (port < s.nports), decide (1 ≤ nbits), decide (start + nbits ≤ s.width.bits)]
    (.run
      { bind := .ph k h
        acts := match dirn with
          | .writing => enoutActs s.width h
          | .reading => eninActs s.width h })

/-- PORT.ENOUT (R154). -/
def planPortEnout (k : Nat) (s : State) : Verdict :=
  match s.portSlot k with
  | some h => .run { acts := enoutActs s.width h }
  | none => .refuse .operr

/-- PORT.ENIN (R156). -/
def planPortEnin (k : Nat) (s : State) : Verdict :=
  match s.portSlot k with
  | some h => .run { acts := eninActs s.width h }
  | none => .refuse .operr

/-- PORT.READ (R158): `OUT` for a handle open for writing, `IN` for one open for reading. -/
def planPortRead (k : Nat) (s : State) : Verdict :=
  match s.portSlot k with
  | some h =>
      .run
        { acts := match h.dirn with
            | .writing => [.uop (.regRead h.port .output)]
            | .reading => [.uop (.regRead h.port .input)]
          result := .tmpField (h.mask s.width) h.start }
  | none => .refuse .operr

/-- PORT.WRITE (R160): a single store when full-width (R82), the masked write under the critical section otherwise; refused
on a handle open for reading (R164). -/
def planPortWrite (k : Nat) (s : State) : Verdict :=
  match s.portSlot k with
  | some h =>
      checked .operr [decide (h.dirn = .writing)]
        (.run
          { acts :=
              if h.full s.width then [.uop (.regWrite h.port .output .val)]
              else lockedRMW h.port .output (.tmpMerge h.start (h.mask s.width)) })
  | none => .refuse .operr

end Sys2Proof.Machine
end

