-- ==== Sys2Proof/Machine/PlanSystem.lean ====
section
/-!
DEFINITION. The system commands (R130 to R136): their checks, micro-operations and RESULT.
-/

namespace Sys2Proof.Machine

open Sys2Proof

/-- NOP (R130). -/
def planNop (_ : State) : Verdict := .run {}

/-- STAT.RD (R131). -/
def planStatRd (_ : State) : Verdict := .run { result := .status }

/-- IE.SET (R132). -/
def planIeSet (_ : State) : Verdict := .run { acts := [.uop (.ieWrite true)] }

/-- IE.CLR (R133). -/
def planIeClr (_ : State) : Verdict := .run { acts := [.uop (.ieWrite false)] }

/-- REG.RD (R135). -/
def planRegRd (port : Nat) (reg : RegSel) (s : State) : Verdict :=
  match regOf reg with
  | some r => checked .operr [decide (port < s.nports)] (.run { acts := [.uop (.regRead port r)], result := .tmp })
  | none => .refuse .operr

/-- REG.WR (R136): `IN` is read-only. -/
def planRegWr (port : Nat) (reg : RegSel) (s : State) : Verdict :=
  match regOf reg with
  | some r =>
      checked .operr [decide (port < s.nports), decide (r ≠ Reg.input)] (.run { acts := [.uop (.regWrite port r .val)] })
  | none => .refuse .operr

end Sys2Proof.Machine
end

