-- ==== Sys2Proof/Machine/Foreign.lean ====
section
/-!
DEFINITION. The foreign context (R74 to R76, R240), the boundaries of the main context at which it may act (R75), and a
command of the main context.
-/

namespace Sys2Proof.Machine

open Sys2Proof

/-- What the checks of a command decide. Either context may issue any command (R134). -/
def planOf (i : Instr) (s : State) : Verdict :=
  match i with
  | .nop => planNop s
  | .statRd => planStatRd s
  | .ieSet => planIeSet s
  | .ieClr => planIeClr s
  | .regRd port reg => planRegRd port reg s
  | .regWr port reg _ => planRegWr port reg s
  | .portBind k port dirn start nbits => planPortBind k port dirn start nbits s
  | .portEnout k => planPortEnout k s
  | .portEnin k => planPortEnin k s
  | .portRead k => planPortRead k s
  | .portWrite k _ => planPortWrite k s
  | .pinBindin k pin pullup => planPinBindin k pin pullup s
  | .pinBindout k pin init dyn inv => planPinBindout k pin init dyn inv s
  | .pinRead k => planPinRead k s
  | .pinWrite k value => planPinWrite k value s
  | .pinToggle k => planPinToggle k s
  | .pinPulse k value => planPinPulse k value s
  | .shiftCfg k mode datah clkh nbits order => planShiftCfg k mode datah clkh nbits order s
  | .shiftIn k => planShiftIn k s
  | .shiftOut k _ => planShiftOut k s
  | .chipCfg k shifter latchh oeh initEn => planChipCfg k shifter latchh oeh initEn s
  | .chipWrite k _ => planChipWrite k s
  | .chipEnable k => planChipEnable k s
  | .chipDisable k => planChipDisable k s

/-- One command of the foreign context, performed by the same rules with its own sequencer while the main context takes no
step (R76); the environment acts at its boundaries, the last one included (R63). -/
def foreignCommand (w : CmdWord) (s : State) : Flow :=
  let done := match decode w with
    | .ok i => runCommand .foreign tick i (planOf i s) s
    | .error _ => .live (illegal .foreign s)
  done.bind tick

/-- A sequence of the foreign context, run to completion (R76). -/
def foreignRun : List CmdWord → State → Flow
  | [], s => .live s
  | w :: ws, s => (foreignCommand w s).bind (foreignRun ws)

/-- The foreign context acts with the sequence `ws`. The spec admits only sequences that leave `IE = 1` (R76, R134): one
that would not is no schedule of the spec, and the foreign context does not act (log entry 3). -/
def foreignAct (ws : List CmdWord) (s : State) : Flow :=
  match foreignRun ws s with
  | .live t => if t.ie then .live t else .live s
  | .reset t => .reset t

/-- A boundary of the main context (R75): the environment acts, and the foreign context may act exactly where `IE = 1`. -/
def boundary (s : State) : Flow :=
  (tick s).bind fun t =>
    if t.ie then
      match t.foreign with
      | [] => .live t
      | ws :: rest => foreignAct ws { t with foreign := rest }
    else .live t

/-- A command of the main context whose checks decided `v` (R74): a boundary before each of its micro-operations. The
boundary after its last one is the one at the start of the next step. -/
def runMain (i : Instr) (v : Verdict) (s : State) : State := (runCommand .main boundary i v s).state

end Sys2Proof.Machine
end

