-- ==== Sys2Proof/Machine/Chip.lean ====
section
/-!
DEFINITION. The Chip Driver commands (R210 to R218).
-/

namespace Sys2Proof.Machine

open Sys2Proof

/-- CHIP.CFG (R211). -/
def execChipCfg (k shifter latchh oeh : Nat) (initEn : Bool) (s : State) : Host.Outcome State Fault Refusal :=
  .next (runMain (.chipCfg k shifter latchh oeh initEn) (planChipCfg k shifter latchh oeh initEn s) s)

/-- CHIP.WRITE (R213). -/
def execChipWrite (k : Nat) (value : Word) (s : State) : Host.Outcome State Fault Refusal :=
  .next (runMain (.chipWrite k value) (planChipWrite k s) s)

/-- CHIP.ENABLE (R214). -/
def execChipEnable (k : Nat) (s : State) : Host.Outcome State Fault Refusal :=
  .next (runMain (.chipEnable k) (planChipEnable k s) s)

/-- CHIP.DISABLE (R215). -/
def execChipDisable (k : Nat) (s : State) : Host.Outcome State Fault Refusal :=
  .next (runMain (.chipDisable k) (planChipDisable k s) s)

end Sys2Proof.Machine
end

