-- ==== Sys2Proof/Machine/Pin.lean ====
section
/-!
DEFINITION. The Pin Handle commands (R170 to R182).
-/

namespace Sys2Proof.Machine

open Sys2Proof

/-- PIN.BINDIN (R172). -/
def execPinBindin (k : Nat) (pin : PinId) (pullup : Bool) (s : State) : Host.Outcome State Fault Refusal :=
  .next (runMain (.pinBindin k pin pullup) (planPinBindin k pin pullup s) s)

/-- PIN.BINDOUT (R174). -/
def execPinBindout (k : Nat) (pin : PinId) (init dyn inv : Bool) (s : State) : Host.Outcome State Fault Refusal :=
  .next (runMain (.pinBindout k pin init dyn inv) (planPinBindout k pin init dyn inv s) s)

/-- PIN.READ (R177). -/
def execPinRead (k : Nat) (s : State) : Host.Outcome State Fault Refusal :=
  .next (runMain (.pinRead k) (planPinRead k s) s)

/-- PIN.WRITE (R176). -/
def execPinWrite (k : Nat) (value : Bool) (s : State) : Host.Outcome State Fault Refusal :=
  .next (runMain (.pinWrite k value) (planPinWrite k value s) s)

/-- PIN.TOGGLE (R179). -/
def execPinToggle (k : Nat) (s : State) : Host.Outcome State Fault Refusal :=
  .next (runMain (.pinToggle k) (planPinToggle k s) s)

/-- PIN.PULSE (R180). -/
def execPinPulse (k : Nat) (value : Bool) (s : State) : Host.Outcome State Fault Refusal :=
  .next (runMain (.pinPulse k value) (planPinPulse k value s) s)

end Sys2Proof.Machine
end

