-- ==== Sys2Proof/Machine/Port.lean ====
section
/-!
DEFINITION. The Port Handle commands (R150 to R165).
-/

namespace Sys2Proof.Machine

open Sys2Proof

/-- PORT.BIND (R151). -/
def execPortBind (k port : Nat) (dirn : Dirn) (start nbits : Nat) (s : State) : Host.Outcome State Fault Refusal :=
  .next (runMain (.portBind k port dirn start nbits) (planPortBind k port dirn start nbits s) s)

/-- PORT.ENOUT (R154). -/
def execPortEnout (k : Nat) (s : State) : Host.Outcome State Fault Refusal :=
  .next (runMain (.portEnout k) (planPortEnout k s) s)

/-- PORT.ENIN (R156). -/
def execPortEnin (k : Nat) (s : State) : Host.Outcome State Fault Refusal :=
  .next (runMain (.portEnin k) (planPortEnin k s) s)

/-- PORT.READ (R158). -/
def execPortRead (k : Nat) (s : State) : Host.Outcome State Fault Refusal :=
  .next (runMain (.portRead k) (planPortRead k s) s)

/-- PORT.WRITE (R160). -/
def execPortWrite (k : Nat) (value : Word) (s : State) : Host.Outcome State Fault Refusal :=
  .next (runMain (.portWrite k value) (planPortWrite k s) s)

end Sys2Proof.Machine
end

