-- ==== Sys2Proof/Machine/Shifter.lean ====
section
/-!
DEFINITION. The Shifter commands (R190 to R203).
-/

namespace Sys2Proof.Machine

open Sys2Proof

/-- SHIFT.CFG (R191). -/
def execShiftCfg (k : Nat) (mode : ShiftMode) (datah clkh nbits : Nat) (order : BitOrder) (s : State) : Host.Outcome State Fault Refusal :=
  .next (runMain (.shiftCfg k mode datah clkh nbits order) (planShiftCfg k mode datah clkh nbits order s) s)

/-- SHIFT.IN (R195). -/
def execShiftIn (k : Nat) (s : State) : Host.Outcome State Fault Refusal :=
  .next (runMain (.shiftIn k) (planShiftIn k s) s)

/-- SHIFT.OUT (R197). -/
def execShiftOut (k : Nat) (value : Word) (s : State) : Host.Outcome State Fault Refusal :=
  .next (runMain (.shiftOut k value) (planShiftOut k s) s)

end Sys2Proof.Machine
end

