-- ==== Sys2Proof/Machine/System.lean ====
section
/-!
DEFINITION. The system commands (R130 to R137).
-/

namespace Sys2Proof.Machine

open Sys2Proof

/-- NOP (R130). -/
def execNop (s : State) : Host.Outcome State Fault Refusal :=
  .next (runMain .nop (planNop s) s)

/-- STAT.RD (R131). -/
def execStatRd (s : State) : Host.Outcome State Fault Refusal :=
  .next (runMain .statRd (planStatRd s) s)

/-- IE.SET (R132). -/
def execIeSet (s : State) : Host.Outcome State Fault Refusal :=
  .next (runMain .ieSet (planIeSet s) s)

/-- IE.CLR (R133). -/
def execIeClr (s : State) : Host.Outcome State Fault Refusal :=
  .next (runMain .ieClr (planIeClr s) s)

/-- REG.RD (R135). -/
def execRegRd (port : Nat) (reg : RegSel) (s : State) : Host.Outcome State Fault Refusal :=
  .next (runMain (.regRd port reg) (planRegRd port reg s) s)

/-- REG.WR (R136). -/
def execRegWr (port : Nat) (reg : RegSel) (value : Word) (s : State) : Host.Outcome State Fault Refusal :=
  .next (runMain (.regWr port reg value) (planRegWr port reg s) s)

end Sys2Proof.Machine
end

