-- ==== Sys2Proof/Machine/Dispatch.lean ====
section
/-!
DEFINITION. The meaning of each command, one arm for each constructor of Instr.
-/

namespace Sys2Proof.Machine

open Sys2Proof

def exec (i : Instr) (s : State) : Host.Outcome State Fault Refusal :=
  match i with
  | .nop => Sys2Proof.Machine.execNop s
  | .statRd => Sys2Proof.Machine.execStatRd s
  | .ieSet => Sys2Proof.Machine.execIeSet s
  | .ieClr => Sys2Proof.Machine.execIeClr s
  | .regRd port reg => Sys2Proof.Machine.execRegRd port reg s
  | .regWr port reg value => Sys2Proof.Machine.execRegWr port reg value s
  | .portBind k port dirn start nbits => Sys2Proof.Machine.execPortBind k port dirn start nbits s
  | .portEnout k => Sys2Proof.Machine.execPortEnout k s
  | .portEnin k => Sys2Proof.Machine.execPortEnin k s
  | .portRead k => Sys2Proof.Machine.execPortRead k s
  | .portWrite k value => Sys2Proof.Machine.execPortWrite k value s
  | .pinBindin k pin pullup => Sys2Proof.Machine.execPinBindin k pin pullup s
  | .pinBindout k pin init dyn inv => Sys2Proof.Machine.execPinBindout k pin init dyn inv s
  | .pinRead k => Sys2Proof.Machine.execPinRead k s
  | .pinWrite k value => Sys2Proof.Machine.execPinWrite k value s
  | .pinToggle k => Sys2Proof.Machine.execPinToggle k s
  | .pinPulse k value => Sys2Proof.Machine.execPinPulse k value s
  | .shiftCfg k mode datah clkh nbits order => Sys2Proof.Machine.execShiftCfg k mode datah clkh nbits order s
  | .shiftIn k => Sys2Proof.Machine.execShiftIn k s
  | .shiftOut k value => Sys2Proof.Machine.execShiftOut k value s
  | .chipCfg k shifter latchh oeh initEn => Sys2Proof.Machine.execChipCfg k shifter latchh oeh initEn s
  | .chipWrite k value => Sys2Proof.Machine.execChipWrite k value s
  | .chipEnable k => Sys2Proof.Machine.execChipEnable k s
  | .chipDisable k => Sys2Proof.Machine.execChipDisable k s

end Sys2Proof.Machine
end

