-- ==== Sys2Proof/Machine/Fetch.lean ====
section
/-!
DEFINITION. The main command port (R83, R100): how a step takes its command. There is no program counter and no fetch from
memory (R21); the command port delivers whole 64-bit words.
-/

namespace Sys2Proof.Machine

open Sys2Proof

/-- The next command of the main context, and the state with it taken from the port. -/
def takeCommand (s : State) : Option (CmdWord × State) :=
  match s.cmds with
  | [] => none
  | w :: rest => some (w, { s with cmds := rest })

/-- A word at the front of the main command port; a reset about to be applied at the next boundary is held off, so that
the very next step takes the word. -/
def presentWord (w : CmdWord) (s : State) : State :=
  { s with
    cmds := w :: s.cmds
    resets := match s.resets with
      | true :: later => false :: later
      | resets => resets }

end Sys2Proof.Machine
end

