-- ==== Sys2Proof/Machine/Step.lean ====
section
/-!
DEFINITION. One step: a boundary of the main context, then its next command from acceptance to response (R74, R75).
-/

namespace Sys2Proof.Machine

open Sys2Proof

/-- One step. At its first boundary the environment and the foreign context may act; a reset applied there ends the step
(R260). Then the next command is accepted: a legal word runs (R113), an illegal one is refused with `ILL` (R112). While
no command stands at the port the block waits (R262). -/
def step (s : State) : Host.Outcome State Fault Refusal :=
  match boundary s with
  | .reset t => .next t
  | .live t =>
      match takeCommand t with
      | none => .next t
      | some (w, u) =>
          match decode w with
          | .ok i => exec i u
          | .error _ => .next (illegal .main u)

/-- The state with an instruction where the next step takes its command: the word whose low `nbits` bits are those of `w`,
every other bit 0, at the front of the main command port. -/
def State.withFetchWord (s : State) (nbits w : Nat) : State := presentWord (BitVec.ofNat 64 (w % 2 ^ nbits)) s

end Sys2Proof.Machine
end

