-- ==== Sys2Proof/Machine/Invariant.lean ====
section
/-!
DEFINITION. What holds of every state the block can be in between two commands, as checks that can be evaluated.
-/

namespace Sys2Proof.Machine

open Sys2Proof

/-- No bit of a register lies above bit `W - 1` (R22). -/
def Triple.fits (w : Width) (t : Triple) : Bool := decide (trunc w t.out = t.out) && decide (trunc w t.dir = t.dir)

/-- A valid Port Handle keeps `start + nbits <= W` (R30) and names a triple. -/
def State.portHandleOk (s : State) (h : PortHandle) : Bool :=
  decide (h.port < s.nports) && decide (1 ≤ h.nbits) && decide (h.start + h.nbits ≤ s.width.bits)

/-- A valid Shifter names valid handles of the right kinds (R191, R192). -/
def State.shifterOk (s : State) (h : Shifter) : Bool :=
  (match h.mode with
    | .shiftIn => s.inputSlot h.data
    | .shiftOut => s.outputSlot h.data) && s.outputSlot h.clk && decide (1 ≤ h.nbits ∧ h.nbits ≤ 32)

/-- A valid Chip Driver names a shift-out unit and two Outputs (R211, R212). -/
def State.chipOk (s : State) (h : ChipDriver) : Bool :=
  s.shiftOutSlot h.sh && s.outputSlot h.latch && s.outputSlot h.oe

/-- A slot is invalid, or what it holds passes a check. -/
def slotOk {α : Type} (ok : α → Bool) : Option α → Bool
  | none => true
  | some h => ok h

/-- Every register fits `W` bits, and every valid slot keeps the contract of the command that bound it
(R22, R30, R32, R191, R211). -/
def State.wf (s : State) : Bool :=
  s.ports.all (Triple.fits s.width) && s.ph.all (slotOk s.portHandleOk) && s.pn.all (slotOk fun h => s.pinOk h.pin)
    && s.sh.all (slotOk s.shifterOk) && s.ch.all (slotOk s.chipOk)

/-- No command is in progress in either context (R37, R39). -/
def State.idle (s : State) : Bool := s.mainSeq.isNone && s.foreignSeq.isNone

end Sys2Proof.Machine
end

