-- ==== Sys2Proof/Safety.lean ====
section
/-!
DEFINITION. The terms claims are stated in: faulted states (R234), schedules of the two other agents (R63, R74, R75,
R260), the block apart from the world around it, and the levels `EXT` will have (R63).
-/

namespace Sys2Proof.Machine

open Sys2Proof

/-- A state with an error flag set (R234): the program that got there contains a contract violation. -/
def State.faulted (s : State) : Bool := s.ill || s.cfgerr || s.operr

/-- The reset input is not applied at any coming boundary. -/
def State.noReset (s : State) : Bool := s.resets.all fun r => !r

/-- The foreign context does not act at any coming boundary: `IE = 0` holds it off, or it has nothing to do (R75). -/
def State.undisturbed (s : State) : Bool := !s.ie || s.foreign.all fun ws => ws.isEmpty

/-- Neither reset nor the foreign context acts during the coming command. The environment may. -/
def State.calm (s : State) : Bool := s.noReset && s.undisturbed

/-- The block apart from the world: every field but the inputs still to come (the foreign schedule, the reset input, the
environment), the count of boundaries, and the devices. The commands the main context has yet to issue stay. -/
def State.apart (s : State) : State := { s with foreign := [], resets := [], ext := [], now := 0, devices := [] }

/-- Time passes at a calm boundary: the environment acts, and the foreign context's turn, if it has one, goes by. -/
def calmBoundary (s : State) : State :=
  if s.ie then { elapse s with foreign := s.foreign.tail } else elapse s

/-- A run of calm boundaries. -/
def calmBoundaries : Nat → State → State
  | 0, s => s
  | n + 1, s => calmBoundaries n (calmBoundary s)

/-- The level of `EXT` at pad `(p, b)` after `n` more boundaries, where no device drives the pad (R63). -/
def State.extLevelAt (s : State) (n : Nat) (pad : Pad) : Bool :=
  (trunc s.width (((((s.ext.drop n).head?).getD [])[pad.port]?).getD (Config.extFree (s.now + n) pad.port))).getLsbD pad.bit

/-- The command in progress has responded with `result` and `ERR = 0` (R84), and nothing of its sequencer is left (R37). -/
def State.doneWith (s : State) (result : Word) : State :=
  { s with mainSeq := none, mainResp := some { result := result, err := false } }

/-- The latest response is `result` with `ERR = 0` (R84). -/
def State.answered (s : State) (result : Word) : Prop := s.mainResp = some { result := result, err := false }

/-- Logical `v` stands on the line of an Output handle (R175): `OUT[p][b] = v ^ inv`, every other bit of `OUT` as it was.
A no-pin handle has no line (R178). -/
def State.driven (s : State) (h : PinHandle) (v : Bool) : State :=
  match h.pin, h.kind with
  | .pin p b, .output _ inv =>
      { s with ports := s.ports.modify p fun t => { t with out := withBit (s.outReg p) b (Bool.xor v inv) } }
  | _, _ => s

/-- A handle's direction bits stand as `enable_as_outputs` or `enable_as_inputs` leaves them (R153, R155). -/
def State.directed (s : State) (h : PortHandle) (outputs : Bool) : State :=
  { s with
    ports := s.ports.modify h.port fun t =>
      { t with dir := if outputs then s.dirReg h.port ||| h.mask s.width else s.dirReg h.port &&& ~~~h.mask s.width } }

/-- A pin's direction bit stands as its construction leaves it (R172, R174). -/
def State.pinDirected (s : State) (pin : PinId) (output : Bool) : State :=
  match pin with
  | .noPin => s
  | .pin p b => { s with ports := s.ports.modify p fun t => { t with dir := withBit (s.dirReg p) b output } }

/-- The causes of a refusal, command by command, as the table of R231 lists them (with `ILL` left to the decoder). -/
def refusalCause (i : Instr) (s : State) : Option Flag :=
  let cfg (broken : Bool) : Option Flag := if broken then some .cfgerr else none
  let op (broken : Bool) : Option Flag := if broken then some .operr else none
  match i with
  | .nop => none
  | .statRd => none
  | .ieSet => none
  | .ieClr => none
  | .regRd port reg => op (decide (s.nports ≤ port) || decide (reg = .noRegister))
  | .regWr port reg _ => op (decide (s.nports ≤ port) || decide (reg = .input) || decide (reg = .noRegister))
  | .portBind k port _ start nbits =>
      cfg (decide (s.ph.length ≤ k) || (s.portSlot k).isSome || decide (s.nports ≤ port) || decide (nbits = 0)
        || decide (s.width.bits < start + nbits))
  | .portEnout k => op (decide (s.ph.length ≤ k) || (s.portSlot k).isNone)
  | .portEnin k => op (decide (s.ph.length ≤ k) || (s.portSlot k).isNone)
  | .portRead k => op (decide (s.ph.length ≤ k) || (s.portSlot k).isNone)
  | .portWrite k _ => op (decide (s.ph.length ≤ k) || (s.portSlot k).all fun h => decide (h.dirn = .reading))
  | .pinBindin k pin _ => cfg (decide (s.pn.length ≤ k) || (s.pinSlot k).isSome || !s.pinOk pin)
  | .pinBindout k pin _ _ _ => cfg (decide (s.pn.length ≤ k) || (s.pinSlot k).isSome || !s.pinOk pin)
  | .pinRead k => op (decide (s.pn.length ≤ k) || (s.pinSlot k).isNone)
  | .pinWrite k _ => op (decide (s.pn.length ≤ k) || (s.pinSlot k).all fun h => !h.isOutput)
  | .pinToggle k => op (decide (s.pn.length ≤ k) || (s.pinSlot k).all fun h => !h.isOutput)
  | .pinPulse k _ => op (decide (s.pn.length ≤ k) || (s.pinSlot k).all fun h => !h.isOutput)
  | .shiftCfg k mode datah clkh nbits _ =>
      cfg (decide (s.sh.length ≤ k) || (s.shiftSlot k).isSome
        || (s.pinSlot datah).all (fun h => h.isOutput != decide (mode = .shiftOut))
        || (s.pinSlot clkh).all (fun h => !h.isOutput) || decide (nbits = 0) || decide (32 < nbits))
  | .shiftIn k => op (decide (s.sh.length ≤ k) || (s.shiftSlot k).all fun h => decide (h.mode = .shiftOut))
  | .shiftOut k _ => op (decide (s.sh.length ≤ k) || (s.shiftSlot k).all fun h => decide (h.mode = .shiftIn))
  | .chipCfg k shifter latchh oeh _ =>
      cfg (decide (s.ch.length ≤ k) || (s.chipSlot k).isSome
        || (s.shiftSlot shifter).all (fun h => decide (h.mode = .shiftIn))
        || (s.pinSlot latchh).all (fun h => !h.isOutput) || (s.pinSlot oeh).all (fun h => !h.isOutput))
  | .chipWrite k _ => op (decide (s.ch.length ≤ k) || (s.chipSlot k).isNone)
  | .chipEnable k => op (decide (s.ch.length ≤ k) || (s.chipSlot k).isNone)
  | .chipDisable k => op (decide (s.ch.length ≤ k) || (s.chipSlot k).isNone)

/-- The commands that put a value they read in RESULT (R84): STAT.RD, REG.RD, PORT.READ, PIN.READ, SHIFT.IN. -/
def reading (i : Instr) : Bool :=
  match i with
  | .statRd => true
  | .regRd _ _ => true
  | .portRead _ => true
  | .pinRead _ => true
  | .shiftIn _ => true
  | _ => false

/-- The micro-operations of a write through a handle, `w(h)` (R203): 0 no-pin, 1 build-time-bound, 4 dynamic. -/
def writeCost (h : PinHandle) : Nat :=
  match h.pin, h.kind with
  | .noPin, _ => 0
  | .pin _ _, .output true _ => 4
  | .pin _ _, _ => 1

/-- The micro-operations of a read through a handle, `r(h)` (R203): 0 no-pin, 1 otherwise. -/
def readCost (h : PinHandle) : Nat :=
  match h.pin with
  | .noPin => 0
  | .pin _ _ => 1

/-- Sample `i` of a SHIFT.IN in progress from state `s` (R195), where no device drives the data pad: false through a no-pin
handle (R201); the driven level, the clock line high, where the pad is an output (R62); else the level of `EXT` at the
boundary before the sample, which is number `i * (2 w(clk) + 1) + w(clk) + 1` of the command (R203). -/
def State.sampleLevel (s : State) (d c : PinHandle) (i : Nat) : Bool :=
  match d.pin with
  | .noPin => false
  | .pin p b =>
      if (s.dirReg p).getLsbD b then ((s.driven c true).outReg p).getLsbD b
      else s.extLevelAt (i * (2 * writeCost c + 1) + writeCost c + 1) { port := p, bit := b }

/-- The bits a shift-out of `nbits` bits of `v` leaves in a chip's first `nbits` stages, bit 0 first (R217): the last bit
sent stands in stage 0. -/
def shiftedBits (order : BitOrder) (nbits : Nat) (v : Word) : List Bool :=
  (List.range nbits).map fun j => v.getLsbD (bitPos order nbits (nbits - 1 - j))

/-- A plain Output handle on pad `pad` (R217: not inverted, either flavour). -/
def PinHandle.plainOn (h : PinHandle) (pad : Pad) : Prop :=
  h.pin = .pin pad.port pad.bit ∧ (h.kind = .output false false ∨ h.kind = .output true false)

/-- The actions a command performs where its checks pass. -/
def actsOf : Verdict → List Act
  | .run p => p.acts
  | .refuse _ => []

/-- A command's actions performed by the main context one after the other, with no boundary between them. -/
def performed : List Act → State → State
  | [], s => s
  | .uop u :: acts, s => performed acts (doUop .main u s)
  | .int n :: acts, s => performed acts (doInternal .main n s)

/-- The number of micro-operations of a command in a state (R276). -/
def uopsOf (i : Instr) (s : State) : Nat := uopCount (actsOf (planOf i s))

/-- The cost of a command for a claim that wants one (R275, D31): a weight for each micro-operation. -/
def costOf (i : Instr) (s : State) : Nat := Config.uopCost * uopsOf i s

end Sys2Proof.Machine
end

