-- ==== Sys2Proof/WellFormed.lean ====
section
/-!
DEFINITION. Which terms of `Instr` stand for a command word: every operand fits its field (R101 to R111).
Whether a slot or a port exists is no matter of form: it is a check of the command (R115).
-/

namespace Sys2Proof

/-- An 8-bit field: UNIT, PORT, DATAH, CLKH, SHIFTER, LATCHH, OEH (R101, R106, R109 to R111). -/
def fits8 (n : Nat) : Bool := decide (n < 256)

/-- A 6-bit field: START, NBITS (R109, R111). -/
def fits6 (n : Nat) : Bool := decide (n < 64)

/-- A pin identifier (R108): both halves fit a byte, and `(255, 255)` is spelt `noPin`. -/
def PinId.wf : PinId → Bool
  | .noPin => true
  | .pin port bit => fits8 port && fits8 bit && !(decide (port = 255) && decide (bit = 255))

/-- Every operand fits the field that carries it. -/
def Instr.wf : Instr → Bool
  | .nop => true
  | .statRd => true
  | .ieSet => true
  | .ieClr => true
  | .regRd port _ => fits8 port
  | .regWr port _ _ => fits8 port
  | .portBind k port _ start nbits => fits8 k && fits8 port && fits6 start && fits6 nbits
  | .portEnout k => fits8 k
  | .portEnin k => fits8 k
  | .portRead k => fits8 k
  | .portWrite k _ => fits8 k
  | .pinBindin k pin _ => fits8 k && pin.wf
  | .pinBindout k pin _ _ _ => fits8 k && pin.wf
  | .pinRead k => fits8 k
  | .pinWrite k _ => fits8 k
  | .pinToggle k => fits8 k
  | .pinPulse k _ => fits8 k
  | .shiftCfg k _ datah clkh nbits _ => fits8 k && fits8 datah && fits8 clkh && fits6 nbits
  | .shiftIn k => fits8 k
  | .shiftOut k _ => fits8 k
  | .chipCfg k shifter latchh oeh _ => fits8 k && fits8 shifter && fits8 latchh && fits8 oeh
  | .chipWrite k _ => fits8 k
  | .chipEnable k => fits8 k
  | .chipDisable k => fits8 k

end Sys2Proof
end

