-- ==== Sys2Proof/Certificates/Slice0/Obligations.lean ====
section
/-!
DEFINITION. The statements for the provers. Each docstring names the rule of the spec it formalises.
-/

open Sys2Proof Sys2Proof.Machine

/-! ### Encoding (R100 to R113) -/

/-- R113: "A word decodes to the row with `word & mask = match`; the masks make the rows disjoint". -/
def Obligations.WordDecodesToItsRow : Prop :=
  (∀ (w : CmdWord) (r : OpcodeRow), r ∈ opcodeMap →
    (w &&& r.mask = r.value ↔ ∃ i, decode w = .ok i ∧ mnemonicOf i = r.mnemonic)) ∧
  opcodeMap.Pairwise fun a b => ∀ w : CmdWord, ¬ (w &&& a.mask = a.value ∧ w &&& b.mask = b.value)

/-- R101 to R111: no bit of an encoding is dropped. -/
def Obligations.DecodeOfEncode : Prop :=
  ∀ i : Instr, i.wf = true → decode (encode i) = .ok i

/-- R101 to R112: a word has one meaning, and the encoder gives that word back. -/
def Obligations.EncodeOfDecode : Prop :=
  ∀ (w : CmdWord) (i : Instr), decode w = .ok i → i.wf = true ∧ encode i = w

/-- R119: worked encodings of every family, and two illegal words. -/
def Obligations.WorkedEncodings : Prop :=
  decode 0x05000101000000A5 = .ok (.regWr 1 .output 0xA5) ∧
  decode 0x1000010100000302 = .ok (.portBind 0 1 .writing 2 3) ∧
  decode 0x1400000000000005 = .ok (.portWrite 0 5) ∧
  decode 0x2104020700000007 = .ok (.pinBindout 4 (.pin 2 7) true true true) ∧
  decode 0x2105FFFF00000000 = .ok (.pinBindout 5 .noPin false false false) ∧
  decode 0x2001030000000001 = .ok (.pinBindin 1 (.pin 3 0) true) ∧
  decode 0x3000010000000308 = .ok (.shiftCfg 0 .shiftOut 0 1 8 .msbFirst) ∧
  decode 0x4000020000000103 = .ok (.chipCfg 0 0 2 3 true) ∧
  decode 0x41000000000000B2 = .ok (.chipWrite 0 0xB2) ∧
  (∃ e, decode 0x1400000100000005 = .error e) ∧ (∃ e, decode 0x0600000000000000 = .error e)

/-! ### The step and reset (R39, R74, R112, R260, R262) -/

/-- R74: after its boundary (log entry 4), a step runs the command the next word stands for. -/
def Obligations.StepRunsDecodedCommand : Prop :=
  ∀ (s t : State) (w : CmdWord) (rest : List CmdWord) (i : Instr), boundary s = .live t → t.cmds = w :: rest →
    decode w = .ok i → step s = exec i { t with cmds := rest }

/-- R112: a word is illegal exactly when `word & mask != match` for every row; then it sets ILL, answers ERR = 1 and
RESULT = 0, and has no other effect. Every word is one of the 24 commands or illegal. -/
def Obligations.IllegalWordOnlySetsIll : Prop :=
  (∀ w : CmdWord, (∃ e, decode w = .error e) ↔ ∀ r ∈ opcodeMap, w &&& r.mask ≠ r.value) ∧
  ∀ (s t : State) (w : CmdWord) (rest : List CmdWord), boundary s = .live t → t.cmds = w :: rest →
    (∀ r ∈ opcodeMap, w &&& r.mask ≠ r.value) →
    step s = .next { t with cmds := rest, ill := true, mainResp := some { result := 0, err := true } }

/-- R262: with no command at the port the block waits; a step of the model then passes a boundary only (log entry 12). -/
def Obligations.WaitsForItsFirstCommand : Prop :=
  ∀ s : State, s.calm = true → s.cmds = [] → step s = .next (calmBoundary s)

/-- R39: what reset leaves, for every value of the parameters: `OUT` and `DIR` 0, `IN` reading `EXT`, `IE` and the flags 0,
every slot invalid, no command in progress. -/
def Obligations.ResetValues : Prop :=
  ∀ (q : Params) (p k : Nat),
    let s := State.init q
    s.outReg p = 0 ∧ s.dirReg p = 0 ∧ s.ie = false ∧ s.ill = false ∧ s.cfgerr = false ∧ s.operr = false ∧
      s.portSlot k = none ∧ s.pinSlot k = none ∧ s.shiftSlot k = none ∧ s.chipSlot k = none ∧
      s.mainSeq = none ∧ s.foreignSeq = none ∧ s.regRead p .input = s.extWord p

/-- R260: where reset is applied, every piece of state takes its reset value, whatever the block was doing. -/
def Obligations.ResetInputResetsTheBlock : Prop :=
  ∀ s : State, resetDue s = true →
    ∃ t, step s = .next t ∧
      t.apart =
        { State.init
            { width := s.width, nports := s.ports.length, nph := s.ph.length, npn := s.pn.length, nsh := s.sh.length
              nch := s.ch.length } with cmds := s.cmds }

/-- R74, R260: a command either responds, with no sequencer state left, or is abandoned by a reset without a response. That it
responds before the boundary after its last micro-operation is the model's choice (log entry 25). -/
def Obligations.CommandRespondsOrIsReset : Prop :=
  ∀ (i : Instr) (s : State), s.mainSeq = none →
    ∃ t, exec i s = .next t ∧ t.mainSeq = none ∧
      (t.mainResp.isSome = true ∨
        (s.noReset = false ∧
          t.apart =
            { State.init
                { width := s.width, nports := s.ports.length, nph := s.ph.length, npn := s.pn.length, nsh := s.sh.length
                  nch := s.ch.length } with cmds := s.cmds }))

/-! ### System commands (R130 to R136) -/

/-- R130: NOP does nothing but respond, in every state; the all-zero word is NOP. -/
def Obligations.NopDoesNothing : Prop :=
  decode 0 = .ok .nop ∧ ∀ s : State, exec .nop s = .next (s.doneWith 0)

/-- R131: STAT.RD answers STATUS and changes nothing, in every state. -/
def Obligations.StatRdAnswersStatus : Prop :=
  ∀ s : State, exec .statRd s = .next (s.doneWith s.status)

/-- R27: the layout of STATUS. -/
def Obligations.StatusLayout : Prop :=
  ∀ (s : State) (b : Nat),
    s.status.getLsbD b =
      if b = 0 then s.ie else if b = 8 then s.ill else if b = 9 then s.cfgerr else if b = 10 then s.operr else false

/-- R132, R133: IE.SET sets IE, IE.CLR clears it, and neither does anything else. -/
def Obligations.IeCommandsWriteIe : Prop :=
  ∀ s : State, s.calm = true →
    (∃ t, exec .ieSet s = .next t ∧ t.apart = ({ s.apart with ie := true }).doneWith 0) ∧
    (∃ t, exec .ieClr s = .next t ∧ t.apart = ({ s.apart with ie := false }).doneWith 0)

/-- R135: REG.RD answers the register, for `IN` the pad levels of that moment, and changes nothing. -/
def Obligations.RegRdAnswersTheRegister : Prop :=
  ∀ (s : State) (port : Nat) (reg : RegSel) (r : Reg), s.calm = true → s.idle = true → port < s.nports →
    regOf reg = some r →
    ∃ t, exec (.regRd port reg) s = .next t ∧
      t.apart =
        s.apart.doneWith
          (match r with
            | .input => (calmBoundary s).padWord port
            | .output => s.outReg port
            | .direction => s.dirReg port)

/-- R136: REG.WR replaces all bits of the register, the value truncated to `W` bits, and nothing else. -/
def Obligations.RegWrReplacesTheRegister : Prop :=
  ∀ (s : State) (port : Nat) (value : Word), s.calm = true → port < s.nports →
    (∃ t, exec (.regWr port .output value) s = .next t ∧
      t.apart =
        ({ s.apart with ports := s.ports.modify port fun x => { x with out := value &&& ones s.width.bits } }).doneWith 0) ∧
    (∃ t, exec (.regWr port .direction value) s = .next t ∧
      t.apart =
        ({ s.apart with ports := s.ports.modify port fun x => { x with dir := value &&& ones s.width.bits } }).doneWith 0)

/-! ### Port Handle commands (R150 to R165) -/

/-- R151: PORT.BIND binds the handle and sets its direction; `OUT` is not touched. -/
def Obligations.PortBindBindsAndDirects : Prop :=
  ∀ (s : State) (k port : Nat) (dirn : Dirn) (start nbits : Nat), s.calm = true → k < s.ph.length →
    s.portSlot k = none → port < s.nports → 1 ≤ nbits → start + nbits ≤ s.width.bits →
    let h : PortHandle := { port := port, dirn := dirn, start := start, nbits := nbits }
    ∃ t, exec (.portBind k port dirn start nbits) s = .next t ∧
      t.apart = (({ s.apart with ph := s.ph.set k (some h) }).directed h (decide (dirn = Dirn.writing))).doneWith 0

/-- R153 to R156: PORT.ENOUT sets and PORT.ENIN clears the direction bits of the mask, full-width or not, and neither does
anything else. -/
def Obligations.PortDirectionFollowsTheMask : Prop :=
  ∀ (s : State) (k : Nat) (h : PortHandle), s.calm = true → s.portSlot k = some h → s.portHandleOk h = true →
    (∃ t, exec (.portEnout k) s = .next t ∧ t.apart = (s.apart.directed h true).doneWith 0) ∧
    (∃ t, exec (.portEnin k) s = .next t ∧ t.apart = (s.apart.directed h false).doneWith 0)

/-- R158: PORT.READ answers the masked bits shifted down, of `OUT` or of the pads, and changes nothing. -/
def Obligations.PortReadAnswersTheField : Prop :=
  ∀ (s : State) (k : Nat) (h : PortHandle), s.calm = true → s.idle = true → s.portSlot k = some h →
    ∃ t, exec (.portRead k) s = .next t ∧
      t.apart =
        s.apart.doneWith
          (((match h.dirn with
              | .writing => s.outReg h.port
              | .reading => (calmBoundary s).padWord h.port) &&& h.mask s.width) >>> h.start)

/-- R160, R161, R163: PORT.WRITE puts the value's bits inside the mask and leaves the bits outside it, full-width or not. -/
def Obligations.PortWriteMergesTheValue : Prop :=
  ∀ (s : State) (k : Nat) (value : Word) (h : PortHandle), s.calm = true → s.portSlot k = some h →
    s.portHandleOk h = true → h.dirn = .writing →
    ∃ t, exec (.portWrite k value) s = .next t ∧
      t.apart =
        ({ s.apart with
            ports := s.ports.modify h.port fun x =>
              { x with
                out := (s.outReg h.port &&& ~~~h.mask s.width)
                  ||| (trunc s.width (value <<< h.start) &&& h.mask s.width) } }).doneWith 0

/-- R31: the Bit Mask of a handle has exactly `nbits` contiguous set bits starting at `start`; `full` is `nbits = W`, and
implies `start = 0` and the mask `ones(W)`. -/
def Obligations.MaskOfAHandle : Prop :=
  ∀ (s : State) (h : PortHandle), s.portHandleOk h = true →
    (∀ i, (h.mask s.width).getLsbD i = decide (h.start ≤ i ∧ i < h.start + h.nbits)) ∧
    (h.full s.width = true ↔ h.nbits = s.width.bits) ∧
    (h.full s.width = true → h.start = 0 ∧ h.mask s.width = ones s.width.bits)

/-- R161: the two-step merge, bit by bit and as one formula. -/
def Obligations.MergeBitByBit : Prop :=
  ∀ (w : Width) (start : Nat) (mask v raw : Word), trunc w v = v → trunc w mask = mask →
    (∀ i, (merge w start mask v raw).getLsbD i =
      if mask.getLsbD i then decide (start ≤ i) && raw.getLsbD (i - start) else v.getLsbD i) ∧
    merge w start mask v raw = (v &&& ~~~mask) ||| (trunc w (raw <<< start) &&& mask)

/-- R31, R163: for a full-width handle the merge is the value truncated, whatever the register held. -/
def Obligations.FullWidthMergeIsTheValue : Prop :=
  ∀ (s : State) (h : PortHandle) (v raw : Word), s.portHandleOk h = true → h.full s.width = true →
    trunc s.width v = v → merge s.width h.start (h.mask s.width) v raw = trunc s.width raw

/-- R157, R161, R162: what PORT.WRITE wrote through a handle, PORT.READ reads back, cut to the handle's width. -/
def Obligations.PortReadGivesWhatWasWritten : Prop :=
  ∀ (s t : State) (k : Nat) (value : Word) (h : PortHandle), s.calm = true → s.portSlot k = some h →
    s.portHandleOk h = true → h.dirn = .writing → exec (.portWrite k value) s = .next t →
    ∃ u, exec (.portRead k) t = .next u ∧ u.answered (value &&& ones h.nbits)

/-- R73, R79, R82: whatever the foreign context does, PORT.WRITE merges into what it left at the one boundary where it may
act, the one before the command's first micro-operation (log entry 4): no foreign write is lost. -/
def Obligations.PortWriteLosesNoForeignWrite : Prop :=
  ∀ (s u : State) (k : Nat) (value : Word) (h : PortHandle), s.noReset = true → s.portSlot k = some h →
    s.portHandleOk h = true → h.dirn = .writing → boundary (accept .main (.portWrite k value) .nothing s) = .live u →
    ∃ t, exec (.portWrite k value) s = .next t ∧
      t.apart =
        ({ u.apart with
            ports := u.ports.modify h.port fun x =>
              { x with
                out := (u.outReg h.port &&& ~~~h.mask s.width)
                  ||| (trunc s.width (value <<< h.start) &&& h.mask s.width) } }).doneWith 0

/-! ### Pin Handle commands (R170 to R182) -/

/-- R172: PIN.BINDIN binds the handle and makes the pin an input; `OUT` is not touched, the pull-up has no effect. -/
def Obligations.PinBindinMakesAnInput : Prop :=
  ∀ (s : State) (k : Nat) (pin : PinId) (pullup : Bool), s.calm = true → k < s.pn.length → s.pinSlot k = none →
    s.pinOk pin = true →
    ∃ t, exec (.pinBindin k pin pullup) s = .next t ∧
      t.apart =
        (({ s.apart with pn := s.pn.set k (some { kind := .input pullup, pin := pin }) }).pinDirected pin false).doneWith 0

/-- R174: PIN.BINDOUT binds the handle, puts the initial value on its line and makes the pin an output. -/
def Obligations.PinBindoutDrivesTheInitialValue : Prop :=
  ∀ (s : State) (k : Nat) (pin : PinId) (init dyn inv : Bool), s.calm = true → k < s.pn.length → s.pinSlot k = none →
    s.pinOk pin = true →
    let h : PinHandle := { kind := .output dyn inv, pin := pin }
    ∃ t, exec (.pinBindout k pin init dyn inv) s = .next t ∧
      t.apart =
        ((({ s.apart with pn := s.pn.set k (some h) }).driven h init).pinDirected pin true).doneWith 0

/-- R173, R174: PIN.BINDOUT first writes the initial value through the new handle, which leaves `OUT[p][b] = INIT ^ INV`
and changes no other bit of `OUT` and none of `DIR`, and then writes the direction bit, its last action; so the pad is at the
initial level when the block begins to drive it. No micro-operation before the last writes `DIR`, in any state, so that holds
whatever the foreign context does between. -/
def Obligations.InitialValueBeforeDirection : Prop :=
  ∀ (s : State) (k p b : Nat) (init dyn inv : Bool), refusalCause (.pinBindout k (.pin p b) init dyn inv) s = none →
    ∃ before, actsOf (planOf (.pinBindout k (.pin p b) init dyn inv) s)
        = before ++ [.uop (.bitWrite p .direction b (.const true) false)] ∧
      before = writeThrough { kind := .output dyn inv, pin := .pin p b } (.const init) ∧
      (∀ u, .uop u ∈ before → ∀ (a : State) (q : Nat), (applyUop .main u a).dirReg q = a.dirReg q) ∧
      ∀ a : State, a.width = s.width → a.nports = s.nports →
        (∀ q, (performed before a).dirReg q = a.dirReg q) ∧
        (∀ q i, ((performed before a).outReg q).getLsbD i =
          if q = p ∧ i = b then Bool.xor init inv else (a.outReg q).getLsbD i) ∧
        (performed (before ++ [.uop (.bitWrite p .direction b (.const true) false)]) a).padOe { port := p, bit := b } = true ∧
        (performed (before ++ [.uop (.bitWrite p .direction b (.const true) false)]) a).padLevel { port := p, bit := b } =
          Bool.xor init inv

/-- R177, R178: PIN.READ answers an Input's pad level, an Output's logical value, false through a no-pin handle. -/
def Obligations.PinReadAnswersTheLevel : Prop :=
  ∀ (s : State) (k : Nat) (h : PinHandle), s.calm = true → s.idle = true → s.pinSlot k = some h →
    ∃ t, exec (.pinRead k) s = .next t ∧
      t.apart =
        s.apart.doneWith
          (if (match h.pin, h.kind with
              | .noPin, _ => false
              | .pin p b, .input _ => (calmBoundary s).padLevel { port := p, bit := b }
              | .pin p b, .output _ inv => Bool.xor ((s.outReg p).getLsbD b) inv) then 1 else 0)

/-- R175, R176: PIN.WRITE puts the value on the handle's line and changes nothing else, in every flavour. -/
def Obligations.PinWriteDrivesTheLine : Prop :=
  ∀ (s : State) (k : Nat) (value : Bool) (h : PinHandle), s.calm = true → s.pinSlot k = some h →
    h.isOutput = true → s.pinOk h.pin = true →
    ∃ t, exec (.pinWrite k value) s = .next t ∧ t.apart = (s.apart.driven h value).doneWith 0

/-- R179: PIN.TOGGLE puts the complement of the logical value on the line and changes nothing else. -/
def Obligations.PinToggleComplementsTheLine : Prop :=
  ∀ (s : State) (k p b : Nat) (dyn inv : Bool), s.calm = true →
    s.pinSlot k = some { kind := .output dyn inv, pin := .pin p b } → s.pinOk (.pin p b) = true →
    ∃ t, exec (.pinToggle k) s = .next t ∧
      t.apart =
        (s.apart.driven { kind := .output dyn inv, pin := .pin p b }
          (!(Bool.xor ((s.outReg p).getLsbD b) inv))).doneWith 0

/-- R178, R180: PIN.PULSE first writes the value and then its complement, two whole writes through the handle with no
action between, the line standing at the value after the first; it leaves the complement on the line; through a no-pin handle
it and PIN.TOGGLE do nothing. -/
def Obligations.PinPulseLeavesTheComplement : Prop :=
  ∀ (s : State) (k : Nat) (value : Bool) (h : PinHandle), s.pinSlot k = some h → h.isOutput = true →
    s.pinOk h.pin = true →
    (∃ first second, actsOf (planOf (.pinPulse k value) s) = first ++ second ∧
      first = writeThrough h (.const value) ∧ second = writeThrough h (.const (!value)) ∧
      ∀ a : State, a.width = s.width → a.nports = s.nports →
        (performed first a).apart = { a.apart.driven h value with mainSeq := (performed first a).mainSeq } ∧
        (performed (first ++ second) a).apart =
          { a.apart.driven h (!value) with mainSeq := (performed (first ++ second) a).mainSeq }) ∧
    (s.calm = true → ∃ t, exec (.pinPulse k value) s = .next t ∧ t.apart = (s.apart.driven h (!value)).doneWith 0) ∧
    (h.pin = .noPin → exec (.pinPulse k value) s = .next (s.doneWith 0) ∧ exec (.pinToggle k) s = .next (s.doneWith 0))

/-- R66, R79, R175: whatever the foreign context does, PIN.WRITE changes one bit of what it left at the boundary before the
command's first micro-operation (log entry 4). -/
def Obligations.PinWriteLosesNoForeignWrite : Prop :=
  ∀ (s u : State) (k p b : Nat) (value dyn inv : Bool), s.noReset = true →
    s.pinSlot k = some { kind := .output dyn inv, pin := .pin p b } → s.pinOk (.pin p b) = true →
    boundary (accept .main (.pinWrite k value) .nothing s) = .live u →
    ∃ t, exec (.pinWrite k value) s = .next t ∧
      t.apart = (u.apart.driven { kind := .output dyn inv, pin := .pin p b } value).doneWith 0

/-! ### Shifter commands (R190 to R203) -/

/-- R191: SHIFT.CFG writes the slot and touches nothing else, whatever the schedule. -/
def Obligations.ShiftCfgBindsTheSlot : Prop :=
  ∀ (s : State) (k : Nat) (mode : ShiftMode) (datah clkh nbits : Nat) (order : BitOrder) (d c : PinHandle),
    k < s.sh.length → s.shiftSlot k = none → s.pinSlot datah = some d → d.isOutput = decide (mode = .shiftOut) →
    s.pinSlot clkh = some c → c.isOutput = true → 1 ≤ nbits → nbits ≤ 32 →
    exec (.shiftCfg k mode datah clkh nbits order) s =
      .next
        (({ s with
            sh := s.sh.set k
              (some { mode := mode, data := datah, clk := clkh, nbits := nbits, order := order }) }).doneWith 0)

/-- R193: the mask starts at `1` or at `1 << (nbits-1)`, moves left truncated to the accumulator's width or right, and in
iteration `i` is `1 << pos(i)`. -/
def Obligations.MaskVisitsItsPositions : Prop :=
  ∀ n i : Nat, n ≤ 32 → i < n →
    (initialMask .lsbFirst n = 1 ∧ initialMask .msbFirst n = 1#32 <<< (n - 1)) ∧
    (∀ m, nextMask .lsbFirst n m = (m <<< 1) &&& ones (accWidth n) ∧ nextMask .msbFirst n m = m >>> 1) ∧
    (nextMask .lsbFirst n)^[i] (initialMask .lsbFirst n) = 1#32 <<< i ∧
    (nextMask .msbFirst n)^[i] (initialMask .msbFirst n) = 1#32 <<< (n - 1 - i) ∧
    bitPos .lsbFirst n i = i ∧ bitPos .msbFirst n i = n - 1 - i

/-- R195, R196, R201: SHIFT.IN answers its samples, sample `i` in bit `pos(i)`, leaves the clock line low and changes
nothing else. A sample of a pad the block does not drive is `EXT` at that moment (log entries 4, 5). -/
def Obligations.ShiftInGathersItsSamples : Prop :=
  ∀ (s : State) (k : Nat) (h : Shifter) (d c : PinHandle), s.wf = true → s.calm = true → s.devices = [] →
    s.shiftSlot k = some h → h.mode = .shiftIn → s.pinSlot h.data = some d → s.pinSlot h.clk = some c →
    ∃ t r, exec (.shiftIn k) s = .next t ∧ t.apart = (s.apart.driven c false).doneWith r ∧
      (∀ i, i < h.nbits → r.getLsbD (bitPos h.order h.nbits i) = s.sampleLevel d c i) ∧ r &&& ones h.nbits = r

/-- R197, R201: SHIFT.OUT leaves the last bit sent on the data line and the clock line low, and changes nothing else. -/
def Obligations.ShiftOutLeavesItsLines : Prop :=
  ∀ (s : State) (k : Nat) (value : Word) (h : Shifter) (d c : PinHandle), s.wf = true → s.calm = true →
    s.shiftSlot k = some h → h.mode = .shiftOut → s.pinSlot h.data = some d → s.pinSlot h.clk = some c →
    ∃ t, exec (.shiftOut k value) s = .next t ∧
      t.apart =
        ((s.apart.driven d (value.getLsbD (bitPos h.order h.nbits (h.nbits - 1)))).driven c false).doneWith 0

/-- R90, R202: in the echo environment SHIFT.OUT then SHIFT.IN gives the value cut to `nbits` bits, or its bit-reversal
within `nbits` bits where the two orders differ. Which SHIFT.OUT precedes is the model's reading (log entry 15). -/
def Obligations.EchoRoundTrip : Prop :=
  ∀ (s t : State) (ko ki : Nat) (value : Word) (ho hi : Shifter) (d c di ci : PinHandle) (e : Echo),
    s.wf = true → s.calm = true → s.idle = true → s.devices = [.echo e] →
    s.shiftSlot ko = some ho → ho.mode = .shiftOut → s.pinSlot ho.data = some d → s.pinSlot ho.clk = some c →
    s.shiftSlot ki = some hi → hi.mode = .shiftIn → s.pinSlot hi.data = some di → s.pinSlot hi.clk = some ci →
    ho.nbits = hi.nbits → d.plainOn e.dout → c.plainOn e.clk → e.dout ≠ e.clk → di.pin = .pin e.din.port e.din.bit →
    s.padOe e.dout = true → s.padOe e.clk = true → s.padOe e.din = false → s.padOut e.clk = false → e.lastClk = false →
    exec (.shiftOut ko value) s = .next t →
    ∃ u r, exec (.shiftIn ki) t = .next u ∧ u.answered r ∧ r &&& ones hi.nbits = r ∧
      (ho.order = hi.order → r = value &&& ones hi.nbits) ∧
      (ho.order ≠ hi.order → ∀ j, j < hi.nbits → r.getLsbD (hi.nbits - 1 - j) = value.getLsbD j)

/-- R203, R276: the micro-operations of each command that is not refused. -/
def Obligations.MicroOperationCounts : Prop :=
  ∀ s : State, s.wf = true →
    uopsOf .nop s = 0 ∧ uopsOf .statRd s = 0 ∧ uopsOf .ieSet s = 1 ∧ uopsOf .ieClr s = 1 ∧
    (∀ port reg, refusalCause (.regRd port reg) s = none → uopsOf (.regRd port reg) s = 1) ∧
    (∀ port reg v, refusalCause (.regWr port reg v) s = none → uopsOf (.regWr port reg v) s = 1) ∧
    (∀ k port dirn start nbits, refusalCause (.portBind k port dirn start nbits) s = none →
      uopsOf (.portBind k port dirn start nbits) s = if nbits = s.width.bits then 1 else 4) ∧
    (∀ k h, s.portSlot k = some h →
      uopsOf (.portEnout k) s = (if h.nbits = s.width.bits then 1 else 4) ∧
      uopsOf (.portEnin k) s = (if h.nbits = s.width.bits then 1 else 4) ∧ uopsOf (.portRead k) s = 1 ∧
      ∀ v, h.dirn = .writing → uopsOf (.portWrite k v) s = if h.nbits = s.width.bits then 1 else 4) ∧
    (∀ k pin pullup, refusalCause (.pinBindin k pin pullup) s = none →
      uopsOf (.pinBindin k pin pullup) s = if pin = .noPin then 0 else 1) ∧
    (∀ k pin init dyn inv, refusalCause (.pinBindout k pin init dyn inv) s = none →
      uopsOf (.pinBindout k pin init dyn inv) s = if pin = .noPin then 0 else if dyn then 5 else 2) ∧
    (∀ k h, s.pinSlot k = some h → uopsOf (.pinRead k) s = readCost h ∧
      (h.isOutput = true → ∀ v, uopsOf (.pinWrite k v) s = writeCost h ∧
        uopsOf (.pinToggle k) s = (if h.pin = .noPin then 0 else 1 + writeCost h) ∧
        uopsOf (.pinPulse k v) s = 2 * writeCost h)) ∧
    (∀ k mode datah clkh nbits order, uopsOf (.shiftCfg k mode datah clkh nbits order) s = 0) ∧
    (∀ k h d c, s.shiftSlot k = some h → s.pinSlot h.data = some d → s.pinSlot h.clk = some c →
      (h.mode = .shiftIn → uopsOf (.shiftIn k) s = h.nbits * (2 * writeCost c + readCost d)) ∧
      (h.mode = .shiftOut → ∀ v, uopsOf (.shiftOut k v) s = h.nbits * (writeCost d + 2 * writeCost c))) ∧
    (∀ k shifter latchh oeh initEn oe, refusalCause (.chipCfg k shifter latchh oeh initEn) s = none →
      s.pinSlot oeh = some oe → uopsOf (.chipCfg k shifter latchh oeh initEn) s = writeCost oe) ∧
    (∀ k g h d c l oe, s.chipSlot k = some g → s.shiftSlot g.sh = some h → s.pinSlot h.data = some d →
      s.pinSlot h.clk = some c → s.pinSlot g.latch = some l → s.pinSlot g.oe = some oe →
      (∀ v, uopsOf (.chipWrite k v) s = h.nbits * (writeCost d + 2 * writeCost c) + 2 * writeCost l) ∧
      uopsOf (.chipEnable k) s = writeCost oe ∧ uopsOf (.chipDisable k) s = writeCost oe)

/-! ### Chip Driver commands (R210 to R218) -/

/-- R211: CHIP.CFG binds the driver and writes the initial enable state; the latch line is not touched. -/
def Obligations.ChipCfgAppliesTheEnableState : Prop :=
  ∀ (s : State) (k shifter latchh oeh : Nat) (initEn : Bool) (sh : Shifter) (l oe : PinHandle), s.wf = true →
    s.calm = true → k < s.ch.length → s.chipSlot k = none → s.shiftSlot shifter = some sh → sh.mode = .shiftOut →
    s.pinSlot latchh = some l → l.isOutput = true → s.pinSlot oeh = some oe → oe.isOutput = true →
    ∃ t, exec (.chipCfg k shifter latchh oeh initEn) s = .next t ∧
      t.apart =
        (({ s.apart with ch := s.ch.set k (some { sh := shifter, latch := latchh, oe := oeh }) }).driven oe initEn).doneWith 0

/-- R213: CHIP.WRITE leaves the lines as SHIFT.OUT does, and the latch line low after its pulse; the output-enable line and
everything else stay. -/
def Obligations.ChipWriteLeavesItsLines : Prop :=
  ∀ (s : State) (k : Nat) (value : Word) (g : ChipDriver) (h : Shifter) (d c l : PinHandle), s.wf = true →
    s.calm = true → s.chipSlot k = some g → s.shiftSlot g.sh = some h → s.pinSlot h.data = some d →
    s.pinSlot h.clk = some c → s.pinSlot g.latch = some l →
    ∃ t, exec (.chipWrite k value) s = .next t ∧
      t.apart =
        (((s.apart.driven d (value.getLsbD (bitPos h.order h.nbits (h.nbits - 1)))).driven c false).driven l
          false).doneWith 0

/-- R213, R216, R217: after CHIP.WRITE an attached chip holds the bits sent in its shift register and, latched, in its
storage register. -/
def Obligations.ChipHoldsTheValue : Prop :=
  ∀ (s : State) (k j : Nat) (value : Word) (g : ChipDriver) (h : Shifter) (d c l : PinHandle) (x : Chip), s.wf = true →
    s.calm = true → s.chipSlot k = some g → s.shiftSlot g.sh = some h → s.pinSlot h.data = some d →
    s.pinSlot h.clk = some c → s.pinSlot g.latch = some l → s.devices[j]? = some (.chip x) →
    d.plainOn x.ser → c.plainOn x.srclk → l.plainOn x.rclk → x.ser ≠ x.srclk → x.ser ≠ x.rclk → x.srclk ≠ x.rclk →
    s.padOe x.ser = true → s.padOe x.srclk = true → s.padOe x.rclk = true → s.padOut x.srclk = false →
    s.padOut x.rclk = false → x.lastSrclk = false → x.lastRclk = false →
    ∃ t y, exec (.chipWrite k value) s = .next t ∧ t.devices[j]? = some (.chip y) ∧
      y.sr = (shiftedBits h.order h.nbits value ++ x.sr).take x.stages ∧ y.st = y.sr

/-- R214, R215: CHIP.ENABLE and CHIP.DISABLE put logical true and false on the output-enable line and change nothing
else. -/
def Obligations.ChipEnableDrivesItsLine : Prop :=
  ∀ (s : State) (k : Nat) (g : ChipDriver) (oe : PinHandle), s.wf = true → s.calm = true → s.chipSlot k = some g →
    s.pinSlot g.oe = some oe →
    (∃ t, exec (.chipEnable k) s = .next t ∧ t.apart = (s.apart.driven oe true).doneWith 0) ∧
      (∃ t, exec (.chipDisable k) s = .next t ∧ t.apart = (s.apart.driven oe false).doneWith 0)

/-- R178, R201, R218: a driver all of whose lines are no-pin does nothing but respond, whatever the schedule. -/
def Obligations.NoPinChipDoesNothing : Prop :=
  ∀ (s : State) (k : Nat) (g : ChipDriver) (h : Shifter) (d c l oe : PinHandle), s.wf = true →
    s.chipSlot k = some g → s.shiftSlot g.sh = some h → s.pinSlot h.data = some d → s.pinSlot h.clk = some c →
    s.pinSlot g.latch = some l → s.pinSlot g.oe = some oe →
    d.pin = .noPin → c.pin = .noPin → l.pin = .noPin → oe.pin = .noPin →
    (∀ value, exec (.chipWrite k value) s = .next (s.doneWith 0)) ∧
      exec (.chipEnable k) s = .next (s.doneWith 0) ∧ exec (.chipDisable k) s = .next (s.doneWith 0)

/-! ### Refusals and flags (R230 to R236) -/

/-- R231, R232: a command is refused exactly for the causes of R231's table, and a refusal sets the flag, answers ERR = 1
and RESULT = 0 and changes nothing else; a command that meets no cause runs and answers ERR = 0, with RESULT = 0 but for
the commands that read (R84). -/
def Obligations.RefusedExactlyForTheListedCauses : Prop :=
  ∀ (i : Instr) (s : State), s.wf = true →
    (∀ f, refusalCause i s = some f →
      exec i s = .next { s.setFlag f with mainResp := some { result := 0, err := true } }) ∧
    (refusalCause i s = none → s.noReset = true →
      ∃ t r, exec i s = .next t ∧ t.answered r ∧ (reading i = false → r = 0))

/-- R29, R234: a flag once set stays set; only reset clears it. -/
def Obligations.FlagsAreSticky : Prop :=
  ∀ s : State, s.noReset = true →
    ∃ t, step s = .next t ∧ (s.ill = true → t.ill = true) ∧ (s.cfgerr = true → t.cfgerr = true) ∧
      (s.operr = true → t.operr = true)

/-! ### Descriptors and parameters (R11, R35, R81, R265) -/

/-- R35: a valid descriptor never changes, whatever either context does; only reset ends it. -/
def Obligations.DescriptorsAreImmutable : Prop :=
  ∀ (s : State) (k : Nat), s.noReset = true →
    ∃ t, step s = .next t ∧ (∀ h, s.portSlot k = some h → t.portSlot k = some h) ∧
      (∀ h, s.pinSlot k = some h → t.pinSlot k = some h) ∧ (∀ h, s.shiftSlot k = some h → t.shiftSlot k = some h) ∧
      (∀ h, s.chipSlot k = some h → t.chipSlot k = some h)

/-- R265: no step changes a parameter, a reset included. -/
def Obligations.ParametersAreFixed : Prop :=
  ∀ s : State, ∃ t, step s = .next t ∧ t.width = s.width ∧ t.nports = s.nports ∧ t.ph.length = s.ph.length ∧
    t.pn.length = s.pn.length ∧ t.sh.length = s.sh.length ∧ t.ch.length = s.ch.length

/-! ### Interrupt masking and the foreign context (R70 to R76, R238, R239) -/

/-- R72, R239: every command but IE.SET and IE.CLR leaves IE as it found it, whatever the foreign context does. -/
def Obligations.IeIsRestored : Prop :=
  ∀ (i : Instr) (s : State), s.noReset = true → i ≠ .ieSet → i ≠ .ieClr → ∃ t, exec i s = .next t ∧ t.ie = s.ie

/-- R72, R75, R133: from `IE = 0` on, every command but IE.SET runs with the foreign context held off at all its
boundaries, and leaves `IE = 0`. -/
def Obligations.MaskedCommandsHoldTheForeignContextOff : Prop :=
  ∀ (i : Instr) (s : State), s.noReset = true → s.ie = false → i ≠ .ieSet →
    ∃ t, exec i s = .next t ∧ t.ie = false ∧ t.foreign = s.foreign ∧ t.foreignResps = s.foreignResps

/-- R76: the foreign context leaves IE as it found it, at every boundary (for a sequence that would not, log entry 3). -/
def Obligations.ForeignContextReturnsIe : Prop :=
  ∀ s t : State, boundary s = .live t → t.ie = s.ie

/-- R76, R240: a command of the foreign context, refused or not, responds on its own port, and the main context's sequencer
state, response and commands stay as they are. -/
def Obligations.ForeignCommandKeepsTheMainSequencer : Prop :=
  ∀ (w : CmdWord) (s : State), s.noReset = true →
    ∃ t r, foreignCommand w s = .live t ∧ t.foreignResps = s.foreignResps ++ [r] ∧ t.mainSeq = s.mainSeq ∧
      t.mainResp = s.mainResp ∧ t.cmds = s.cmds

/-- R24: DIR is changed by the binding and direction commands and REG.WR, and by no other command. -/
def Obligations.OnlyDirectionCommandsChangeDir : Prop :=
  ∀ (i : Instr) (s : State) (p : Nat), s.calm = true →
    (match i with
      | .portBind _ _ _ _ _ => false
      | .portEnout _ => false
      | .portEnin _ => false
      | .pinBindin _ _ _ => false
      | .pinBindout _ _ _ _ _ => false
      | .regWr _ _ _ => false
      | _ => true) = true →
    ∃ t, exec i s = .next t ∧ t.dirReg p = s.dirReg p

/-! ### The register file, the pads and the invariant (R22, R25, R62 to R66) -/

/-- R62: a pad shows its `OUT` bit where its `DIR` bit is 1, else the level of `EXT`; as a word; a read of `IN` returns the
pads; the block drives a pad exactly where the `DIR` bit is 1. -/
def Obligations.PadShowsOutOrExt : Prop :=
  ∀ (s : State) (p b : Nat), b < s.width.bits →
    s.padLevel { port := p, bit := b } =
      (if (s.dirReg p).getLsbD b then (s.outReg p).getLsbD b else (s.extWord p).getLsbD b) ∧
    s.padWord p = (s.outReg p &&& s.dirReg p) ||| (s.extWord p &&& ~~~s.dirReg p) ∧
    s.regRead p .input = s.padWord p ∧ s.padOe { port := p, bit := b } = (s.dirReg p).getLsbD b ∧
    s.padOut { port := p, bit := b } = (s.outReg p).getLsbD b

/-- R66: BitWrite changes one bit and leaves the other bits of both registers of every port. -/
def Obligations.BitWriteChangesOneBit : Prop :=
  ∀ (s : State) (p q b i : Nat) (e : Bool), p < s.nports → b < s.width.bits →
    ((s.bitWrite p .output b e).outReg q).getLsbD i = (if q = p ∧ i = b then e else (s.outReg q).getLsbD i) ∧
    ((s.bitWrite p .direction b e).dirReg q).getLsbD i = (if q = p ∧ i = b then e else (s.dirReg q).getLsbD i) ∧
    (s.bitWrite p .output b e).dirReg q = s.dirReg q ∧ (s.bitWrite p .direction b e).outReg q = s.outReg q

/-- The invariant (R22, R30, R32, R191, R211): every step keeps the registers within `W` bits and every valid slot within
its contract, whatever the foreign context, the environment and reset do. -/
def Obligations.StepKeepsTheInvariant : Prop :=
  ∀ s : State, s.wf = true → ∃ t, step s = .next t ∧ t.wf = true

/-- The invariant holds after reset (R39), for every value of the parameters. -/
def Obligations.InvariantHoldsAtReset : Prop :=
  ∀ q : Params, (State.init q).wf = true ∧ (State.init q).idle = true

/-- R37: no sequencer state is carried from one command to the next, in either context. -/
def Obligations.NoSequencerStateBetweenCommands : Prop :=
  ∀ s : State, s.idle = true → ∃ t, step s = .next t ∧ t.idle = true

/-! ### What the foreign context does (R75, R76, R134) -/

/-- R76, R134: the foreign context performs its commands by the same rules: a word that is a command `i` leaves the registers,
`IE`, the flags and the descriptors as `exec i` leaves them where the foreign context has nothing to do, and answers the same
RESULT and ERR on its own port; a word that is no command only sets `ILL` and answers ERR = 1. The main context's sequencer,
response and commands stay as they are. (With an echo on the pads, which tells the shifts of the two contexts apart, the bits
a SHIFT.IN samples are the echo's, log entry 15; the rules of the block never depend on a device.) -/
def Obligations.ForeignCommandHasTheEffectOfItsRule : Prop :=
  ∀ (w : CmdWord) (s : State), s.noReset = true → s.foreignSeq = none →
    (∀ i, decode w = .ok i → (∀ e, Device.echo e ∉ s.devices) →
      ∃ t u r, foreignCommand w s = .live t ∧ exec i { s with foreign := [] } = .next u ∧ u.mainResp = some r ∧
        t.apart = { u.apart with mainSeq := s.mainSeq, mainResp := s.mainResp, foreignResps := s.foreignResps ++ [r] }) ∧
    (∀ e, decode w = .error e →
      ∃ t, foreignCommand w s = .live t ∧
        t.apart = { s.apart with ill := true, foreignResps := s.foreignResps ++ [{ result := 0, err := true }] })

/-- The MODEL's schedule (log entry 2, DESIGN CHOICE) at a boundary of the main context. R75 says that with `IE = 1` the
foreign context may act and with `IE = 0` may not, R76 that a sequence is run to completion, and R237 that whether and when a
handler held off acts is not determined. That the sequence the field `foreign` holds does act where `IE = 1`, and that with
`IE = 0` it stays in the field for a later boundary, is log entry 2; the premise `t.ie = true`, a sequence that leaves
`IE = 1`, is that of R76, and what the model does with any other is log entry 3 (DESIGN CHOICE). -/
def Obligations.ForeignContextActsAtABoundary : Prop :=
  ∀ (s t : State) (w : CmdWord) (ws : List CmdWord) (rest : List (List CmdWord)), resetDue s = false →
    s.foreign = (w :: ws) :: rest →
    (s.ie = true → (foreignCommand w { elapse s with foreign := rest }).bind (foreignRun ws) = .live t → t.ie = true →
      boundary s = .live t) ∧
    (s.ie = false → boundary s = .live (elapse s))
end

