-- ==== Sys2Proof/Laws/State.lean ====
section
/-!
SUPPORT. The small lemmas of the record updates: what each shared operation leaves as it was, one lemma for each field.
-/

namespace Sys2Proof.Machine

open Sys2Proof

/-! ### regWrite: RegWrite changes the register triples only (R65). -/

@[simp] theorem regWrite_width (s : State) (p : Nat) (r : Reg) (v : Word) : (s.regWrite p r v).width = s.width := by cases r <;> rfl
@[simp] theorem regWrite_ie (s : State) (p : Nat) (r : Reg) (v : Word) : (s.regWrite p r v).ie = s.ie := by cases r <;> rfl
@[simp] theorem regWrite_ill (s : State) (p : Nat) (r : Reg) (v : Word) : (s.regWrite p r v).ill = s.ill := by cases r <;> rfl
@[simp] theorem regWrite_cfgerr (s : State) (p : Nat) (r : Reg) (v : Word) : (s.regWrite p r v).cfgerr = s.cfgerr := by cases r <;> rfl
@[simp] theorem regWrite_operr (s : State) (p : Nat) (r : Reg) (v : Word) : (s.regWrite p r v).operr = s.operr := by cases r <;> rfl
@[simp] theorem regWrite_ph (s : State) (p : Nat) (r : Reg) (v : Word) : (s.regWrite p r v).ph = s.ph := by cases r <;> rfl
@[simp] theorem regWrite_pn (s : State) (p : Nat) (r : Reg) (v : Word) : (s.regWrite p r v).pn = s.pn := by cases r <;> rfl
@[simp] theorem regWrite_sh (s : State) (p : Nat) (r : Reg) (v : Word) : (s.regWrite p r v).sh = s.sh := by cases r <;> rfl
@[simp] theorem regWrite_ch (s : State) (p : Nat) (r : Reg) (v : Word) : (s.regWrite p r v).ch = s.ch := by cases r <;> rfl
@[simp] theorem regWrite_mainSeq (s : State) (p : Nat) (r : Reg) (v : Word) : (s.regWrite p r v).mainSeq = s.mainSeq := by cases r <;> rfl
@[simp] theorem regWrite_foreignSeq (s : State) (p : Nat) (r : Reg) (v : Word) : (s.regWrite p r v).foreignSeq = s.foreignSeq := by cases r <;> rfl
@[simp] theorem regWrite_mainResp (s : State) (p : Nat) (r : Reg) (v : Word) : (s.regWrite p r v).mainResp = s.mainResp := by cases r <;> rfl
@[simp] theorem regWrite_foreignResps (s : State) (p : Nat) (r : Reg) (v : Word) : (s.regWrite p r v).foreignResps = s.foreignResps := by cases r <;> rfl
@[simp] theorem regWrite_cmds (s : State) (p : Nat) (r : Reg) (v : Word) : (s.regWrite p r v).cmds = s.cmds := by cases r <;> rfl
@[simp] theorem regWrite_foreign (s : State) (p : Nat) (r : Reg) (v : Word) : (s.regWrite p r v).foreign = s.foreign := by cases r <;> rfl
@[simp] theorem regWrite_resets (s : State) (p : Nat) (r : Reg) (v : Word) : (s.regWrite p r v).resets = s.resets := by cases r <;> rfl
@[simp] theorem regWrite_ext (s : State) (p : Nat) (r : Reg) (v : Word) : (s.regWrite p r v).ext = s.ext := by cases r <;> rfl
@[simp] theorem regWrite_now (s : State) (p : Nat) (r : Reg) (v : Word) : (s.regWrite p r v).now = s.now := by cases r <;> rfl
@[simp] theorem regWrite_devices (s : State) (p : Nat) (r : Reg) (v : Word) : (s.regWrite p r v).devices = s.devices := by cases r <;> rfl

/-! ### bitWrite: BitWrite changes the register triples only (R66). -/

@[simp] theorem bitWrite_width (s : State) (p : Nat) (r : Reg) (b : Nat) (e : Bool) : (s.bitWrite p r b e).width = s.width := by cases r <;> rfl
@[simp] theorem bitWrite_ie (s : State) (p : Nat) (r : Reg) (b : Nat) (e : Bool) : (s.bitWrite p r b e).ie = s.ie := by cases r <;> rfl
@[simp] theorem bitWrite_ill (s : State) (p : Nat) (r : Reg) (b : Nat) (e : Bool) : (s.bitWrite p r b e).ill = s.ill := by cases r <;> rfl
@[simp] theorem bitWrite_cfgerr (s : State) (p : Nat) (r : Reg) (b : Nat) (e : Bool) : (s.bitWrite p r b e).cfgerr = s.cfgerr := by cases r <;> rfl
@[simp] theorem bitWrite_operr (s : State) (p : Nat) (r : Reg) (b : Nat) (e : Bool) : (s.bitWrite p r b e).operr = s.operr := by cases r <;> rfl
@[simp] theorem bitWrite_ph (s : State) (p : Nat) (r : Reg) (b : Nat) (e : Bool) : (s.bitWrite p r b e).ph = s.ph := by cases r <;> rfl
@[simp] theorem bitWrite_pn (s : State) (p : Nat) (r : Reg) (b : Nat) (e : Bool) : (s.bitWrite p r b e).pn = s.pn := by cases r <;> rfl
@[simp] theorem bitWrite_sh (s : State) (p : Nat) (r : Reg) (b : Nat) (e : Bool) : (s.bitWrite p r b e).sh = s.sh := by cases r <;> rfl
@[simp] theorem bitWrite_ch (s : State) (p : Nat) (r : Reg) (b : Nat) (e : Bool) : (s.bitWrite p r b e).ch = s.ch := by cases r <;> rfl
@[simp] theorem bitWrite_mainSeq (s : State) (p : Nat) (r : Reg) (b : Nat) (e : Bool) : (s.bitWrite p r b e).mainSeq = s.mainSeq := by cases r <;> rfl
@[simp] theorem bitWrite_foreignSeq (s : State) (p : Nat) (r : Reg) (b : Nat) (e : Bool) : (s.bitWrite p r b e).foreignSeq = s.foreignSeq := by cases r <;> rfl
@[simp] theorem bitWrite_mainResp (s : State) (p : Nat) (r : Reg) (b : Nat) (e : Bool) : (s.bitWrite p r b e).mainResp = s.mainResp := by cases r <;> rfl
@[simp] theorem bitWrite_foreignResps (s : State) (p : Nat) (r : Reg) (b : Nat) (e : Bool) : (s.bitWrite p r b e).foreignResps = s.foreignResps := by cases r <;> rfl
@[simp] theorem bitWrite_cmds (s : State) (p : Nat) (r : Reg) (b : Nat) (e : Bool) : (s.bitWrite p r b e).cmds = s.cmds := by cases r <;> rfl
@[simp] theorem bitWrite_foreign (s : State) (p : Nat) (r : Reg) (b : Nat) (e : Bool) : (s.bitWrite p r b e).foreign = s.foreign := by cases r <;> rfl
@[simp] theorem bitWrite_resets (s : State) (p : Nat) (r : Reg) (b : Nat) (e : Bool) : (s.bitWrite p r b e).resets = s.resets := by cases r <;> rfl
@[simp] theorem bitWrite_ext (s : State) (p : Nat) (r : Reg) (b : Nat) (e : Bool) : (s.bitWrite p r b e).ext = s.ext := by cases r <;> rfl
@[simp] theorem bitWrite_now (s : State) (p : Nat) (r : Reg) (b : Nat) (e : Bool) : (s.bitWrite p r b e).now = s.now := by cases r <;> rfl
@[simp] theorem bitWrite_devices (s : State) (p : Nat) (r : Reg) (b : Nat) (e : Bool) : (s.bitWrite p r b e).devices = s.devices := by cases r <;> rfl

/-! ### setSeq: A context's sequencer is its own (R37). -/

@[simp] theorem setSeq_width (s : State) (c : Ctx) (q : Option Seq) : (s.setSeq c q).width = s.width := by cases c <;> rfl
@[simp] theorem setSeq_ports (s : State) (c : Ctx) (q : Option Seq) : (s.setSeq c q).ports = s.ports := by cases c <;> rfl
@[simp] theorem setSeq_ie (s : State) (c : Ctx) (q : Option Seq) : (s.setSeq c q).ie = s.ie := by cases c <;> rfl
@[simp] theorem setSeq_ill (s : State) (c : Ctx) (q : Option Seq) : (s.setSeq c q).ill = s.ill := by cases c <;> rfl
@[simp] theorem setSeq_cfgerr (s : State) (c : Ctx) (q : Option Seq) : (s.setSeq c q).cfgerr = s.cfgerr := by cases c <;> rfl
@[simp] theorem setSeq_operr (s : State) (c : Ctx) (q : Option Seq) : (s.setSeq c q).operr = s.operr := by cases c <;> rfl
@[simp] theorem setSeq_ph (s : State) (c : Ctx) (q : Option Seq) : (s.setSeq c q).ph = s.ph := by cases c <;> rfl
@[simp] theorem setSeq_pn (s : State) (c : Ctx) (q : Option Seq) : (s.setSeq c q).pn = s.pn := by cases c <;> rfl
@[simp] theorem setSeq_sh (s : State) (c : Ctx) (q : Option Seq) : (s.setSeq c q).sh = s.sh := by cases c <;> rfl
@[simp] theorem setSeq_ch (s : State) (c : Ctx) (q : Option Seq) : (s.setSeq c q).ch = s.ch := by cases c <;> rfl
@[simp] theorem setSeq_mainResp (s : State) (c : Ctx) (q : Option Seq) : (s.setSeq c q).mainResp = s.mainResp := by cases c <;> rfl
@[simp] theorem setSeq_foreignResps (s : State) (c : Ctx) (q : Option Seq) : (s.setSeq c q).foreignResps = s.foreignResps := by cases c <;> rfl
@[simp] theorem setSeq_cmds (s : State) (c : Ctx) (q : Option Seq) : (s.setSeq c q).cmds = s.cmds := by cases c <;> rfl
@[simp] theorem setSeq_foreign (s : State) (c : Ctx) (q : Option Seq) : (s.setSeq c q).foreign = s.foreign := by cases c <;> rfl
@[simp] theorem setSeq_resets (s : State) (c : Ctx) (q : Option Seq) : (s.setSeq c q).resets = s.resets := by cases c <;> rfl
@[simp] theorem setSeq_ext (s : State) (c : Ctx) (q : Option Seq) : (s.setSeq c q).ext = s.ext := by cases c <;> rfl
@[simp] theorem setSeq_now (s : State) (c : Ctx) (q : Option Seq) : (s.setSeq c q).now = s.now := by cases c <;> rfl
@[simp] theorem setSeq_devices (s : State) (c : Ctx) (q : Option Seq) : (s.setSeq c q).devices = s.devices := by cases c <;> rfl

/-! ### updSeq: A context's sequencer is its own (R37). -/

@[simp] theorem updSeq_width (s : State) (c : Ctx) (f : Seq → Seq) : (s.updSeq c f).width = s.width := by cases c <;> rfl
@[simp] theorem updSeq_ports (s : State) (c : Ctx) (f : Seq → Seq) : (s.updSeq c f).ports = s.ports := by cases c <;> rfl
@[simp] theorem updSeq_ie (s : State) (c : Ctx) (f : Seq → Seq) : (s.updSeq c f).ie = s.ie := by cases c <;> rfl
@[simp] theorem updSeq_ill (s : State) (c : Ctx) (f : Seq → Seq) : (s.updSeq c f).ill = s.ill := by cases c <;> rfl
@[simp] theorem updSeq_cfgerr (s : State) (c : Ctx) (f : Seq → Seq) : (s.updSeq c f).cfgerr = s.cfgerr := by cases c <;> rfl
@[simp] theorem updSeq_operr (s : State) (c : Ctx) (f : Seq → Seq) : (s.updSeq c f).operr = s.operr := by cases c <;> rfl
@[simp] theorem updSeq_ph (s : State) (c : Ctx) (f : Seq → Seq) : (s.updSeq c f).ph = s.ph := by cases c <;> rfl
@[simp] theorem updSeq_pn (s : State) (c : Ctx) (f : Seq → Seq) : (s.updSeq c f).pn = s.pn := by cases c <;> rfl
@[simp] theorem updSeq_sh (s : State) (c : Ctx) (f : Seq → Seq) : (s.updSeq c f).sh = s.sh := by cases c <;> rfl
@[simp] theorem updSeq_ch (s : State) (c : Ctx) (f : Seq → Seq) : (s.updSeq c f).ch = s.ch := by cases c <;> rfl
@[simp] theorem updSeq_mainResp (s : State) (c : Ctx) (f : Seq → Seq) : (s.updSeq c f).mainResp = s.mainResp := by cases c <;> rfl
@[simp] theorem updSeq_foreignResps (s : State) (c : Ctx) (f : Seq → Seq) : (s.updSeq c f).foreignResps = s.foreignResps := by cases c <;> rfl
@[simp] theorem updSeq_cmds (s : State) (c : Ctx) (f : Seq → Seq) : (s.updSeq c f).cmds = s.cmds := by cases c <;> rfl
@[simp] theorem updSeq_foreign (s : State) (c : Ctx) (f : Seq → Seq) : (s.updSeq c f).foreign = s.foreign := by cases c <;> rfl
@[simp] theorem updSeq_resets (s : State) (c : Ctx) (f : Seq → Seq) : (s.updSeq c f).resets = s.resets := by cases c <;> rfl
@[simp] theorem updSeq_ext (s : State) (c : Ctx) (f : Seq → Seq) : (s.updSeq c f).ext = s.ext := by cases c <;> rfl
@[simp] theorem updSeq_now (s : State) (c : Ctx) (f : Seq → Seq) : (s.updSeq c f).now = s.now := by cases c <;> rfl
@[simp] theorem updSeq_devices (s : State) (c : Ctx) (f : Seq → Seq) : (s.updSeq c f).devices = s.devices := by cases c <;> rfl

/-! ### observe: Seeing the pads changes the devices only. -/

@[simp] theorem observe_width (b : Option Ctx) (s : State) : (s.observe b).width = s.width := rfl
@[simp] theorem observe_ports (b : Option Ctx) (s : State) : (s.observe b).ports = s.ports := rfl
@[simp] theorem observe_ie (b : Option Ctx) (s : State) : (s.observe b).ie = s.ie := rfl
@[simp] theorem observe_ill (b : Option Ctx) (s : State) : (s.observe b).ill = s.ill := rfl
@[simp] theorem observe_cfgerr (b : Option Ctx) (s : State) : (s.observe b).cfgerr = s.cfgerr := rfl
@[simp] theorem observe_operr (b : Option Ctx) (s : State) : (s.observe b).operr = s.operr := rfl
@[simp] theorem observe_ph (b : Option Ctx) (s : State) : (s.observe b).ph = s.ph := rfl
@[simp] theorem observe_pn (b : Option Ctx) (s : State) : (s.observe b).pn = s.pn := rfl
@[simp] theorem observe_sh (b : Option Ctx) (s : State) : (s.observe b).sh = s.sh := rfl
@[simp] theorem observe_ch (b : Option Ctx) (s : State) : (s.observe b).ch = s.ch := rfl
@[simp] theorem observe_mainSeq (b : Option Ctx) (s : State) : (s.observe b).mainSeq = s.mainSeq := rfl
@[simp] theorem observe_foreignSeq (b : Option Ctx) (s : State) : (s.observe b).foreignSeq = s.foreignSeq := rfl
@[simp] theorem observe_mainResp (b : Option Ctx) (s : State) : (s.observe b).mainResp = s.mainResp := rfl
@[simp] theorem observe_foreignResps (b : Option Ctx) (s : State) : (s.observe b).foreignResps = s.foreignResps := rfl
@[simp] theorem observe_cmds (b : Option Ctx) (s : State) : (s.observe b).cmds = s.cmds := rfl
@[simp] theorem observe_foreign (b : Option Ctx) (s : State) : (s.observe b).foreign = s.foreign := rfl
@[simp] theorem observe_resets (b : Option Ctx) (s : State) : (s.observe b).resets = s.resets := rfl
@[simp] theorem observe_ext (b : Option Ctx) (s : State) : (s.observe b).ext = s.ext := rfl
@[simp] theorem observe_now (b : Option Ctx) (s : State) : (s.observe b).now = s.now := rfl

/-! ### setFlag: A flag is set, nothing else (R232). -/

@[simp] theorem setFlag_width (s : State) (f : Flag) : (s.setFlag f).width = s.width := by cases f <;> rfl
@[simp] theorem setFlag_ports (s : State) (f : Flag) : (s.setFlag f).ports = s.ports := by cases f <;> rfl
@[simp] theorem setFlag_ie (s : State) (f : Flag) : (s.setFlag f).ie = s.ie := by cases f <;> rfl
@[simp] theorem setFlag_ph (s : State) (f : Flag) : (s.setFlag f).ph = s.ph := by cases f <;> rfl
@[simp] theorem setFlag_pn (s : State) (f : Flag) : (s.setFlag f).pn = s.pn := by cases f <;> rfl
@[simp] theorem setFlag_sh (s : State) (f : Flag) : (s.setFlag f).sh = s.sh := by cases f <;> rfl
@[simp] theorem setFlag_ch (s : State) (f : Flag) : (s.setFlag f).ch = s.ch := by cases f <;> rfl
@[simp] theorem setFlag_mainSeq (s : State) (f : Flag) : (s.setFlag f).mainSeq = s.mainSeq := by cases f <;> rfl
@[simp] theorem setFlag_foreignSeq (s : State) (f : Flag) : (s.setFlag f).foreignSeq = s.foreignSeq := by cases f <;> rfl
@[simp] theorem setFlag_mainResp (s : State) (f : Flag) : (s.setFlag f).mainResp = s.mainResp := by cases f <;> rfl
@[simp] theorem setFlag_foreignResps (s : State) (f : Flag) : (s.setFlag f).foreignResps = s.foreignResps := by cases f <;> rfl
@[simp] theorem setFlag_cmds (s : State) (f : Flag) : (s.setFlag f).cmds = s.cmds := by cases f <;> rfl
@[simp] theorem setFlag_foreign (s : State) (f : Flag) : (s.setFlag f).foreign = s.foreign := by cases f <;> rfl
@[simp] theorem setFlag_resets (s : State) (f : Flag) : (s.setFlag f).resets = s.resets := by cases f <;> rfl
@[simp] theorem setFlag_ext (s : State) (f : Flag) : (s.setFlag f).ext = s.ext := by cases f <;> rfl
@[simp] theorem setFlag_now (s : State) (f : Flag) : (s.setFlag f).now = s.now := by cases f <;> rfl
@[simp] theorem setFlag_devices (s : State) (f : Flag) : (s.setFlag f).devices = s.devices := by cases f <;> rfl

/-! ### respond: A response changes a response port only (R84). -/

@[simp] theorem respond_width (c : Ctx) (r : Response) (s : State) : (respond c r s).width = s.width := by cases c <;> rfl
@[simp] theorem respond_ports (c : Ctx) (r : Response) (s : State) : (respond c r s).ports = s.ports := by cases c <;> rfl
@[simp] theorem respond_ie (c : Ctx) (r : Response) (s : State) : (respond c r s).ie = s.ie := by cases c <;> rfl
@[simp] theorem respond_ill (c : Ctx) (r : Response) (s : State) : (respond c r s).ill = s.ill := by cases c <;> rfl
@[simp] theorem respond_cfgerr (c : Ctx) (r : Response) (s : State) : (respond c r s).cfgerr = s.cfgerr := by cases c <;> rfl
@[simp] theorem respond_operr (c : Ctx) (r : Response) (s : State) : (respond c r s).operr = s.operr := by cases c <;> rfl
@[simp] theorem respond_ph (c : Ctx) (r : Response) (s : State) : (respond c r s).ph = s.ph := by cases c <;> rfl
@[simp] theorem respond_pn (c : Ctx) (r : Response) (s : State) : (respond c r s).pn = s.pn := by cases c <;> rfl
@[simp] theorem respond_sh (c : Ctx) (r : Response) (s : State) : (respond c r s).sh = s.sh := by cases c <;> rfl
@[simp] theorem respond_ch (c : Ctx) (r : Response) (s : State) : (respond c r s).ch = s.ch := by cases c <;> rfl
@[simp] theorem respond_mainSeq (c : Ctx) (r : Response) (s : State) : (respond c r s).mainSeq = s.mainSeq := by cases c <;> rfl
@[simp] theorem respond_foreignSeq (c : Ctx) (r : Response) (s : State) : (respond c r s).foreignSeq = s.foreignSeq := by cases c <;> rfl
@[simp] theorem respond_cmds (c : Ctx) (r : Response) (s : State) : (respond c r s).cmds = s.cmds := by cases c <;> rfl
@[simp] theorem respond_foreign (c : Ctx) (r : Response) (s : State) : (respond c r s).foreign = s.foreign := by cases c <;> rfl
@[simp] theorem respond_resets (c : Ctx) (r : Response) (s : State) : (respond c r s).resets = s.resets := by cases c <;> rfl
@[simp] theorem respond_ext (c : Ctx) (r : Response) (s : State) : (respond c r s).ext = s.ext := by cases c <;> rfl
@[simp] theorem respond_now (c : Ctx) (r : Response) (s : State) : (respond c r s).now = s.now := by cases c <;> rfl
@[simp] theorem respond_devices (c : Ctx) (r : Response) (s : State) : (respond c r s).devices = s.devices := by cases c <;> rfl

/-! ### refuse: A refusal changes a flag and a response port only (R232). -/

@[simp] theorem refuse_width (c : Ctx) (f : Flag) (s : State) : (refuse c f s).width = s.width := by cases c <;> cases f <;> rfl
@[simp] theorem refuse_ports (c : Ctx) (f : Flag) (s : State) : (refuse c f s).ports = s.ports := by cases c <;> cases f <;> rfl
@[simp] theorem refuse_ie (c : Ctx) (f : Flag) (s : State) : (refuse c f s).ie = s.ie := by cases c <;> cases f <;> rfl
@[simp] theorem refuse_ph (c : Ctx) (f : Flag) (s : State) : (refuse c f s).ph = s.ph := by cases c <;> cases f <;> rfl
@[simp] theorem refuse_pn (c : Ctx) (f : Flag) (s : State) : (refuse c f s).pn = s.pn := by cases c <;> cases f <;> rfl
@[simp] theorem refuse_sh (c : Ctx) (f : Flag) (s : State) : (refuse c f s).sh = s.sh := by cases c <;> cases f <;> rfl
@[simp] theorem refuse_ch (c : Ctx) (f : Flag) (s : State) : (refuse c f s).ch = s.ch := by cases c <;> cases f <;> rfl
@[simp] theorem refuse_mainSeq (c : Ctx) (f : Flag) (s : State) : (refuse c f s).mainSeq = s.mainSeq := by cases c <;> cases f <;> rfl
@[simp] theorem refuse_foreignSeq (c : Ctx) (f : Flag) (s : State) : (refuse c f s).foreignSeq = s.foreignSeq := by cases c <;> cases f <;> rfl
@[simp] theorem refuse_cmds (c : Ctx) (f : Flag) (s : State) : (refuse c f s).cmds = s.cmds := by cases c <;> cases f <;> rfl
@[simp] theorem refuse_foreign (c : Ctx) (f : Flag) (s : State) : (refuse c f s).foreign = s.foreign := by cases c <;> cases f <;> rfl
@[simp] theorem refuse_resets (c : Ctx) (f : Flag) (s : State) : (refuse c f s).resets = s.resets := by cases c <;> cases f <;> rfl
@[simp] theorem refuse_ext (c : Ctx) (f : Flag) (s : State) : (refuse c f s).ext = s.ext := by cases c <;> cases f <;> rfl
@[simp] theorem refuse_now (c : Ctx) (f : Flag) (s : State) : (refuse c f s).now = s.now := by cases c <;> cases f <;> rfl
@[simp] theorem refuse_devices (c : Ctx) (f : Flag) (s : State) : (refuse c f s).devices = s.devices := by cases c <;> cases f <;> rfl

/-! ### applyBind: Binding changes the descriptor tables only (R60). -/

@[simp] theorem applyBind_width (b : Bind) (s : State) : (applyBind b s).width = s.width := by cases b <;> rfl
@[simp] theorem applyBind_ports (b : Bind) (s : State) : (applyBind b s).ports = s.ports := by cases b <;> rfl
@[simp] theorem applyBind_ie (b : Bind) (s : State) : (applyBind b s).ie = s.ie := by cases b <;> rfl
@[simp] theorem applyBind_ill (b : Bind) (s : State) : (applyBind b s).ill = s.ill := by cases b <;> rfl
@[simp] theorem applyBind_cfgerr (b : Bind) (s : State) : (applyBind b s).cfgerr = s.cfgerr := by cases b <;> rfl
@[simp] theorem applyBind_operr (b : Bind) (s : State) : (applyBind b s).operr = s.operr := by cases b <;> rfl
@[simp] theorem applyBind_mainSeq (b : Bind) (s : State) : (applyBind b s).mainSeq = s.mainSeq := by cases b <;> rfl
@[simp] theorem applyBind_foreignSeq (b : Bind) (s : State) : (applyBind b s).foreignSeq = s.foreignSeq := by cases b <;> rfl
@[simp] theorem applyBind_mainResp (b : Bind) (s : State) : (applyBind b s).mainResp = s.mainResp := by cases b <;> rfl
@[simp] theorem applyBind_foreignResps (b : Bind) (s : State) : (applyBind b s).foreignResps = s.foreignResps := by cases b <;> rfl
@[simp] theorem applyBind_cmds (b : Bind) (s : State) : (applyBind b s).cmds = s.cmds := by cases b <;> rfl
@[simp] theorem applyBind_foreign (b : Bind) (s : State) : (applyBind b s).foreign = s.foreign := by cases b <;> rfl
@[simp] theorem applyBind_resets (b : Bind) (s : State) : (applyBind b s).resets = s.resets := by cases b <;> rfl
@[simp] theorem applyBind_ext (b : Bind) (s : State) : (applyBind b s).ext = s.ext := by cases b <;> rfl
@[simp] theorem applyBind_now (b : Bind) (s : State) : (applyBind b s).now = s.now := by cases b <;> rfl
@[simp] theorem applyBind_devices (b : Bind) (s : State) : (applyBind b s).devices = s.devices := by cases b <;> rfl

/-! ### elapse: Time passing changes the world only (R63). -/

@[simp] theorem elapse_width (s : State) : (elapse s).width = s.width := rfl
@[simp] theorem elapse_ports (s : State) : (elapse s).ports = s.ports := rfl
@[simp] theorem elapse_ie (s : State) : (elapse s).ie = s.ie := rfl
@[simp] theorem elapse_ill (s : State) : (elapse s).ill = s.ill := rfl
@[simp] theorem elapse_cfgerr (s : State) : (elapse s).cfgerr = s.cfgerr := rfl
@[simp] theorem elapse_operr (s : State) : (elapse s).operr = s.operr := rfl
@[simp] theorem elapse_ph (s : State) : (elapse s).ph = s.ph := rfl
@[simp] theorem elapse_pn (s : State) : (elapse s).pn = s.pn := rfl
@[simp] theorem elapse_sh (s : State) : (elapse s).sh = s.sh := rfl
@[simp] theorem elapse_ch (s : State) : (elapse s).ch = s.ch := rfl
@[simp] theorem elapse_mainSeq (s : State) : (elapse s).mainSeq = s.mainSeq := rfl
@[simp] theorem elapse_foreignSeq (s : State) : (elapse s).foreignSeq = s.foreignSeq := rfl
@[simp] theorem elapse_mainResp (s : State) : (elapse s).mainResp = s.mainResp := rfl
@[simp] theorem elapse_foreignResps (s : State) : (elapse s).foreignResps = s.foreignResps := rfl
@[simp] theorem elapse_cmds (s : State) : (elapse s).cmds = s.cmds := rfl
@[simp] theorem elapse_foreign (s : State) : (elapse s).foreign = s.foreign := rfl

/-! ### acq: ACQ changes IE and SAVED_IE only (R70, R238). -/

@[simp] theorem acq_width (c : Ctx) (s : State) : (acq c s).width = s.width := by cases c <;> rfl
@[simp] theorem acq_ports (c : Ctx) (s : State) : (acq c s).ports = s.ports := by cases c <;> rfl
@[simp] theorem acq_ill (c : Ctx) (s : State) : (acq c s).ill = s.ill := by cases c <;> rfl
@[simp] theorem acq_cfgerr (c : Ctx) (s : State) : (acq c s).cfgerr = s.cfgerr := by cases c <;> rfl
@[simp] theorem acq_operr (c : Ctx) (s : State) : (acq c s).operr = s.operr := by cases c <;> rfl
@[simp] theorem acq_ph (c : Ctx) (s : State) : (acq c s).ph = s.ph := by cases c <;> rfl
@[simp] theorem acq_pn (c : Ctx) (s : State) : (acq c s).pn = s.pn := by cases c <;> rfl
@[simp] theorem acq_sh (c : Ctx) (s : State) : (acq c s).sh = s.sh := by cases c <;> rfl
@[simp] theorem acq_ch (c : Ctx) (s : State) : (acq c s).ch = s.ch := by cases c <;> rfl
@[simp] theorem acq_mainResp (c : Ctx) (s : State) : (acq c s).mainResp = s.mainResp := by cases c <;> rfl
@[simp] theorem acq_foreignResps (c : Ctx) (s : State) : (acq c s).foreignResps = s.foreignResps := by cases c <;> rfl
@[simp] theorem acq_cmds (c : Ctx) (s : State) : (acq c s).cmds = s.cmds := by cases c <;> rfl
@[simp] theorem acq_foreign (c : Ctx) (s : State) : (acq c s).foreign = s.foreign := by cases c <;> rfl
@[simp] theorem acq_resets (c : Ctx) (s : State) : (acq c s).resets = s.resets := by cases c <;> rfl
@[simp] theorem acq_ext (c : Ctx) (s : State) : (acq c s).ext = s.ext := by cases c <;> rfl
@[simp] theorem acq_now (c : Ctx) (s : State) : (acq c s).now = s.now := by cases c <;> rfl
@[simp] theorem acq_devices (c : Ctx) (s : State) : (acq c s).devices = s.devices := by cases c <;> rfl

/-! ### rel: REL changes IE only (R71). -/

@[simp] theorem rel_width (c : Ctx) (s : State) : (rel c s).width = s.width := rfl
@[simp] theorem rel_ports (c : Ctx) (s : State) : (rel c s).ports = s.ports := rfl
@[simp] theorem rel_ill (c : Ctx) (s : State) : (rel c s).ill = s.ill := rfl
@[simp] theorem rel_cfgerr (c : Ctx) (s : State) : (rel c s).cfgerr = s.cfgerr := rfl
@[simp] theorem rel_operr (c : Ctx) (s : State) : (rel c s).operr = s.operr := rfl
@[simp] theorem rel_ph (c : Ctx) (s : State) : (rel c s).ph = s.ph := rfl
@[simp] theorem rel_pn (c : Ctx) (s : State) : (rel c s).pn = s.pn := rfl
@[simp] theorem rel_sh (c : Ctx) (s : State) : (rel c s).sh = s.sh := rfl
@[simp] theorem rel_ch (c : Ctx) (s : State) : (rel c s).ch = s.ch := rfl
@[simp] theorem rel_mainSeq (c : Ctx) (s : State) : (rel c s).mainSeq = s.mainSeq := rfl
@[simp] theorem rel_foreignSeq (c : Ctx) (s : State) : (rel c s).foreignSeq = s.foreignSeq := rfl
@[simp] theorem rel_mainResp (c : Ctx) (s : State) : (rel c s).mainResp = s.mainResp := rfl
@[simp] theorem rel_foreignResps (c : Ctx) (s : State) : (rel c s).foreignResps = s.foreignResps := rfl
@[simp] theorem rel_cmds (c : Ctx) (s : State) : (rel c s).cmds = s.cmds := rfl
@[simp] theorem rel_foreign (c : Ctx) (s : State) : (rel c s).foreign = s.foreign := rfl
@[simp] theorem rel_resets (c : Ctx) (s : State) : (rel c s).resets = s.resets := rfl
@[simp] theorem rel_ext (c : Ctx) (s : State) : (rel c s).ext = s.ext := rfl
@[simp] theorem rel_now (c : Ctx) (s : State) : (rel c s).now = s.now := rfl
@[simp] theorem rel_devices (c : Ctx) (s : State) : (rel c s).devices = s.devices := rfl

/-! ### apart: The block apart from the world. -/

@[simp] theorem apart_width (s : State) : s.apart.width = s.width := rfl
@[simp] theorem apart_ports (s : State) : s.apart.ports = s.ports := rfl
@[simp] theorem apart_ie (s : State) : s.apart.ie = s.ie := rfl
@[simp] theorem apart_ill (s : State) : s.apart.ill = s.ill := rfl
@[simp] theorem apart_cfgerr (s : State) : s.apart.cfgerr = s.cfgerr := rfl
@[simp] theorem apart_operr (s : State) : s.apart.operr = s.operr := rfl
@[simp] theorem apart_ph (s : State) : s.apart.ph = s.ph := rfl
@[simp] theorem apart_pn (s : State) : s.apart.pn = s.pn := rfl
@[simp] theorem apart_sh (s : State) : s.apart.sh = s.sh := rfl
@[simp] theorem apart_ch (s : State) : s.apart.ch = s.ch := rfl
@[simp] theorem apart_mainSeq (s : State) : s.apart.mainSeq = s.mainSeq := rfl
@[simp] theorem apart_foreignSeq (s : State) : s.apart.foreignSeq = s.foreignSeq := rfl
@[simp] theorem apart_mainResp (s : State) : s.apart.mainResp = s.mainResp := rfl
@[simp] theorem apart_foreignResps (s : State) : s.apart.foreignResps = s.foreignResps := rfl
@[simp] theorem apart_cmds (s : State) : s.apart.cmds = s.cmds := rfl

/-! ### The fields the operations do change -/

@[simp] theorem elapse_now (s : State) : (elapse s).now = s.now + 1 := rfl
@[simp] theorem elapse_ext (s : State) : (elapse s).ext = s.ext.tail := rfl
@[simp] theorem elapse_resets (s : State) : (elapse s).resets = s.resets.tail := rfl
@[simp] theorem acq_ie (c : Ctx) (s : State) : (acq c s).ie = false := by cases c <;> rfl
@[simp] theorem rel_ie (c : Ctx) (s : State) : (rel c s).ie = (s.seq c).savedIe := rfl
@[simp] theorem setSeq_main_seq (s : State) (q : Option Seq) : (s.setSeq .main q).mainSeq = q := rfl
@[simp] theorem setSeq_main_foreignSeq (s : State) (q : Option Seq) : (s.setSeq .main q).foreignSeq = s.foreignSeq := rfl
@[simp] theorem setSeq_foreign_seq (s : State) (q : Option Seq) : (s.setSeq .foreign q).foreignSeq = q := rfl
@[simp] theorem setSeq_foreign_mainSeq (s : State) (q : Option Seq) : (s.setSeq .foreign q).mainSeq = s.mainSeq := rfl
@[simp] theorem respond_main_resp (r : Response) (s : State) : (respond .main r s).mainResp = some r := rfl
@[simp] theorem respond_main_foreignResps (r : Response) (s : State) :
    (respond .main r s).foreignResps = s.foreignResps := rfl
@[simp] theorem respond_foreign_resps (r : Response) (s : State) :
    (respond .foreign r s).foreignResps = s.foreignResps ++ [r] := rfl
@[simp] theorem respond_foreign_mainResp (r : Response) (s : State) : (respond .foreign r s).mainResp = s.mainResp := rfl

/-! ### A context's sequencer after an operation -/

@[simp] theorem seq_updSeq (s : State) (c : Ctx) (f : Seq → Seq) : (s.updSeq c f).seq c = f (s.seq c) := by
  cases c <;> rfl
@[simp] theorem seq_setSeq_some (s : State) (c : Ctx) (q : Seq) : (s.setSeq c (some q)).seq c = q := by
  cases c <;> rfl
@[simp] theorem setSeq_setSeq (s : State) (c : Ctx) (q q' : Option Seq) : (s.setSeq c q).setSeq c q' = s.setSeq c q' := by
  cases c <;> rfl

/-! ### The echo: the bits of each context's shifts are its own (R90). -/

@[simp] theorem side_setSide (e : Echo) (c d : Ctx) (x : EchoSide) : (e.setSide c x).side d = if d = c then x else e.side d := by
  cases c <;> cases d <;> rfl
@[simp] theorem setSide_dout (e : Echo) (c : Ctx) (x : EchoSide) : (e.setSide c x).dout = e.dout := by cases c <;> rfl
@[simp] theorem setSide_clk (e : Echo) (c : Ctx) (x : EchoSide) : (e.setSide c x).clk = e.clk := by cases c <;> rfl
@[simp] theorem setSide_din (e : Echo) (c : Ctx) (x : EchoSide) : (e.setSide c x).din = e.din := by cases c <;> rfl
@[simp] theorem setSide_newest (e : Echo) (c : Ctx) (x : EchoSide) : (e.setSide c x).newest = e.newest := by cases c <;> rfl
@[simp] theorem setSide_lastClk (e : Echo) (c : Ctx) (x : EchoSide) : (e.setSide c x).lastClk = e.lastClk := by cases c <;> rfl

/-- What an appended bit does (R90): it is the last one of its context's SHIFT.OUT, and the newest of all. -/
theorem side_append (e : Echo) (c d : Ctx) (b : Bool) :
    (e.append c b).newest = c ∧ (e.append c b).side d =
      if d = c then { e.side c with fresh := false, sent := (if (e.side c).fresh then [] else (e.side c).sent) ++ [b] }
      else e.side d := by
  cases c <;> cases d <;> simp [Echo.append, Echo.side, Echo.setSide]

/-- What the echo takes from the pads (R90): nothing but the level of its clock, and, at a rising edge that a SHIFT.OUT
causes, the level of the data line. -/
theorem echo_see (e : Echo) (shifter : Option Ctx) (dout clk : Bool) :
    e.see shifter dout clk =
      { (if (clk && !e.lastClk) = true then (shifter.elim e fun c => e.append c dout) else e) with lastClk := clk } := by
  cases shifter with
  | none => simp [Echo.see]
  | some c => rfl

end Sys2Proof.Machine
end

