-- ==== Sys2Proof/Laws/Registers.lean ====
section
/-!
SUPPORT. The register file and the pads: what a read gives after a write (R64 to R66), bit by bit, and the pads (R62).
-/

namespace Sys2Proof.Machine

open Sys2Proof

/-! ### Bits -/

theorem ones_getLsbD (n i : Nat) (hn : n ≤ 32) : (ones n).getLsbD i = decide (i < n) := by
  by_cases h : i < 32
  · rw [BitVec.getLsbD_ofNat, Nat.testBit_two_pow_sub_one]; simp [h]
  · simp only [not_lt] at h
    rw [BitVec.getLsbD_of_ge _ _ h]
    simp only [Bool.false_eq, decide_eq_false_iff_not, not_lt]; omega

theorem Width.bits_le (w : Width) : w.bits ≤ 32 := by cases w <;> decide

@[simp] theorem trunc_getLsbD (w : Width) (v : Word) (i : Nat) :
    (trunc w v).getLsbD i = (v.getLsbD i && decide (i < w.bits)) := by
  simp [trunc, BitVec.getLsbD_and, ones_getLsbD _ _ (Width.bits_le w)]

@[simp] theorem bitMask_getLsbD (b i : Nat) : (bitMask b).getLsbD i = decide (i = b ∧ b < 32) := by
  simp only [bitMask, BitVec.getLsbD_shiftLeft, BitVec.getLsbD_one]
  by_cases h : i < 32 <;> by_cases h2 : i < b <;> by_cases h3 : i = b <;> simp_all; omega

/-- A bit of `withBit`: bit `b` takes the level, the others stay (R66). -/
theorem withBit_getLsbD (t : Word) (b : Nat) (e : Bool) (i : Nat) :
    (withBit t b e).getLsbD i = if i = b ∧ b < 32 then e else t.getLsbD i := by
  unfold withBit
  cases e
  · simp only [Bool.false_eq_true, if_false, BitVec.getLsbD_and, BitVec.getLsbD_not, bitMask_getLsbD]
    by_cases h : i = b ∧ b < 32
    · simp [h]
    · by_cases h32 : i < 32
      · simp [h, h32]
      · rw [BitVec.getLsbD_of_ge t i (by omega)]; simp [h]
  · simp only [if_true, BitVec.getLsbD_or, bitMask_getLsbD]
    by_cases h : i = b ∧ b < 32 <;> simp [h]

theorem trunc_trunc (w : Width) (v : Word) : trunc w (trunc w v) = trunc w v := by
  apply BitVec.eq_of_getLsbD_eq; intro i _; simp

theorem trunc_withBit (w : Width) (v : Word) (b : Nat) (e : Bool) :
    trunc w (withBit (trunc w v) b e) = trunc w (withBit v b e) := by
  apply BitVec.eq_of_getLsbD_eq
  intro i _
  simp only [trunc_getLsbD, withBit_getLsbD]
  by_cases h : i = b ∧ b < 32
  · simp [h]
  · by_cases h2 : i < w.bits <;> simp [h, h2]

/-! ### Reads and writes of the register triples -/

theorem triple_regWrite (s : State) (p q : Nat) (r : Reg) (v : Word) :
    (s.regWrite p r v).triple q =
      if q = p ∧ p < s.nports then
        match r with
        | .input => s.triple q
        | .output => { s.triple q with out := trunc s.width v }
        | .direction => { s.triple q with dir := trunc s.width v }
      else s.triple q := by
  cases r
  · simp [State.regWrite]
  all_goals
    by_cases hq : p = q
    · subst hq
      by_cases hp : p < s.ports.length
      · simp [State.regWrite, State.triple, State.nports, hp]
      · simp [State.regWrite, State.triple, State.nports, hp]
    · have : ¬ (q = p) := fun h => hq h.symm
      simp [State.regWrite, State.triple, hq, this]

@[simp] theorem nports_regWrite (s : State) (p : Nat) (r : Reg) (v : Word) : (s.regWrite p r v).nports = s.nports := by
  cases r <;> simp [State.nports, State.regWrite]

@[simp] theorem nports_bitWrite (s : State) (p : Nat) (r : Reg) (b : Nat) (e : Bool) :
    (s.bitWrite p r b e).nports = s.nports := nports_regWrite ..

/-- What `OUT[q]` reads after a write (R65). -/
theorem outReg_regWrite (s : State) (p q : Nat) (r : Reg) (v : Word) :
    (s.regWrite p r v).outReg q = if q = p ∧ p < s.nports ∧ r = .output then trunc s.width v else s.outReg q := by
  unfold State.outReg
  rw [triple_regWrite]
  cases r <;> by_cases h : q = p ∧ p < s.nports <;> simp [h, trunc_trunc]

/-- What `DIR[q]` reads after a write (R65). -/
theorem dirReg_regWrite (s : State) (p q : Nat) (r : Reg) (v : Word) :
    (s.regWrite p r v).dirReg q = if q = p ∧ p < s.nports ∧ r = .direction then trunc s.width v else s.dirReg q := by
  unfold State.dirReg
  rw [triple_regWrite]
  cases r <;> by_cases h : q = p ∧ p < s.nports <;> simp [h, trunc_trunc]

/-- A bit of `OUT[q]` after a single-bit write (R66). -/
theorem outReg_bitWrite_getLsbD (s : State) (p q : Nat) (r : Reg) (b i : Nat) (e : Bool) :
    ((s.bitWrite p r b e).outReg q).getLsbD i =
      if q = p ∧ p < s.nports ∧ r = .output ∧ i = b ∧ b < s.width.bits then e else (s.outReg q).getLsbD i := by
  have hw := Width.bits_le s.width
  unfold State.bitWrite
  rw [outReg_regWrite]
  by_cases h : q = p ∧ p < s.nports ∧ r = .output
  · obtain ⟨rfl, hp, rfl⟩ := h
    simp only [hp, true_and, and_true, if_true, trunc_getLsbD, withBit_getLsbD, State.regRead]
    by_cases h2 : i = b
    · subst h2
      by_cases h3 : i < s.width.bits
      · have : i < 32 := by omega
        simp [h3, this]
      · simp [h3, State.outReg]
    · simp [h2, State.outReg]
  · have h' : ¬ (q = p ∧ p < s.nports ∧ r = .output ∧ i = b ∧ b < s.width.bits) := fun hh => h ⟨hh.1, hh.2.1, hh.2.2.1⟩
    simp [h, h']

/-- A bit of `DIR[q]` after a single-bit write (R66). -/
theorem dirReg_bitWrite_getLsbD (s : State) (p q : Nat) (r : Reg) (b i : Nat) (e : Bool) :
    ((s.bitWrite p r b e).dirReg q).getLsbD i =
      if q = p ∧ p < s.nports ∧ r = .direction ∧ i = b ∧ b < s.width.bits then e else (s.dirReg q).getLsbD i := by
  have hw := Width.bits_le s.width
  unfold State.bitWrite
  rw [dirReg_regWrite]
  by_cases h : q = p ∧ p < s.nports ∧ r = .direction
  · obtain ⟨rfl, hp, rfl⟩ := h
    simp only [hp, true_and, and_true, if_true, trunc_getLsbD, withBit_getLsbD, State.regRead]
    by_cases h2 : i = b
    · subst h2
      by_cases h3 : i < s.width.bits
      · have : i < 32 := by omega
        simp [h3, this]
      · simp [h3, State.dirReg]
    · simp [h2, State.dirReg]
  · have h' : ¬ (q = p ∧ p < s.nports ∧ r = .direction ∧ i = b ∧ b < s.width.bits) := fun hh => h ⟨hh.1, hh.2.1, hh.2.2.1⟩
    simp [h, h']

/-- A pad the block drives shows its `OUT` bit, whatever stands on the pads (R62). -/
theorem padLevel_driven (s : State) (pad : Pad) (h : s.padOe pad = true) : s.padLevel pad = s.padOut pad := by
  simp only [State.padOe] at h
  simp [State.padLevel, State.padWord, State.padOut, h]

/-- A pad the block does not drive shows `EXT` (R62). -/
theorem padLevel_undriven (s : State) (pad : Pad) (h : s.padOe pad = false) :
    s.padLevel pad = (s.extWord pad.port).getLsbD pad.bit := by
  simp only [State.padOe] at h
  have hw := Width.bits_le s.width
  simp only [State.padLevel, State.padWord, BitVec.getLsbD_or, BitVec.getLsbD_and, h, Bool.and_false, Bool.false_or,
    trunc_getLsbD, BitVec.getLsbD_not, State.extWord]
  by_cases h2 : pad.bit < s.width.bits
  · have : pad.bit < 32 := by omega
    simp [h2, this]
  · simp [h2]

end Sys2Proof.Machine
end

