-- ==== Sys2Proof/Laws/Kept.lean ====
section
/-!
SUPPORT. The induction over everything the machine can do, packaged once: a relation between states that every single
operation keeps is kept by a boundary, a command and a step, whatever the foreign context and the environment do.
-/

namespace Sys2Proof.Machine

open Sys2Proof

/-- What a relation between states must keep: `R` from a state to a later one, `Z` to the state a reset leaves. -/
structure Kept (R Z : State → State → Prop) : Prop where
  refl : ∀ s, R s s
  trans : ∀ {a b c}, R a b → R b c → R a c
  elapse : ∀ s, R s (elapse s)
  uop : ∀ c u s, R s (doUop c u s)
  internal : ∀ c n s, R s (doInternal c n s)
  accept : ∀ c i s p, planOf i s = .run p → R s (accept c i p.bind s)
  finish : ∀ c sel s, R s (finish c sel s)
  refuse : ∀ c f s, R s (refuse c f s)
  inputs : ∀ (s : State) (cmds : List CmdWord) (foreign : List (List CmdWord)),
    R s { s with cmds := cmds, foreign := foreign }
  reset : ∀ s, resetDue s = true → Z s ((blockReset (Machine.elapse s)).observe none)
  after : ∀ {a b c}, R a b → Z b c → Z a c

/-- Where a stretch of work may end. -/
def Flow.ends (R Z : State → State → Prop) (s : State) : Flow → Prop
  | .live t => R s t
  | .reset t => Z s t

variable {R Z : State → State → Prop}

theorem Flow.ends_bind (K : Kept R Z) {s : State} {x : Flow} {f : State → Flow} (hx : x.ends R Z s)
    (hf : ∀ t, (f t).ends R Z t) : (x.bind f).ends R Z s := by
  cases x with
  | reset t => exact hx
  | live t =>
    have h := hf t
    simp only [Flow.bind]
    cases hft : f t with
    | live u => rw [hft] at h; exact K.trans hx h
    | reset u => rw [hft] at h; exact K.after hx h

theorem Flow.ends_from (K : Kept R Z) {s u : State} {x : Flow} (hsu : R s u) (hx : x.ends R Z u) : x.ends R Z s := by
  cases x with
  | live t => exact K.trans hsu hx
  | reset t => exact K.after hsu hx

theorem runActs_ends (K : Kept R Z) (c : Ctx) (hook : State → Flow) (hh : ∀ s, (hook s).ends R Z s) (acts : List Act)
    (s : State) : (runActs c hook acts s).ends R Z s := by
  induction acts generalizing s with
  | nil => exact K.refl s
  | cons a acts ih =>
    cases a with
    | uop u => exact Flow.ends_bind K (hh s) fun t => Flow.ends_from K (K.uop c u t) (ih _)
    | int n => exact Flow.ends_from K (K.internal c n s) (ih _)

theorem runCommand_ends (K : Kept R Z) (c : Ctx) (hook : State → Flow) (hh : ∀ s, (hook s).ends R Z s) (i : Instr)
    (s : State) : (runCommand c hook i (planOf i s) s).ends R Z s := by
  cases hp : planOf i s with
  | refuse f => exact K.refuse c f s
  | run p =>
    exact Flow.ends_from K (K.accept c i s p hp)
      (Flow.ends_bind K (runActs_ends K c hook hh _ _) fun t => K.finish c p.result t)

theorem tick_ends (K : Kept R Z) (s : State) : (tick s).ends R Z s := by
  unfold tick
  split
  · next h => exact K.reset s h
  · exact K.elapse s

theorem foreignCommand_ends (K : Kept R Z) (w : CmdWord) (s : State) : (foreignCommand w s).ends R Z s := by
  refine Flow.ends_bind K ?_ (tick_ends K)
  cases decode w with
  | ok i => exact runCommand_ends K .foreign tick (tick_ends K) i s
  | error e => exact K.refuse .foreign .ill s

theorem foreignRun_ends (K : Kept R Z) (ws : List CmdWord) (s : State) : (foreignRun ws s).ends R Z s := by
  induction ws generalizing s with
  | nil => exact K.refl s
  | cons w ws ih => exact Flow.ends_bind K (foreignCommand_ends K w s) ih

theorem foreignAct_ends (K : Kept R Z) (ws : List CmdWord) (s : State) : (foreignAct ws s).ends R Z s := by
  have h := foreignRun_ends K ws s
  unfold foreignAct
  cases hr : foreignRun ws s with
  | reset t => rw [hr] at h; exact h
  | live t =>
    rw [hr] at h
    by_cases ht : t.ie = true
    · simp only [ht, if_true]; exact h
    · simp only [ht, Bool.false_eq_true, if_false]; exact K.refl s

theorem boundary_ends (K : Kept R Z) (s : State) : (boundary s).ends R Z s := by
  refine Flow.ends_bind K (tick_ends K s) fun t => ?_
  split
  · split
    · exact K.refl t
    · next ws rest _ => exact Flow.ends_from K (K.inputs t t.cmds rest) (foreignAct_ends K ws _)
  · exact K.refl t

/-- A command of the main context, as exec has it for every constructor. -/
theorem exec_eq (i : Instr) (s : State) : exec i s = .next (runMain i (planOf i s) s) := by cases i <;> rfl

/-- Every command keeps what every operation keeps (R74). -/
theorem exec_kept (K : Kept R Z) (i : Instr) (s : State) :
    ∃ t, exec i s = .next t ∧ (R s t ∨ Z s t) := by
  refine ⟨_, exec_eq i s, ?_⟩
  have h := runCommand_ends K .main boundary (boundary_ends K) i s
  unfold runMain
  cases hr : runCommand .main boundary i (planOf i s) s with
  | live t => rw [hr] at h; exact .inl h
  | reset t => rw [hr] at h; exact .inr h

/-- Every step answers a next state, and keeps what every operation keeps. -/
theorem step_kept (K : Kept R Z) (s : State) : ∃ t, step s = .next t ∧ (R s t ∨ Z s t) := by
  have hb := boundary_ends K s
  unfold step
  cases h : boundary s with
  | reset t => rw [h] at hb; exact ⟨t, rfl, .inr hb⟩
  | live t =>
    rw [h] at hb
    simp only [takeCommand]
    cases hc : t.cmds with
    | nil => exact ⟨t, rfl, .inl hb⟩
    | cons w rest =>
      have hpop : R t { t with cmds := rest } := K.inputs t rest t.foreign
      dsimp only
      cases decode w with
      | error e => exact ⟨_, rfl, .inl (K.trans hb (K.trans hpop (K.refuse .main .ill _)))⟩
      | ok i =>
        obtain ⟨u, hu, h2⟩ := exec_kept K i { t with cmds := rest }
        refine ⟨u, hu, ?_⟩
        rcases h2 with h2 | h2
        · exact .inl (K.trans hb (K.trans hpop h2))
        · exact .inr (K.after hb (K.after hpop h2))

/-! ### What each operation does to the fields every relation needs -/

@[simp] theorem doUop_resets (c : Ctx) (u : Uop) (s : State) : (doUop c u s).resets = s.resets := by
  cases u with
  | sample p r b inv =>
    simp only [doUop, applyUop, sample, observe_resets, updSeq_resets]
    split <;> simp
  | _ => simp [doUop, applyUop]
@[simp] theorem doInternal_resets (c : Ctx) (n : Internal) (s : State) : (doInternal c n s).resets = s.resets := by
  simp [doInternal]
@[simp] theorem accept_resets (c : Ctx) (i : Instr) (b : Bind) (s : State) : (accept c i b s).resets = s.resets := by
  simp [accept]
@[simp] theorem finish_resets (c : Ctx) (sel : ResultSel) (s : State) : (finish c sel s).resets = s.resets := by
  simp [finish]

theorem noReset_resetDue {s : State} (h : s.noReset = true) : resetDue s = false := by
  cases hr : s.resets with
  | nil => simp [resetDue, hr]
  | cons r rs => simp [State.noReset, hr] at h; simp [resetDue, hr, h.1]

theorem noReset_elapse {s : State} (h : s.noReset = true) : (elapse s).noReset = true := by
  cases hr : s.resets with
  | nil => simp [State.noReset, hr]
  | cons r rs => simp [State.noReset, hr] at h; simpa [State.noReset, hr] using h.2

/-- Where reset is not applied at any coming boundary it is not applied later, and nothing is abandoned. -/
theorem noReset_kept : Kept (fun s t => s.noReset = true → t.noReset = true) (fun s _ => ¬ s.noReset = true) where
  refl _ h := h
  trans h1 h2 h := h2 (h1 h)
  elapse _ h := noReset_elapse h
  uop c u s h := by simpa [State.noReset] using h
  internal c n s h := by simpa [State.noReset] using h
  accept c i s p _ h := by simpa [State.noReset] using h
  finish c sel s h := by simpa [State.noReset] using h
  refuse c f s h := by simpa [State.noReset] using h
  inputs s cmds foreign h := by simpa [State.noReset] using h
  reset s h hn := by simp [noReset_resetDue hn] at h
  after h1 h2 h := h2 (h1 h)

/-- A relation that every operation keeps is kept together with the absence of a reset. -/
theorem Kept.noReset (K : Kept R Z) :
    Kept (fun s t => R s t ∧ (s.noReset = true → t.noReset = true)) (fun s _ => ¬ s.noReset = true) where
  refl s := ⟨K.refl s, noReset_kept.refl s⟩
  trans h1 h2 := ⟨K.trans h1.1 h2.1, noReset_kept.trans h1.2 h2.2⟩
  elapse s := ⟨K.elapse s, noReset_kept.elapse s⟩
  uop c u s := ⟨K.uop c u s, noReset_kept.uop c u s⟩
  internal c n s := ⟨K.internal c n s, noReset_kept.internal c n s⟩
  accept c i s p h := ⟨K.accept c i s p h, noReset_kept.accept c i s p h⟩
  finish c sel s := ⟨K.finish c sel s, noReset_kept.finish c sel s⟩
  refuse c f s := ⟨K.refuse c f s, noReset_kept.refuse c f s⟩
  inputs s cmds foreign := ⟨K.inputs s cmds foreign, noReset_kept.inputs s cmds foreign⟩
  reset s h := noReset_kept.reset s h
  after h1 h2 h := h2 (h1.2 h)

/-- Without a reset, every step keeps what every operation keeps. -/
theorem step_kept_of_noReset (K : Kept R Z) (s : State) (h : s.noReset = true) : ∃ t, step s = .next t ∧ R s t := by
  obtain ⟨t, ht, h1 | h2⟩ := step_kept K.noReset s
  · exact ⟨t, ht, h1.1⟩
  · exact absurd h h2

/-- Without a reset, every command keeps what every operation keeps. -/
theorem exec_kept_of_noReset (K : Kept R Z) (i : Instr) (s : State) (h : s.noReset = true) :
    ∃ t, exec i s = .next t ∧ R s t := by
  obtain ⟨t, ht, h1 | h2⟩ := exec_kept K.noReset i s
  · exact ⟨t, ht, h1.1⟩
  · exact absurd h h2

/-- Without a reset, a boundary goes on. -/
theorem boundary_live (s : State) (h : s.noReset = true) : ∃ t, boundary s = .live t ∧ t.noReset = true := by
  have hb := boundary_ends noReset_kept s
  cases hx : boundary s with
  | live t => rw [hx] at hb; exact ⟨t, rfl, hb h⟩
  | reset t => rw [hx] at hb; exact absurd h hb

end Sys2Proof.Machine
end

