-- ==== Sys2Proof/Laws/Calm.lean ====
section
/-!
SUPPORT. Commands that neither reset nor the foreign context disturbs: each boundary then lets only the world go on, and the
block itself (`State.apart`) goes through the command's actions as if alone.
-/

namespace Sys2Proof.Machine

open Sys2Proof

/-! ### The block apart from the world -/

@[simp] theorem apart_apart (s : State) : s.apart.apart = s.apart := rfl
@[simp] theorem apart_observe (b : Option Ctx) (s : State) : (s.observe b).apart = s.apart := rfl
@[simp] theorem apart_elapse (s : State) : (elapse s).apart = s.apart := rfl
@[simp] theorem apart_regWrite (s : State) (p : Nat) (r : Reg) (v : Word) :
    (s.regWrite p r v).apart = s.apart.regWrite p r v := by cases r <;> rfl
@[simp] theorem apart_bitWrite (s : State) (p : Nat) (r : Reg) (b : Nat) (e : Bool) :
    (s.bitWrite p r b e).apart = s.apart.bitWrite p r b e := by cases r <;> rfl
@[simp] theorem apart_setSeq (s : State) (c : Ctx) (q : Option Seq) : (s.setSeq c q).apart = s.apart.setSeq c q := by
  cases c <;> rfl
@[simp] theorem seq_apart (s : State) (c : Ctx) : s.apart.seq c = s.seq c := by cases c <;> rfl
@[simp] theorem apart_updSeq (s : State) (c : Ctx) (f : Seq → Seq) : (s.updSeq c f).apart = s.apart.updSeq c f := by
  simp [State.updSeq]
@[simp] theorem apart_respond (c : Ctx) (r : Response) (s : State) : (respond c r s).apart = respond c r s.apart := by
  cases c <;> rfl
@[simp] theorem apart_setFlag (s : State) (f : Flag) : (s.setFlag f).apart = s.apart.setFlag f := by cases f <;> rfl
@[simp] theorem apart_refuse (c : Ctx) (f : Flag) (s : State) : (refuse c f s).apart = refuse c f s.apart := by
  simp [refuse]
@[simp] theorem apart_applyBind (b : Bind) (s : State) : (applyBind b s).apart = applyBind b s.apart := by cases b <;> rfl
@[simp] theorem apart_acq (c : Ctx) (s : State) : (acq c s).apart = acq c s.apart := by cases c <;> rfl
@[simp] theorem apart_rel (c : Ctx) (s : State) : (rel c s).apart = rel c s.apart := by cases c <;> rfl
@[simp] theorem apart_doInternal (c : Ctx) (n : Internal) (s : State) :
    (doInternal c n s).apart = doInternal c n s.apart := by simp [doInternal]
@[simp] theorem outReg_apart (s : State) (p : Nat) : s.apart.outReg p = s.outReg p := rfl
@[simp] theorem dirReg_apart (s : State) (p : Nat) : s.apart.dirReg p = s.dirReg p := rfl
@[simp] theorem nports_apart (s : State) : s.apart.nports = s.nports := rfl
@[simp] theorem portSlot_apart (s : State) (k : Nat) : s.apart.portSlot k = s.portSlot k := rfl
@[simp] theorem pinSlot_apart (s : State) (k : Nat) : s.apart.pinSlot k = s.pinSlot k := rfl
@[simp] theorem shiftSlot_apart (s : State) (k : Nat) : s.apart.shiftSlot k = s.shiftSlot k := rfl
@[simp] theorem chipSlot_apart (s : State) (k : Nat) : s.apart.chipSlot k = s.chipSlot k := rfl
@[simp] theorem apart_finish (c : Ctx) (sel : ResultSel) (s : State) : (finish c sel s).apart = finish c sel s.apart := by
  cases c <;> cases sel <;> rfl

/-- Acceptance, apart from the world: the descriptor, and the sequencer with its unspecified contents. -/
theorem apart_accept (c : Ctx) (i : Instr) (b : Bind) (s : State) :
    (accept c i b s).apart = (applyBind b s.apart).setSeq c (some (Seq.accepted s.now i)) := by
  cases c <;> cases b <;> rfl

/-! ### Calm boundaries -/

@[simp] theorem apart_calmBoundary (s : State) : (calmBoundary s).apart = s.apart := by
  unfold calmBoundary; split <;> rfl
@[simp] theorem calmBoundary_ie (s : State) : (calmBoundary s).ie = s.ie := by
  unfold calmBoundary; split <;> simp
@[simp] theorem calmBoundary_resets (s : State) : (calmBoundary s).resets = s.resets.tail := by
  unfold calmBoundary; split <;> simp
@[simp] theorem calmBoundary_ext (s : State) : (calmBoundary s).ext = s.ext.tail := by
  unfold calmBoundary; split <;> simp
@[simp] theorem calmBoundary_now (s : State) : (calmBoundary s).now = s.now + 1 := by
  unfold calmBoundary; split <;> simp
@[simp] theorem calmBoundary_seq (s : State) (c : Ctx) : (calmBoundary s).seq c = s.seq c := by
  rw [← seq_apart, apart_calmBoundary, seq_apart]

theorem calm_noReset {s : State} (h : s.calm = true) : s.noReset = true := by
  simp only [State.calm, Bool.and_eq_true] at h; exact h.1

theorem calm_undisturbed {s : State} (h : s.calm = true) : s.undisturbed = true := by
  simp only [State.calm, Bool.and_eq_true] at h; exact h.2

/-- The foreign context, left nothing to do, has nothing to do after its turn. -/
theorem undisturbed_tail {s : State} (h : s.undisturbed = true) (hie : s.ie = true) :
    (s.foreign.tail.all fun ws => ws.isEmpty) = true := by
  simp only [State.undisturbed, hie, Bool.not_true, Bool.false_or] at h
  cases hf : s.foreign with
  | nil => rfl
  | cons ws rest => simp only [hf, List.all_cons, Bool.and_eq_true] at h; exact h.2

/-- What a calm boundary does (R75): the world goes on, nothing else happens. -/
theorem boundary_calm (s : State) (h : s.calm = true) : boundary s = .live (calmBoundary s) := by
  have hr := noReset_resetDue (calm_noReset h)
  have hu := calm_undisturbed h
  unfold boundary tick calmBoundary
  simp only [hr, Bool.false_eq_true, if_false, Flow.bind, elapse_ie, elapse_foreign]
  by_cases hie : s.ie = true
  · simp only [hie, if_true]
    cases hf : s.foreign with
    | nil => simp [elapse, State.observe, hf, hie]
    | cons ws rest =>
      simp only [State.undisturbed, hie, Bool.not_true, Bool.false_or, hf, List.all_cons, Bool.and_eq_true,
        List.isEmpty_iff] at hu
      simp [hu.1, foreignAct, foreignRun]
  · simp [hie]

/-- A boundary goes by calmly, and what is to come stays calm. -/
theorem calm_calmBoundary (s : State) (h : s.calm = true) : (calmBoundary s).calm = true := by
  have h1 : (calmBoundary s).noReset = true := by
    have := noReset_elapse (calm_noReset h)
    simpa [State.noReset] using this
  have h2 : (calmBoundary s).undisturbed = true := by
    by_cases hie : s.ie = true
    · have := undisturbed_tail (calm_undisturbed h) hie
      simp only [State.undisturbed, calmBoundary, hie, if_true]
      simpa using Or.inr this
    · simp [State.undisturbed, hie]
  simp [State.calm, h1, h2]

/-- An operation that touches neither the inputs nor sets `IE` keeps what is to come calm. -/
theorem calm_of {s t : State} (h : s.calm = true) (hr : t.resets = s.resets) (hf : t.foreign = s.foreign)
    (hie : t.ie = true → s.ie = true) : t.calm = true := by
  have h1 := calm_noReset h
  have h2 := calm_undisturbed h
  simp only [State.calm, State.noReset, State.undisturbed, hr, hf, Bool.and_eq_true] at *
  refine ⟨h1, ?_⟩
  by_cases ht : t.ie = true
  · rw [hie ht] at h2; simpa [ht] using h2
  · simp [ht]

@[simp] theorem doUop_foreign (c : Ctx) (u : Uop) (s : State) : (doUop c u s).foreign = s.foreign := by
  cases u with
  | sample p r b inv =>
    simp only [doUop, applyUop, sample, observe_foreign, updSeq_foreign]
    split <;> simp
  | _ => simp [doUop, applyUop]
@[simp] theorem doInternal_foreign (c : Ctx) (n : Internal) (s : State) : (doInternal c n s).foreign = s.foreign := by
  simp [doInternal]
@[simp] theorem doInternal_ie (c : Ctx) (n : Internal) (s : State) : (doInternal c n s).ie = s.ie := by
  simp [doInternal]
@[simp] theorem accept_foreign (c : Ctx) (i : Instr) (b : Bind) (s : State) : (accept c i b s).foreign = s.foreign := by
  simp [accept]
@[simp] theorem accept_ie (c : Ctx) (i : Instr) (b : Bind) (s : State) : (accept c i b s).ie = s.ie := by
  simp [accept]
theorem calm_accept {s : State} (i : Instr) (b : Bind) (h : s.calm = true) : (accept .main i b s).calm = true :=
  calm_of h (by simp) (by simp) (by simp)

/-! ### A calm run of a command's actions -/

/-- A micro-operation that reads a pad: its value is the world's. -/
def Uop.readsPad : Uop → Bool
  | .regRead _ .input => true
  | .sample _ .input _ _ => true
  | _ => false

/-- A micro-operation of the main context, apart from the world. -/
def uopApart (u : Uop) (a : State) : State := (applyUop .main u a).updSeq .main fun q => { q with pos := q.pos + 1 }

/-- A micro-operation that reads no pad does to the block what it does to the block apart from the world. -/
theorem apart_doUop (u : Uop) (s : State) (h : u.readsPad = false) : (doUop .main u s).apart = uopApart u s.apart := by
  cases u with
  | regRead p r => cases r <;> simp_all [doUop, uopApart, applyUop, Uop.readsPad, State.regRead]
  | sample p r b inv => cases r <;> simp_all [doUop, uopApart, applyUop, Uop.readsPad, State.regRead, sample]
  | regWrite p r v => simp [doUop, uopApart, applyUop]
  | bitWrite p r b l inv => simp [doUop, uopApart, applyUop]
  | acq => simp [doUop, uopApart, applyUop]
  | rel => simp [doUop, uopApart, applyUop]
  | ieWrite v => simp [doUop, uopApart, applyUop]; rfl

/-- The actions of a command that reads no pad, apart from the world. -/
def actsApart : List Act → State → State
  | [], a => a
  | .uop u :: acts, a => actsApart acts (uopApart u a)
  | .int n :: acts, a => actsApart acts (doInternal .main n a)

/-- The foreign context is held off at each boundary of these actions: it has nothing to do (`silent`), or `IE = 0`. -/
def heldOff (silent : Bool) : List Act → State → Bool
  | [], _ => true
  | .uop u :: acts, a => (silent || !a.ie) && (!u.readsPad) && heldOff silent acts (uopApart u a)
  | .int n :: acts, a => heldOff silent acts (doInternal .main n a)

@[simp] theorem actsApart_append (xs ys : List Act) (a : State) :
    actsApart (xs ++ ys) a = actsApart ys (actsApart xs a) := by
  induction xs generalizing a with
  | nil => rfl
  | cons x xs ih => cases x <;> simp [actsApart, ih]

theorem heldOff_append (silent : Bool) (xs ys : List Act) (a : State) :
    heldOff silent (xs ++ ys) a = (heldOff silent xs a && heldOff silent ys (actsApart xs a)) := by
  induction xs generalizing a with
  | nil => simp [heldOff, actsApart]
  | cons x xs ih => cases x <;> simp [heldOff, actsApart, ih, Bool.and_assoc]

@[simp] theorem performed_append (xs ys : List Act) (s : State) :
    performed (xs ++ ys) s = performed ys (performed xs s) := by
  induction xs generalizing s with
  | nil => rfl
  | cons x xs ih => cases x <;> simp [performed, ih]

/-- Actions that read no pad, performed with no boundary between them: apart from the world they do what they do alone. -/
theorem apart_performed (acts : List Act) (s : State) (h : ∀ u, .uop u ∈ acts → u.readsPad = false) :
    (performed acts s).apart = actsApart acts s.apart := by
  induction acts generalizing s with
  | nil => rfl
  | cons x acts ih =>
    have hr : ∀ u, .uop u ∈ acts → u.readsPad = false := fun u hu => h u (List.mem_cons_of_mem _ hu)
    cases x with
    | int n => simp [performed, actsApart, ih _ hr]
    | uop u => simp [performed, actsApart, ih _ hr, apart_doUop u s (h u List.mem_cons_self)]

/-- A calm run of actions that read no pad: it goes on to its end, and apart from the world its end is that of the actions
alone. -/
theorem runActs_calm (acts : List Act) (s : State) (hr : s.noReset = true)
    (hh : heldOff (s.foreign.all fun ws => ws.isEmpty) acts s.apart = true) :
    ∃ t, runActs .main boundary acts s = .live t ∧ t.apart = actsApart acts s.apart ∧ t.noReset = true := by
  induction acts generalizing s with
  | nil => exact ⟨s, rfl, rfl, hr⟩
  | cons x acts ih =>
    cases x with
    | int n =>
      have := ih (doInternal .main n s) (by simpa [State.noReset] using hr) (by simpa [heldOff] using hh)
      simpa [runActs, actsApart] using this
    | uop u =>
      simp only [heldOff, Bool.and_eq_true, Bool.or_eq_true, Bool.not_eq_true', apart_ie] at hh
      obtain ⟨⟨hq, hu⟩, hrest⟩ := hh
      have hc : s.calm = true := by
        simp only [State.calm, State.undisturbed, hr, Bool.true_and, Bool.or_eq_true, Bool.not_eq_true']
        exact hq.symm
      have hb := boundary_calm s hc
      have hap : (doUop .main u (calmBoundary s)).apart = uopApart u s.apart := by
        rw [apart_doUop _ _ hu, apart_calmBoundary]
      have hr' : (doUop .main u (calmBoundary s)).noReset = true := by
        have := calm_noReset (calm_calmBoundary s hc)
        simpa [State.noReset] using this
      have hsil : (s.foreign.all fun ws => ws.isEmpty) = true →
          ((doUop .main u (calmBoundary s)).foreign.all fun ws => ws.isEmpty) = true := by
        intro hs
        simp only [doUop_foreign, calmBoundary]
        split
        · cases hf : s.foreign with
          | nil => simp
          | cons ws rest => rw [hf] at hs; simp only [List.all_cons, Bool.and_eq_true] at hs; exact hs.2
        · simpa using hs
      have hmono : ∀ (a : State), heldOff (s.foreign.all fun ws => ws.isEmpty) acts a = true →
          heldOff ((doUop .main u (calmBoundary s)).foreign.all fun ws => ws.isEmpty) acts a = true := by
        intro a ha
        cases hsv : (s.foreign.all fun ws => ws.isEmpty) with
        | true => rw [hsil hsv]; rwa [hsv] at ha
        | false =>
          rw [hsv] at ha
          clear ih hrest hq hap hr'
          generalize ((doUop .main u (calmBoundary s)).foreign.all fun ws => ws.isEmpty) = b
          cases b with
          | false => exact ha
          | true =>
            clear hsil
            induction acts generalizing a with
            | nil => rfl
            | cons y ys ihy =>
              cases y with
              | int n => exact ihy _ ha
              | uop v =>
                simp only [heldOff, Bool.and_eq_true] at ha ⊢
                exact ⟨⟨by simp, ha.1.2⟩, ihy _ ha.2⟩
      obtain ⟨t, ht, hta, htr⟩ := ih _ hr' (by rw [hap]; exact hmono _ hrest)
      exact ⟨t, by simpa [runActs, hb, Flow.bind] using ht, by rw [hta, hap]; rfl, htr⟩

end Sys2Proof.Machine
end

