-- ==== Sys2Proof/Laws/Command.lean ====
section
/-!
SUPPORT. What a whole command does, from acceptance to response: refused, without micro-operations, or undisturbed.
-/

namespace Sys2Proof.Machine

open Sys2Proof

/-- The block right after the acceptance of a command of the main context, apart from the world. -/
def acceptApart (i : Instr) (b : Bind) (s : State) : State :=
  (applyBind b s.apart).setSeq .main (some (Seq.accepted s.now i))

/-- A refused command (R232): the flag, `ERR = 1`, `RESULT = 0`, whatever the schedule. -/
theorem exec_refuse (i : Instr) (s : State) (f : Flag) (h : planOf i s = .refuse f) :
    exec i s = .next { s.setFlag f with mainResp := some { result := 0, err := true } } := by
  rw [exec_eq, h]; rfl

/-- A command whose checks pass, where neither reset nor the foreign context acts at its boundaries and it reads no pad:
it responds, and apart from the world it does its actions alone. -/
theorem exec_calm (i : Instr) (s : State) (p : Plan) (hp : planOf i s = .run p) (hc : s.calm = true)
    (hh : heldOff (s.foreign.all fun ws => ws.isEmpty) p.acts (acceptApart i p.bind s) = true) :
    ∃ t, exec i s = .next t ∧ t.apart = finish .main p.result (actsApart p.acts (acceptApart i p.bind s)) := by
  obtain ⟨t, ht, hta, -⟩ := runActs_calm p.acts (accept .main i p.bind s)
    (by simpa [State.noReset] using calm_noReset hc) (by rw [apart_accept, accept_foreign]; exact hh)
  refine ⟨finish .main p.result t, ?_, ?_⟩
  · rw [exec_eq, hp]; simp [runMain, runCommand, ht, Flow.bind, Flow.state]
  · rw [apart_finish, hta, apart_accept]; rfl

/-- Where nothing is in the foreign context's way but its own silence, it is held off throughout. -/
theorem heldOff_silent (acts : List Act) (a : State) (h : ∀ u, .uop u ∈ acts → u.readsPad = false) :
    heldOff true acts a = true := by
  induction acts generalizing a with
  | nil => rfl
  | cons x acts ih =>
    cases x with
    | int n => exact ih _ fun u hu => h u (List.mem_cons_of_mem _ hu)
    | uop u =>
      simp only [heldOff, Bool.true_or, Bool.true_and, Bool.and_eq_true, Bool.not_eq_true']
      exact ⟨h u List.mem_cons_self, ih _ fun v hv => h v (List.mem_cons_of_mem _ hv)⟩

end Sys2Proof.Machine
end

