-- ==== Sys2Proof/Laws/Fields.lean ====
section
/-!
SUPPORT. The fields of a command word (R101): what is read back from a word put together field by field, and what a row's mask
leaves of a field.
-/

namespace Sys2Proof

theorem putField_getLsbD (lo len n i : Nat) :
    (putField lo len n).getLsbD i = (decide (i < 64) && decide (lo ≤ i) && decide (i < lo + len) && n.testBit (i - lo)) := by
  simp only [putField, BitVec.getLsbD_shiftLeft, BitVec.getLsbD_setWidth, BitVec.getLsbD_ofNat]
  by_cases h1 : i < 64
  · by_cases h2 : i < lo
    · have : ¬ lo ≤ i := by omega
      simp [h2, this]
    · have h4 : lo ≤ i := by omega
      have h5 : i - lo < 64 := by omega
      by_cases h3 : i < lo + len
      · have h6 : i - lo < len := by omega
        simp [h1, h2, h3, h4, h5, h6]
      · have h6 : ¬ i - lo < len := by omega
        simp [h3, h6]
  · simp [h1]

@[simp] theorem putData_getLsbD (v : Word) (i : Nat) : (putData v).getLsbD i = v.getLsbD i := by
  simp only [putData, BitVec.getLsbD_setWidth]
  by_cases h : i < 64
  · simp [h]
  · simp [h, BitVec.getLsbD_of_ge v i (by omega)]

/-- A field of two words laid over each other. -/
theorem fieldAt_or (x y : CmdWord) (lo len : Nat) : fieldAt (x ||| y) lo len = fieldAt x lo len ||| fieldAt y lo len := by
  simp [fieldAt, BitVec.extractLsb'_or]

@[simp] theorem flagAt_or (x y : CmdWord) (b : Nat) : flagAt (x ||| y) b = (flagAt x b || flagAt y b) := by
  simp [flagAt]

/-- A field read back where it was put. -/
theorem fieldAt_putField_self (lo len n : Nat) (h : lo + len ≤ 64) (hn : n < 2 ^ len) :
    fieldAt (putField lo len n) lo len = n := by
  apply Nat.eq_of_testBit_eq
  intro i
  simp only [fieldAt, BitVec.testBit_toNat, BitVec.getLsbD_extractLsb', putField_getLsbD]
  by_cases h1 : i < len
  · have h2 : lo + i < 64 := by omega
    simp [h1, h2]
  · have : n.testBit i = false := Nat.testBit_lt_two_pow (lt_of_lt_of_le hn (Nat.pow_le_pow_right (by omega) (by omega)))
    simp [h1, this]

/-- A field reads 0 in a word put together elsewhere. -/
theorem fieldAt_putField_apart (lo len n lo' len' : Nat) (hd : lo + len ≤ lo' ∨ lo' + len' ≤ lo) :
    fieldAt (putField lo len n) lo' len' = 0 := by
  apply Nat.eq_of_testBit_eq
  intro i
  simp only [fieldAt, BitVec.testBit_toNat, BitVec.getLsbD_extractLsb', putField_getLsbD, Nat.zero_testBit]
  by_cases h1 : i < len'
  · have : ¬ (lo ≤ lo' + i ∧ lo' + i < lo + len) := by omega
    simp only [not_and_or] at this
    rcases this with h2 | h2 <;> simp [h2]
  · simp [h1]

/-- DATA is apart from every field above it. -/
theorem fieldAt_putData_above (v : Word) (lo len : Nat) (h : 32 ≤ lo) : fieldAt (putData v) lo len = 0 := by
  apply Nat.eq_of_testBit_eq
  intro i
  simp only [fieldAt, BitVec.testBit_toNat, BitVec.getLsbD_extractLsb', putData_getLsbD, Nat.zero_testBit]
  rw [BitVec.getLsbD_of_ge v (lo + i) (by omega)]; simp

theorem or_and_distrib (x y m : CmdWord) : (x ||| y) &&& m = (x &&& m) ||| (y &&& m) := by
  apply BitVec.eq_of_getLsbD_eq; intro i _
  simp [Bool.and_or_distrib_right]

/-- What a mask leaves of a field it does not select. -/
theorem putField_and_zero (lo len n : Nat) (m : CmdWord) (hm : m.extractLsb' lo len = 0) :
    putField lo len n &&& m = 0 := by
  apply BitVec.eq_of_getLsbD_eq
  intro i hi
  simp only [BitVec.getLsbD_and, putField_getLsbD]
  by_cases h1 : lo ≤ i ∧ i < lo + len
  · have h2 : (m.extractLsb' lo len).getLsbD (i - lo) = false := by rw [hm]; simp
    simp only [BitVec.getLsbD_extractLsb', show i - lo < len by omega, decide_true, Bool.true_and,
      show lo + (i - lo) = i by omega] at h2
    simp [h2]
  · simp only [not_and_or] at h1
    rcases h1 with h2 | h2 <;> simp [h2]

/-- What a mask that does not select DATA leaves of it. -/
theorem putData_and_zero (v : Word) (m : CmdWord) (hm : m.extractLsb' 0 32 = 0) : putData v &&& m = 0 := by
  apply BitVec.eq_of_getLsbD_eq
  intro i hi
  simp only [BitVec.getLsbD_and, putData_getLsbD]
  by_cases h : i < 32
  · have h2 : (m.extractLsb' 0 32).getLsbD i = false := by rw [hm]; simp
    simp only [BitVec.getLsbD_extractLsb', h, decide_true, Bool.true_and, Nat.zero_add] at h2
    simp [h2]
  · rw [BitVec.getLsbD_of_ge v i (by omega)]; simp

/-- DATA read back. -/
theorem dataOf_or_putData (x : CmdWord) (v : Word) (h : x.extractLsb' 0 32 = 0) : dataOf (x ||| putData v) = v := by
  apply BitVec.eq_of_getLsbD_eq
  intro i hi
  have hx : (x.extractLsb' 0 32).getLsbD i = false := by rw [h]; simp
  simp only [BitVec.getLsbD_extractLsb', hi, decide_true, Bool.true_and, Nat.zero_add] at hx
  simp [dataOf, hx, hi]

end Sys2Proof
end

