-- ==== Sys2Proof/Laws/Writes.lean ====
section
/-!
SUPPORT. What each sequence of micro-operations does to the block apart from the world: the locked read-modify-write (R73), a
write through a handle (R175), a direction write (R172), and the rounds of a shift (R195, R197).
-/

namespace Sys2Proof.Machine

open Sys2Proof

/-! ### The locked read-modify-write (R73) -/

/-- The sequencer after a `LockedRMW` that read `v` with `IE = ie`. -/
def afterRMW (v : Word) (ie : Bool) (q : Seq) : Seq := { q with savedIe := ie, tmp := v, pos := q.pos + 4 }

/-- `LockedRMW` (R73): the register takes `f` of its old value; `IE` is as before; the sequencer has moved on. -/
theorem actsApart_lockedRMW (p : Nat) (r : Reg) (f : Src) (a : State) (q : Seq) (h : a.mainSeq = some q) :
    actsApart (lockedRMW p r f) a =
      (a.regWrite p r (f.eval a.width { q with savedIe := a.ie, tmp := a.regRead p r, pos := q.pos + 2 })).setSeq .main
        (some (afterRMW (a.regRead p r) a.ie q)) := by
  cases a; simp only at h; subst h; cases r <;> rfl

theorem heldOff_lockedRMW (silent : Bool) (p : Nat) (r : Reg) (f : Src) (a : State) (hr : r ≠ .input)
    (h : silent = true ∨ a.ie = false) : heldOff silent (lockedRMW p r f) a = true := by
  cases r with
  | input => exact absurd rfl hr
  | output => cases silent <;>
      simp_all [heldOff, lockedRMW, Uop.readsPad, uopApart, applyUop, acq, State.updSeq, State.setSeq, State.seq]
  | direction => cases silent <;>
      simp_all [heldOff, lockedRMW, Uop.readsPad, uopApart, applyUop, acq, State.updSeq, State.setSeq, State.seq]

/-! ### Words with one bit written -/

theorem trunc_withBit_trunc (w : Width) (v : Word) (b : Nat) (e : Bool) (hb : b < w.bits) :
    trunc w (withBit (trunc w v) b e) = withBit (trunc w v) b e := by
  have := Width.bits_le w
  apply BitVec.eq_of_getLsbD_eq
  intro i _
  simp only [trunc_getLsbD, withBit_getLsbD]
  by_cases h : i = b ∧ b < 32
  · obtain ⟨rfl, h32⟩ := h; simp [h32, hb]
  · simp [h]

theorem withBit_withBit (t : Word) (b : Nat) (e e' : Bool) : withBit (withBit t b e) b e' = withBit t b e' := by
  apply BitVec.eq_of_getLsbD_eq
  intro i _
  simp only [withBit_getLsbD]
  split <;> simp_all

theorem withBit_comm (t : Word) (b c : Nat) (e e' : Bool) (h : b ≠ c) :
    withBit (withBit t b e) c e' = withBit (withBit t c e') b e := by
  apply BitVec.eq_of_getLsbD_eq
  intro i _
  simp only [withBit_getLsbD]
  by_cases h1 : i = c ∧ c < 32
  · have h2 : ¬ (i = b ∧ b < 32) := fun hh => h (hh.1.symm.trans h1.1)
    rw [if_pos h1, if_neg h2, if_pos h1]
  · rw [if_neg h1]
    by_cases h2 : i = b ∧ b < 32
    · rw [if_pos h2, if_pos h2]
    · rw [if_neg h2, if_neg h2, if_neg h1]

/-! ### Lines (R175, R178) -/

/-- A valid Output handle, as its Shifter or Chip Driver slot has it (R191, R211). -/
def State.lineOk (s : State) (h : PinHandle) : Bool := h.isOutput && s.pinOk h.pin

/-- A write through a handle, apart from its sequence, is one `BitWrite` (R66, R175). -/
theorem driven_eq_bitWrite (s : State) (p b : Nat) (dyn inv v : Bool) (hb : b < s.width.bits) :
    s.driven { kind := .output dyn inv, pin := .pin p b } v = s.bitWrite p .output b (electrical v inv) := by
  simp only [State.driven, State.bitWrite, State.regWrite, State.regRead, State.outReg, electrical]
  rw [trunc_withBit_trunc _ _ _ _ hb]

@[simp] theorem driven_width (s : State) (h : PinHandle) (v : Bool) : (s.driven h v).width = s.width := by
  unfold State.driven; split <;> rfl
@[simp] theorem driven_ie (s : State) (h : PinHandle) (v : Bool) : (s.driven h v).ie = s.ie := by
  unfold State.driven; split <;> rfl
@[simp] theorem driven_mainSeq (s : State) (h : PinHandle) (v : Bool) : (s.driven h v).mainSeq = s.mainSeq := by
  unfold State.driven; split <;> rfl
@[simp] theorem driven_nports (s : State) (h : PinHandle) (v : Bool) : (s.driven h v).nports = s.nports := by
  unfold State.driven State.nports; split <;> simp
@[simp] theorem driven_pinOk (s : State) (h : PinHandle) (v : Bool) (pin : PinId) :
    (s.driven h v).pinOk pin = s.pinOk pin := by cases pin <;> simp [State.pinOk]
@[simp] theorem driven_lineOk (s : State) (h g : PinHandle) (v : Bool) : (s.driven h v).lineOk g = s.lineOk g := by
  simp [State.lineOk]
@[simp] theorem setSeq_driven (s : State) (c : Ctx) (q : Option Seq) (h : PinHandle) (v : Bool) :
    (s.setSeq c q).driven h v = (s.driven h v).setSeq c q := by
  unfold State.driven; cases c <;> split <;> rfl
@[simp] theorem apart_driven (s : State) (h : PinHandle) (v : Bool) : (s.driven h v).apart = s.apart.driven h v := by
  unfold State.driven; split <;> rfl
@[simp] theorem setSeq_pinOk (s : State) (c : Ctx) (q : Option Seq) (pin : PinId) :
    (s.setSeq c q).pinOk pin = s.pinOk pin := by cases c <;> rfl
@[simp] theorem setSeq_lineOk (s : State) (c : Ctx) (q : Option Seq) (h : PinHandle) :
    (s.setSeq c q).lineOk h = s.lineOk h := by cases c <;> rfl

/-- Only the last write to a pad counts. -/
theorem bitWrite_bitWrite (s : State) (p b : Nat) (e e' : Bool) :
    (s.bitWrite p .output b e).bitWrite p .output b e' = s.bitWrite p .output b e' := by
  by_cases hp : p < s.nports
  · simp only [State.bitWrite, State.regRead]
    rw [outReg_regWrite]
    simp only [hp, true_and, if_true, State.regWrite, List.modify_modify_eq, Function.comp_def]
    simp only [State.outReg, trunc_withBit, withBit_withBit]
  · simp only [State.nports, not_lt] at hp
    simp [State.bitWrite, State.regWrite, List.modify_eq_self hp]

/-- Writes to different pads may change places. -/
theorem bitWrite_comm (s : State) (p b p' b' : Nat) (e e' : Bool) (h : ¬ (p = p' ∧ b = b')) :
    (s.bitWrite p .output b e).bitWrite p' .output b' e' = (s.bitWrite p' .output b' e').bitWrite p .output b e := by
  by_cases hp : p = p'
  · subst hp
    have hb : b ≠ b' := fun hh => h ⟨rfl, hh⟩
    by_cases hn : p < s.nports
    · simp only [State.bitWrite, State.regRead]
      rw [outReg_regWrite, outReg_regWrite]
      simp only [hn, true_and, if_true, State.regWrite, List.modify_modify_eq, Function.comp_def]
      simp only [State.outReg, trunc_withBit, withBit_comm _ _ _ _ _ hb]
    · simp only [State.nports, not_lt] at hn
      simp [State.bitWrite, State.regWrite, List.modify_eq_self hn]
  · have hp' : ¬ p' = p := fun h => hp h.symm
    simp only [State.bitWrite, State.regRead]
    rw [outReg_regWrite, outReg_regWrite]
    simp only [hp, hp', false_and, if_false, State.regWrite]
    rw [List.modify_modify_ne _ _ _ hp]

/-- An Output handle either has no line or writes one bit of `OUT`. -/
theorem lineOk_cases (s : State) (h : PinHandle) (ho : s.lineOk h = true) :
    (h.pin = .noPin ∧ ∀ (t : State) (v : Bool), t.driven h v = t) ∨
      ∃ p b dyn inv, h = { kind := .output dyn inv, pin := .pin p b } ∧ b < s.width.bits ∧
        ∀ (t : State) (v : Bool), t.width = s.width → t.driven h v = t.bitWrite p .output b (electrical v inv) := by
  obtain ⟨kind, pin⟩ := h
  cases pin with
  | noPin => exact .inl ⟨rfl, fun _ _ => rfl⟩
  | pin p b =>
    cases kind with
    | input u => simp [State.lineOk, PinHandle.isOutput] at ho
    | output dyn inv =>
      have hb : b < s.width.bits := by
        simp only [State.lineOk, PinHandle.isOutput, State.pinOk, Bool.true_and, Bool.and_eq_true, decide_eq_true_eq] at ho
        exact ho.2
      exact .inr ⟨p, b, dyn, inv, rfl, hb, fun t v ht => driven_eq_bitWrite _ _ _ _ _ _ (ht ▸ hb)⟩

/-- Of two writes through one handle the last counts. -/
theorem driven_driven (s : State) (h : PinHandle) (v v' : Bool) (ho : s.lineOk h = true) :
    (s.driven h v).driven h v' = s.driven h v' := by
  rcases lineOk_cases s h ho with ⟨-, hn⟩ | ⟨p, b, dyn, inv, -, -, hd⟩
  · simp [hn]
  · rw [hd _ _ (by simp), hd _ _ rfl, hd _ _ rfl, bitWrite_bitWrite]

/-- Where a later write through `h` follows, an earlier one through it does not count, whatever stands between. -/
theorem driven_driven_driven (s : State) (h g : PinHandle) (v v' x : Bool) (ho : s.lineOk h = true)
    (go : s.lineOk g = true) : ((s.driven h v).driven g x).driven h v' = (s.driven g x).driven h v' := by
  rcases lineOk_cases s h ho with ⟨-, hn⟩ | ⟨p, b, dyn, inv, -, -, hd⟩
  · simp [hn]
  · rcases lineOk_cases s g go with ⟨-, gn⟩ | ⟨p', b', dyn', inv', -, -, gd⟩
    · simp only [gn]; exact driven_driven s h v v' ho
    · rw [hd _ v' (by simp), gd _ x (by simp), hd _ v rfl, hd _ v' (by simp), gd _ x rfl]
      by_cases hpad : p = p' ∧ b = b'
      · obtain ⟨rfl, rfl⟩ := hpad; simp only [bitWrite_bitWrite]
      · rw [bitWrite_comm _ _ _ _ _ _ _ hpad, bitWrite_bitWrite]

/-! ### A write through a handle (R175) -/

/-- A sequencer has moved on without touching what a shift keeps in it. -/
def Seq.moved (q q' : Seq) : Prop :=
  q'.cmd = q.cmd ∧ q'.acc = q.acc ∧ q'.smask = q.smask ∧ q'.idx = q.idx ∧ q'.val = q.val ∧ q'.samp = q.samp

theorem Seq.moved_refl (q : Seq) : q.moved q := ⟨rfl, rfl, rfl, rfl, rfl, rfl⟩

theorem Seq.moved_trans {a b c : Seq} (h : a.moved b) (h' : b.moved c) : a.moved c := by
  obtain ⟨h1, h2, h3, h4, h5, h6⟩ := h
  obtain ⟨g1, g2, g3, g4, g5, g6⟩ := h'
  exact ⟨g1.trans h1, g2.trans h2, g3.trans h3, g4.trans h4, g5.trans h5, g6.trans h6⟩

theorem Level.eval_moved {q q' : Seq} (h : q.moved q') (v : Level) : v.eval q' = v.eval q := by
  obtain ⟨h1, h2, h3, h4, h5, h6⟩ := h
  cases v <;> simp [Level.eval, *]

/-- A write through a valid Output handle puts its value on the line and changes nothing else of the block (R175). -/
theorem actsApart_writeThrough (h : PinHandle) (v : Level) (a : State) (q : Seq) (hq : a.mainSeq = some q)
    (ho : a.lineOk h = true) :
    ∃ q', q.moved q' ∧ actsApart (writeThrough h v) a = (a.driven h (v.eval q)).setSeq .main (some q') := by
  rcases lineOk_cases a h ho with ⟨hn, hd⟩ | ⟨p, b, dyn, inv, rfl, hb, hd⟩
  · refine ⟨q, q.moved_refl, ?_⟩
    have : writeThrough h v = [] := by unfold writeThrough; simp [hn]
    rw [this, hd]; simp [actsApart, State.setSeq, ← hq]
  · rw [hd _ _ rfl]
    cases dyn with
    | false =>
      refine ⟨{ q with pos := q.pos + 1 }, ⟨rfl, rfl, rfl, rfl, rfl, rfl⟩, ?_⟩
      simp [writeThrough, actsApart, uopApart, applyUop, State.updSeq, State.seq, State.setSeq, hq, State.bitWrite,
        State.regWrite]
    | true =>
      refine ⟨afterRMW (a.outReg p) a.ie q, ⟨rfl, rfl, rfl, rfl, rfl, rfl⟩, ?_⟩
      simp only [writeThrough]
      rw [actsApart_lockedRMW _ _ _ _ _ hq]
      have : v.eval { q with savedIe := a.ie, tmp := a.regRead p .output, pos := q.pos + 2 } = v.eval q :=
        Level.eval_moved ⟨rfl, rfl, rfl, rfl, rfl, rfl⟩ v
      simp only [Src.eval, this]; rfl

theorem heldOff_writeThrough (silent : Bool) (h : PinHandle) (v : Level) (a : State) (hs : silent = true ∨ a.ie = false) :
    heldOff silent (writeThrough h v) a = true := by
  unfold writeThrough
  split
  · rfl
  · rfl
  · cases silent <;> simp_all [heldOff, Uop.readsPad]
  · exact heldOff_lockedRMW _ _ _ _ _ (by simp) hs

/-- One pulse leaves the complement of its value on the line (R180). -/
theorem actsApart_pulseThrough (h : PinHandle) (v : Bool) (a : State) (q : Seq) (hq : a.mainSeq = some q)
    (ho : a.lineOk h = true) :
    ∃ q', q.moved q' ∧ actsApart (pulseThrough h v) a = (a.driven h (!v)).setSeq .main (some q') := by
  obtain ⟨q1, h1, e1⟩ := actsApart_writeThrough h (.const v) a q hq ho
  obtain ⟨q2, h2, e2⟩ := actsApart_writeThrough h (.const (!v)) ((a.driven h v).setSeq .main (some q1)) q1 rfl
    (by simpa using ho)
  refine ⟨q2, Seq.moved_trans h1 h2, ?_⟩
  simp only [pulseThrough, actsApart_append, e1, Level.eval] at e2 ⊢
  rw [e2]; simp [driven_driven _ _ _ _ ho]

theorem heldOff_pulseThrough (silent : Bool) (h : PinHandle) (v : Bool) (a : State) (q : Seq) (hq : a.mainSeq = some q)
    (ho : a.lineOk h = true) (hs : silent = true ∨ a.ie = false) : heldOff silent (pulseThrough h v) a = true := by
  obtain ⟨q1, h1, e1⟩ := actsApart_writeThrough h (.const v) a q hq ho
  simp only [pulseThrough, heldOff_append, heldOff_writeThrough silent h _ a hs, Bool.true_and]
  rw [e1]
  exact heldOff_writeThrough _ _ _ _ (by simpa using hs)

/-! ### The rounds of SHIFT.OUT (R197) -/

/-- The sequencer's mask `n` rounds on. -/
def maskAfter (order : BitOrder) (nbits : Nat) : Nat → Word → Word
  | 0, m => m
  | n + 1, m => maskAfter order nbits n (nextMask order nbits m)

/-- `n + 1` rounds of SHIFT.OUT leave the last bit sent on the data line and the clock line low. -/
theorem actsApart_shiftOutRounds (d c : PinHandle) (nbits : Nat) (order : BitOrder) (n : Nat) (a : State) (q : Seq)
    (hq : a.mainSeq = some q) (hd : a.lineOk d = true) (hc : a.lineOk c = true) :
    ∃ q', q'.val = q.val ∧ actsApart (repeatActs (n + 1) (shiftOutRound d c nbits order)) a =
      ((a.driven d ((q.val &&& maskAfter order nbits n q.smask) != 0)).driven c false).setSeq .main (some q') := by
  induction n generalizing a q with
  | zero =>
    obtain ⟨q1, h1, e1⟩ := actsApart_writeThrough d .dataBit a q hq hd
    obtain ⟨q2, h2, e2⟩ := actsApart_pulseThrough c true ((a.driven d (Level.dataBit.eval q)).setSeq .main (some q1)) q1 rfl
      (by simpa using hc)
    refine ⟨{ q2 with smask := nextMask order nbits q2.smask, idx := q2.idx + 1 }, by rw [h2.2.2.2.2.1, h1.2.2.2.2.1], ?_⟩
    simp only [repeatActs, List.append_nil, shiftOutRound, actsApart_append, e1, e2]
    simp [actsApart, doInternal, State.updSeq, Level.eval, maskAfter]
  | succ n ih =>
    obtain ⟨q1, h1, e1⟩ := actsApart_writeThrough d .dataBit a q hq hd
    obtain ⟨q2, h2, e2⟩ := actsApart_pulseThrough c true ((a.driven d (Level.dataBit.eval q)).setSeq .main (some q1)) q1 rfl
      (by simpa using hc)
    have hm := Seq.moved_trans h1 h2
    obtain ⟨q3, h3, e3⟩ := ih
      (((a.driven d (Level.dataBit.eval q)).driven c false).setSeq .main
        (some { q2 with smask := nextMask order nbits q2.smask, idx := q2.idx + 1 }))
      { q2 with smask := nextMask order nbits q2.smask, idx := q2.idx + 1 } rfl (by simpa using hd) (by simpa using hc)
    refine ⟨q3, by rw [h3]; exact hm.2.2.2.2.1, ?_⟩
    rw [repeatActs, actsApart_append]
    have : actsApart (shiftOutRound d c nbits order) a =
        ((a.driven d (Level.dataBit.eval q)).driven c false).setSeq .main
          (some { q2 with smask := nextMask order nbits q2.smask, idx := q2.idx + 1 }) := by
      simp only [shiftOutRound, actsApart_append, e1, e2]
      simp [actsApart, doInternal, State.updSeq, Level.eval]
    rw [this, e3]
    simp only [setSeq_driven, setSeq_setSeq, maskAfter, hm.2.2.1, hm.2.2.2.2.1]
    rw [driven_driven_driven _ _ _ _ _ _ hd hc, driven_driven_driven _ _ _ _ _ _ hc (by simpa using hd)]

end Sys2Proof.Machine
end

