-- ==== Sys2Proof/Tests/Slice0.lean ====
section
/-!
SUPPORT. Tests of the model on the spec's own words, examples and vectors (R119, section 95), and for every statement of
Certificates/Slice0/Obligations.lean that has hypotheses a state and operands that meet them together.
-/

namespace Sys2Proof.Tests

open Sys2Proof Sys2Proof.Machine

set_option Elab.async false

/-! ### Form (WellFormed): a term that each check refuses -/

theorem test_wf_slot : (Instr.portEnout 255).wf = true ∧ (Instr.portEnout 256).wf = false := by decide
theorem test_wf_port : (Instr.regRd 255 .output).wf = true ∧ (Instr.regRd 256 .output).wf = false
    ∧ (Instr.regWr 256 .output 0).wf = false := by decide
theorem test_wf_portBind : (Instr.portBind 0 0 .writing 63 63).wf = true ∧ (Instr.portBind 0 0 .writing 64 1).wf = false
    ∧ (Instr.portBind 0 0 .writing 0 64).wf = false ∧ (Instr.portBind 0 256 .writing 0 1).wf = false
    ∧ (Instr.portBind 256 0 .writing 0 1).wf = false := by decide
theorem test_wf_pin : (Instr.pinBindin 0 (.pin 255 254) false).wf = true ∧ (Instr.pinBindin 0 (.pin 255 255) false).wf = false
    ∧ (Instr.pinBindin 0 (.pin 256 0) false).wf = false ∧ (Instr.pinBindout 0 (.pin 0 256) false false false).wf = false
    ∧ (Instr.pinBindout 256 .noPin false false false).wf = false := by decide
theorem test_wf_shiftCfg : (Instr.shiftCfg 0 .shiftIn 256 0 8 .lsbFirst).wf = false
    ∧ (Instr.shiftCfg 0 .shiftIn 0 256 8 .lsbFirst).wf = false ∧ (Instr.shiftCfg 0 .shiftIn 0 0 64 .lsbFirst).wf = false
    ∧ (Instr.shiftCfg 256 .shiftIn 0 0 8 .lsbFirst).wf = false := by decide
theorem test_wf_chipCfg : (Instr.chipCfg 0 256 0 0 true).wf = false ∧ (Instr.chipCfg 0 0 256 0 true).wf = false
    ∧ (Instr.chipCfg 0 0 0 256 true).wf = false ∧ (Instr.chipCfg 256 0 0 0 true).wf = false := by decide
theorem test_wf_slots : (Instr.portEnin 256).wf = false ∧ (Instr.portRead 256).wf = false ∧ (Instr.portWrite 256 0).wf = false
    ∧ (Instr.pinRead 256).wf = false ∧ (Instr.pinWrite 256 true).wf = false ∧ (Instr.pinToggle 256).wf = false
    ∧ (Instr.pinPulse 256 true).wf = false ∧ (Instr.shiftIn 256).wf = false ∧ (Instr.shiftOut 256 0).wf = false
    ∧ (Instr.chipWrite 256 0).wf = false ∧ (Instr.chipEnable 256).wf = false ∧ (Instr.chipDisable 256).wf = false := by decide

/-! ### Decoding: a word of every command, written out from its format (R101 to R111; the words of R119 and section 95) -/

theorem test_decode_system :
    decode 0x0000000000000000 = .ok .nop ∧ decode 0x0100000000000000 = .ok .statRd
    ∧ decode 0x0200000000000000 = .ok .ieSet ∧ decode 0x0300000000000000 = .ok .ieClr
    ∧ decode 0x0400010100000000 = .ok (.regRd 1 .output) ∧ decode 0x0400000200000000 = .ok (.regRd 2 .input)
    ∧ decode 0x0400030000000000 = .ok (.regRd 0 .noRegister)
    ∧ decode 0x05000201000001B2 = .ok (.regWr 1 .direction 0x1B2) := by decide +kernel
theorem test_decode_port :
    decode 0x1000010100000302 = .ok (.portBind 0 1 .writing 2 3) ∧ decode 0x1003000300000404 = .ok (.portBind 3 3 .reading 4 4)
    ∧ decode 0x1109000000000000 = .ok (.portEnout 9) ∧ decode 0x1200000000000000 = .ok (.portEnin 0)
    ∧ decode 0x1305000000000000 = .ok (.portRead 5) ∧ decode 0x1403000000000001 = .ok (.portWrite 3 1) := by decide +kernel
theorem test_decode_pin :
    decode 0x2001030000000001 = .ok (.pinBindin 1 (.pin 3 0) true) ∧ decode 0x2000FFFF00000000 = .ok (.pinBindin 0 .noPin false)
    ∧ decode 0x2104020700000007 = .ok (.pinBindout 4 (.pin 2 7) true true true)
    ∧ decode 0x2107020500000004 = .ok (.pinBindout 7 (.pin 2 5) false false true)
    ∧ decode 0x2101FFFE00000000 = .ok (.pinBindout 1 (.pin 255 254) false false false)
    ∧ decode 0x2205000000000000 = .ok (.pinRead 5) ∧ decode 0x2304000000000001 = .ok (.pinWrite 4 true)
    ∧ decode 0x2401000000000000 = .ok (.pinToggle 1) ∧ decode 0x2501000000000001 = .ok (.pinPulse 1 true) := by
  decide +kernel
theorem test_decode_shifter :
    decode 0x3000010000000308 = .ok (.shiftCfg 0 .shiftOut 0 1 8 .msbFirst)
    ∧ decode 0x3001010200000008 = .ok (.shiftCfg 1 .shiftIn 2 1 8 .lsbFirst)
    ∧ decode 0x3103000000000000 = .ok (.shiftIn 3) ∧ decode 0x320200000000000F = .ok (.shiftOut 2 0xF) := by decide +kernel
theorem test_decode_chip :
    decode 0x4000020000000103 = .ok (.chipCfg 0 0 2 3 true) ∧ decode 0x4008020000000002 = .ok (.chipCfg 8 0 2 2 false)
    ∧ decode 0x41000000000000B2 = .ok (.chipWrite 0 0xB2) ∧ decode 0x4200000000000000 = .ok (.chipEnable 0)
    ∧ decode 0x4309000000000000 = .ok (.chipDisable 9) := by decide +kernel
/-- V-SY4, V-SY6 to V-SY9: an unassigned OPC, and a reserved bit in four formats. -/
theorem test_decode_illegal :
    decode 0x0600000000000000 = .error (.unassignedOpcode 6) ∧ decode 0x0001000000000000 = .error (.reservedBits "NOP")
    ∧ decode 0x1400000100000005 = .error (.reservedBits "PORT.WRITE")
    ∧ decode 0x2300000000000002 = .error (.reservedBits "PIN.WRITE")
    ∧ decode 0x0400040000000000 = .error (.reservedBits "REG.RD") := by decide +kernel
theorem test_encode :
    encode (.pinBindout 5 .noPin false false false) = 0x2105FFFF00000000
    ∧ encode (.shiftCfg 0 .shiftOut 0 1 8 .msbFirst) = 0x3000010000000308
    ∧ encode (.regWr 1 .output 0xA5) = 0x05000101000000A5 ∧ encode (.chipCfg 0 0 2 3 true) = 0x4000020000000103 := by
  decide +kernel
/-- R117, with numbers in decimal. -/
theorem test_asm :
    asm (.portBind 0 1 .writing 2 3) = some "port.bind ph0, p1, out, 2, 3"
    ∧ asm (.pinBindout 4 (.pin 2 7) true true true) = some "pin.bindout pn4, p2.7, 1, dyn, inv"
    ∧ asm (.shiftCfg 0 .shiftOut 0 1 8 .msbFirst) = some "shift.cfg sh0, out, pn0, pn1, 8, msb"
    ∧ asm (.chipCfg 0 0 2 3 true) = some "chip.cfg ch0, sh0, pn2, pn3, en" ∧ asm (.regRd 0 .noRegister) = none := by
  decide +kernel

/-! ### A small block -/

/-- The state a step or a command answers. -/
def out (o : Host.Outcome State Fault Refusal) : State :=
  match o with
  | .next t => t
  | _ => State.reset

/-- The block after one step that takes the word `w`. -/
def ran (w : CmdWord) (s : State) : State := out (step { s with cmds := [w] })

/-- RESULT and ERR of the latest command. -/
def resp (s : State) : Option (Word × Bool) := s.mainResp.map fun r => (r.result, r.err)

/-- The block of the tests: `W = 8`, port 0 with four output lines, port 1 with `OUT = 0xA5`, port 3 an input port. -/
def blk : State :=
  { State.reset with
    ports := [⟨0x08, 0x0F⟩, ⟨0xA5, 0xDC⟩, ⟨0xA5, 0x0F⟩, ⟨0x00, 0x00⟩]
    ph := [some ⟨1, .writing, 2, 3⟩, some ⟨1, .writing, 6, 2⟩, some ⟨2, .writing, 0, 8⟩, some ⟨3, .reading, 4, 4⟩,
      none, none, none, some ⟨1, .writing, 7, 1⟩]
    pn := [some ⟨.output false false, .pin 0 0⟩, some ⟨.output false false, .pin 0 1⟩, some ⟨.output true false, .pin 0 2⟩,
      some ⟨.output false true, .pin 0 3⟩, some ⟨.input true, .pin 3 0⟩, some ⟨.output true true, .noPin⟩,
      some ⟨.input false, .noPin⟩, none]
    sh := [some ⟨.shiftOut, 0, 1, 8, .msbFirst⟩, some ⟨.shiftIn, 4, 1, 4, .msbFirst⟩, some ⟨.shiftOut, 5, 5, 32, .lsbFirst⟩,
      some ⟨.shiftIn, 6, 1, 1, .lsbFirst⟩, none, none, none, none]
    ch := [some ⟨0, 2, 3⟩, some ⟨2, 5, 5⟩, none, none, none, none, none, none] }

/-- The same block, the foreign context admitted and with something to do at the coming boundaries. -/
def busy (foreign : List (List CmdWord)) : State := { blk with ie := true, foreign := foreign }

/-- The block with `EXT = 0` on every pad for the next `n` boundaries, as the environment model of a test that looks at pads. -/
def still (n : Nat) (s : State) : State := { s with ext := List.replicate n [0, 0, 0, 0] }

/-! ### System commands -/

/-- V-SY1. -/
theorem test_nop : out (exec .nop blk) = blk.doneWith 0 := by rfl
/-- V-SY4 and V-SY5: STATUS after an illegal word. -/
theorem test_statRd : resp (ran 0x0100000000000000 { blk with ie := true, ill := true }) = some (0x101, false) := by
  decide +kernel
/-- V-SY4: the illegal word itself. -/
theorem test_illegal : resp (ran 0x0600000000000000 blk) = some (0, true) ∧ (ran 0x0600000000000000 blk).ill = true := by
  decide +kernel
/-- V-SY3. -/
theorem test_ieSet : (ran 0x0200000000000000 blk).ie = true := by decide +kernel
/-- V-SY5. -/
theorem test_ieClr : (ran 0x0300000000000000 { blk with ie := true }).ie = false := by decide +kernel
/-- V-SY11: `(0xA5 & 0x0F) | (0x3C & 0xF0)`. -/
theorem test_regRd_in : resp (out (exec (.regRd 2 .input) { blk with ext := List.replicate 2 [0, 0, 0x3C, 0] }))
    = some (0x35, false) := by decide +kernel
/-- V-SY14, V-SY15. -/
theorem test_regRd_refused : resp (ran 0x0400010400000000 blk) = some (0, true)
    ∧ (ran 0x0400030000000000 blk).operr = true := by decide +kernel
/-- V-SY10. -/
theorem test_regWr : (ran 0x05000101000001B2 blk).outReg 1 = 0xB2 := by decide +kernel
/-- V-SY13. -/
theorem test_regWr_in : resp (ran 0x0500000000000001 blk) = some (0, true) ∧ (ran 0x0500000000000001 blk).status = 0x400 := by
  decide +kernel

/-! ### Port commands -/

/-- V-PO13, from `DIR[1] = 0x81`. -/
theorem test_portBind : (out (exec (.portBind 4 1 .writing 2 3) (blk.regWrite 1 .direction 0x81))).dirReg 1 = 0x9D := by
  decide +kernel
/-- V-PO14 to V-PO16: a slot in use, `START + NBITS > W`, `NBITS = 0`. -/
theorem test_portBind_refused : (ran 0x1000010100000800 blk).cfgerr = true ∧ (ran 0x1005010100000306 blk).cfgerr = true
    ∧ (ran 0x1005010100000000 blk).cfgerr = true := by decide +kernel
/-- V-PO26, and the full-width form V-PO28. -/
theorem test_portEnout : (out (exec (.portEnout 0) (blk.regWrite 1 .direction 0x81))).dirReg 1 = 0x9D
    ∧ (out (exec (.portEnout 2) blk)).dirReg 2 = 0xFF := by decide +kernel
/-- V-PO27, and the full-width form V-PO29. -/
theorem test_portEnin : (out (exec (.portEnin 0) (blk.regWrite 1 .direction 0x9D))).dirReg 1 = 0x81
    ∧ (out (exec (.portEnin 2) blk)).dirReg 2 = 0 := by decide +kernel
/-- R158: `OUT[1] = 0xB5` through `start = 2, nbits = 3`. -/
theorem test_portRead_out : resp (out (exec (.portRead 0) (blk.regWrite 1 .output 0xB5))) = some (5, false) := by decide +kernel
/-- V-PO22. -/
theorem test_portRead_in : resp (out (exec (.portRead 3) { blk with ext := List.replicate 2 [0, 0, 0, 0x9E] }))
    = some (9, false) := by decide +kernel
/-- V-PO1, V-PO2, V-PO4. -/
theorem test_portWrite : (ran 0x1400000000000005 blk).outReg 1 = 0xB5 ∧ (ran 0x14000000000000FF blk).outReg 1 = 0xBD
    ∧ (ran 0x14020000000001B2 blk).outReg 2 = 0xB2 := by decide +kernel
/-- V-PO23. -/
theorem test_portWrite_refused : resp (ran 0x1403000000000001 blk) = some (0, true) := by decide +kernel

/-! ### Pin commands -/

/-- V-PI7. -/
theorem test_pinBindin : (out (exec (.pinBindin 7 (.pin 3 0) true) (blk.regWrite 3 .direction 0xFF))).dirReg 3 = 0xFE := by
  decide +kernel
/-- R231: bit 8 where `W = 8`. -/
theorem test_pinBindin_refused : (ran 0x2007030800000000 blk).cfgerr = true := by decide +kernel
/-- V-PI4 and V-PI5, on port 3. -/
theorem test_pinBindout : (out (exec (.pinBindout 7 (.pin 3 6) true true false) blk)).outReg 3 = 0x40
    ∧ (out (exec (.pinBindout 7 (.pin 3 5) false false true) blk)).outReg 3 = 0x20 := by decide +kernel
/-- V-PI3: inverted and dynamic, the pad driven low. -/
theorem test_pinBindout_inv : (out (exec (.pinBindout 7 (.pin 3 7) true true true) blk)).outReg 3 = 0
    ∧ (out (exec (.pinBindout 7 (.pin 3 7) true true true) blk)).dirReg 3 = 0x80 := by decide +kernel
/-- V-PI17, and the no-pin read of V-PI9. -/
theorem test_pinRead : resp (out (exec (.pinRead 4) { blk with ext := List.replicate 2 [0, 0, 0, 0x01] })) = some (1, false)
    ∧ resp (out (exec (.pinRead 5) blk)) = some (0, false) := by decide +kernel
/-- R177: an inverted Output whose `OUT` bit is 1 reads 0. -/
theorem test_pinRead_inv : resp (out (exec (.pinRead 3) blk)) = some (0, false) := by decide +kernel
/-- R176: dynamic, and inverted. -/
theorem test_pinWrite : (ran 0x2302000000000001 blk).outReg 0 = 0x0C ∧ (ran 0x2303000000000001 blk).outReg 0 = 0 := by
  decide +kernel
/-- V-PI19. -/
theorem test_pinWrite_refused : resp (ran 0x2304000000000001 blk) = some (0, true) := by decide +kernel
/-- V-PI24 and V-PI25. -/
theorem test_pinToggle : (out (exec (.pinToggle 2) blk)).outReg 0 = 0x0C ∧ (out (exec (.pinToggle 3) blk)).outReg 0 = 0 := by
  decide +kernel
/-- V-PI28 and V-PI29. -/
theorem test_pinPulse : (out (exec (.pinPulse 0 false) blk)).outReg 0 = 0x09
    ∧ (out (exec (.pinPulse 3 true) blk)).outReg 0 = 0x08 := by decide +kernel

/-! ### Shifter commands -/

/-- R191. -/
theorem test_shiftCfg : (ran 0x3004010000000308 blk).shiftSlot 4 = some ⟨.shiftOut, 0, 1, 8, .msbFirst⟩ := by decide +kernel
/-- V-SH9: `NBITS = 0`, `NBITS = 33`, a data handle of the wrong kind. -/
theorem test_shiftCfg_refused : (ran 0x3004010000000300 blk).cfgerr = true ∧ (ran 0x3004010000000321 blk).cfgerr = true
    ∧ (ran 0x3004010400000308 blk).cfgerr = true := by decide +kernel
/-- The levels of `EXT` that give the samples `1, 0, 1, 1` on pad (3,0): two boundaries to each sample, one after. -/
def samples1011 : List (List Word) :=
  [[], [], [0, 0, 0, 1], [], [], [0, 0, 0, 0], [], [], [0, 0, 0, 1], [], [], [0, 0, 0, 1], []]
/-- V-SH2, `n = 4`, msb, samples 1, 0, 1, 1. -/
theorem test_shiftIn : resp (out (exec (.shiftIn 1) { blk with ext := samples1011 })) = some (0xB, false) := by decide +kernel
/-- V-SH8: a no-pin data line. -/
theorem test_shiftIn_noPin : resp (out (exec (.shiftIn 3) blk)) = some (0, false) := by decide +kernel
/-- V-SH1, `n = 8`, msb, 0xB2 and 0x4D: the data line keeps the last bit, the clock line is low. -/
theorem test_shiftOut : (out (exec (.shiftOut 0 0xB2) blk)).outReg 0 = 0x08
    ∧ (out (exec (.shiftOut 0 0x4D) blk)).outReg 0 = 0x09 := by decide +kernel
/-- V-SH1: the micro-operations of `n = 8` with build-time-bound handles, and the first three. -/
theorem test_shiftOut_uops : uopsOf (.shiftOut 0 0xB2) blk = 24 ∧ uopsOf (.shiftIn 1) blk = 12 := by decide +kernel

/-! ### Chip Driver commands -/

/-- The chip of program P2 on the block's lines: `SR = 0x5A`, `ST = 0xC3` before. -/
def chip595 : Chip :=
  { stages := 8, ser := ⟨0, 0⟩, srclk := ⟨0, 1⟩, rclk := ⟨0, 2⟩, oen := some ⟨0, 3⟩, oenActive := false, wiredEnable := false
    takesNewSer := true, shiftsFirst := true, sr := [false, true, false, true, true, false, true, false]
    st := [true, true, false, false, false, false, true, true], lastSer := false, lastSrclk := false, lastRclk := false }

/-- The chip registers after a command. -/
def chipBits (o : Host.Outcome State Fault Refusal) : Option (List Bool × List Bool) :=
  match (out o).devices with
  | [.chip c] => some (c.sr, c.st)
  | _ => none

/-- 0xB2, bit 0 first. -/
def bitsB2 : List Bool := [false, true, false, false, true, true, false, true]

/-- R211: the inverted enable handle is driven low for `en`. -/
theorem test_chipCfg : (ran 0x4002020000000103 blk).outReg 0 = 0 ∧ (ran 0x4002020000000103 blk).chipSlot 2 = some ⟨0, 2, 3⟩ := by
  decide +kernel
/-- V-CH6: a shift-in unit, and an Input for the latch handle. -/
theorem test_chipCfg_refused : (ran 0x4002020100000103 blk).cfgerr = true ∧ (ran 0x4002040000000103 blk).cfgerr = true := by
  decide +kernel
/-- P2: `SR = ST = 0xB2`. -/
theorem test_chipWrite : chipBits (exec (.chipWrite 0 0xB2) { still 40 blk with devices := [.chip chip595] }) = some (bitsB2, bitsB2) := by
  decide +kernel
/-- P2: with the dynamic latch handle of this block, `8 * 3 + 2 * 4` (V-CH2). -/
theorem test_chipWrite_uops : uopsOf (.chipWrite 0 0xB2) blk = 32 := by decide +kernel
/-- V-CH3. -/
theorem test_chipEnable : (out (exec (.chipEnable 0) blk)).outReg 0 = 0 := by decide +kernel
/-- V-CH3. -/
theorem test_chipDisable : (out (exec (.chipDisable 0) (blk.regWrite 0 .output 0))).outReg 0 = 0x08 := by decide +kernel
/-- R89: the chip's outputs show while its enable line is low, and are undriven while it is high. -/
theorem test_chip_outputs : chip595.outputs (still 1 blk) = none
    ∧ chip595.outputs ((still 1 blk).regWrite 0 .output 0) = some chip595.st := by
  decide +kernel

/-! ### Two contexts, reset, the environments -/

/-- P1: the foreign `port.write ph1, 1` at boundary 0 of the main `port.write ph0, 5`. -/
theorem test_foreign_before : (out (exec (.portWrite 0 5) (busy [[0x1401000000000001]]))).outReg 1 = 0x75 := by decide +kernel
/-- P1: held off at boundaries 1 to 3, it acts at the boundary after the command. -/
theorem test_foreign_after : (boundary (out (exec (.portWrite 0 5) (busy [[], [0x1401000000000001]])))).state.outReg 1 = 0x75 := by
  decide +kernel
/-- P3, same bit: the foreign write between the read and the write of a toggle is overwritten; before the read it is not. -/
theorem test_toggle_interleaved : (out (exec (.pinToggle 3) (busy [[], [0x2303000000000001]]))).outReg 0 = 0
    ∧ (out (exec (.pinToggle 3) (busy [[0x2303000000000001]]))).outReg 0 = 0x08 := by decide +kernel
/-- P3, the sibling's bit: both changes stand. -/
theorem test_sibling : (out (exec (.pinToggle 3) (busy [[], [0x2400000000000000]]))).outReg 0 = 0x01 := by decide +kernel
/-- R76: a foreign sequence that would leave `IE = 0` is not admitted (log entry 3). -/
theorem test_foreign_ie : (boundary (busy [[0x0300000000000000]])).state.ie = true := by decide +kernel
/-- R260: a reset between the `ACQ` and the `REL` of a command abandons it. -/
theorem test_reset_inside :
    (out (exec (.portWrite 0 5) { busy [] with resets := [false, true] })).mainResp = none
    ∧ (out (exec (.portWrite 0 5) { busy [] with resets := [false, true] })).outReg 1 = 0
    ∧ (out (exec (.portWrite 0 5) { busy [] with resets := [false, true] })).ie = false := by decide +kernel

/-- The echo of V-SH6 on the block's lines, data in on pad (3,0), holding the bits a SHIFT.OUT of the main context sent. -/
def echo0 (sent : List Bool) : Echo :=
  { dout := ⟨0, 0⟩, clk := ⟨0, 1⟩, din := ⟨3, 0⟩, main := ⟨false, sent, []⟩, foreign := ⟨false, [], []⟩, newest := .main, lastClk := false }
/-- V-SH6: the bits after SHIFT.OUT. -/
theorem test_echo_out : (out (exec (.shiftOut 0 0xB2) { still 30 blk with devices := [.echo (echo0 [true])] })).devices
    = [.echo (echo0 bitsB2.reverse)] := by decide +kernel
/-- V-SH6, `n = 4`, msb then msb, 0x2. -/
theorem test_echo_in : resp (out (exec (.shiftIn 1) { still 20 blk with devices := [.echo (echo0 [false, false, true, false])] }))
    = some (0x2, false) := by decide +kernel

/-- The block with that echo and a shift-in unit `sh4` on pad (3,5), the foreign context issuing `w` at the seventh boundary. -/
def nested (w : CmdWord) : State :=
  { still 60 blk with
    ie := true, foreign := [[], [], [], [], [], [], [w]], pn := blk.pn.set 7 (some ⟨.input false, .pin 3 5⟩)
    sh := blk.sh.set 4 (some ⟨.shiftIn, 7, 5, 4, .lsbFirst⟩), devices := [.echo (echo0 [false, false, true, false])] }

/-- The responses on the foreign port. -/
def foreignResults (s : State) : List (Word × Bool) := s.foreignResps.map fun r => (r.result, r.err)

/-- R90: a SHIFT.IN of the foreign context on other pads, inside a SHIFT.IN: sample `i` of the latter is still bit `i`. -/
theorem test_echo_nested_in : resp (out (exec (.shiftIn 1) (nested 0x3104000000000000))) = some (0x2, false)
    ∧ foreignResults (out (exec (.shiftIn 1) (nested 0x3104000000000000))) = [(0, false)] := by decide +kernel
/-- R90: a SHIFT.IN of the foreign context on the same data-in line, inside one: each returns the bits from the first on. -/
theorem test_echo_nested_same : resp (out (exec (.shiftIn 1) (nested 0x3101000000000000))) = some (0x2, false)
    ∧ foreignResults (out (exec (.shiftIn 1) (nested 0x3101000000000000))) = [(0x2, false)] := by decide +kernel
/-- R90: a SHIFT.OUT of the foreign context inside a SHIFT.IN does not precede it; a SHIFT.IN after both returns its bits. -/
theorem test_echo_nested_out : resp (out (exec (.shiftIn 1) (nested 0x32000000000000B2))) = some (0x2, false)
    ∧ resp (out (exec (.shiftIn 1) (out (exec (.shiftIn 1) (nested 0x32000000000000B2))))) = some (0xB, false) := by decide +kernel
/-- R90: a SHIFT.OUT of the foreign context on other lines inside a SHIFT.OUT leaves the bits the latter appends. -/
theorem test_echo_nested_other : (out (exec (.shiftOut 0 0xB2) (nested 0x3202000000000005))).devices
    = [.echo { echo0 bitsB2.reverse with foreign := ⟨true, [], []⟩ }] := by decide +kernel
/-- V-SH7: a bare wire gives one level to every sample. -/
theorem test_wire : resp (out (exec (.shiftIn 1) { (still 20 blk).regWrite 0 .output 0x01 with devices := [.wire ⟨0, 0⟩ ⟨3, 0⟩] }))
    = some (0xF, false) := by decide +kernel

/-! ### Reset and the step -/

theorem test_reset : State.reset.status = 0 ∧ State.reset.outReg 3 = 0 ∧ State.reset.nports = 4 ∧ State.reset.wf = true := by
  decide +kernel
theorem test_params : Params.default.wf = true ∧ { Params.default with nports := 256 }.wf = false := by decide
theorem test_first_command : resp (out (step (State.reset.withFetchWord 64 0x0100000000000000))) = some (0, false) := by
  decide +kernel
theorem test_decodeTableWord : decodeTableWord 64 0x4100000000000000 = some (.chipWrite 0 0) := by decide +kernel

/-! ### Witnesses: for each statement with hypotheses, a state and operands that meet them all -/

/-- A calm block with the foreign context admitted and silent, and one with it held off. -/
theorem wit_calm : blk.calm = true ∧ (busy [[], []]).calm = true ∧ { blk with foreign := [[0]] }.calm = true
    ∧ (busy [[0]]).calm = false := by decide +kernel
theorem wit_wf : blk.wf = true ∧ blk.idle = true ∧ (busy [[0]]).wf = true := by decide +kernel
/-- WordDecodesToItsRow: the first and the last row. -/
theorem wit_WordDecodesToItsRow : (∃ r ∈ opcodeMap, (0 : CmdWord) &&& r.mask = r.value)
    ∧ ∃ r ∈ opcodeMap, (0x43FF000000000000 : CmdWord) &&& r.mask = r.value := by decide +kernel
/-- IllegalWordOnlySetsIll. -/
theorem wit_IllegalWord : ∃ s t w rest, boundary s = .live t ∧ t.cmds = w :: rest
    ∧ ∀ r ∈ opcodeMap, w &&& r.mask ≠ r.value :=
  ⟨{ blk with cmds := [0x0600000000000000] }, _, 0x0600000000000000, [], rfl, rfl, by decide +kernel⟩
/-- DecodeOfEncode: every operand of SHIFT.CFG at the top of its field. -/
theorem wit_DecodeOfEncode : (Instr.shiftCfg 255 .shiftOut 255 255 63 .msbFirst).wf = true := by decide
/-- EncodeOfDecode: the last slot of the last row. -/
theorem wit_EncodeOfDecode : decode 0x43FF000000000000 = .ok (.chipDisable 255) := by decide +kernel
/-- StepRunsDecodedCommand. -/
theorem wit_StepRuns : ∃ s t w rest i, boundary s = .live t ∧ t.cmds = w :: rest ∧ decode w = .ok i :=
  ⟨{ blk with cmds := [0x0100000000000000] }, _, 0x0100000000000000, [], .statRd, rfl, rfl, by decide +kernel⟩
theorem wit_Waits : blk.calm = true ∧ blk.cmds = [] := by decide +kernel
theorem wit_ResetInput : resetDue { blk with resets := [true] } = true := by decide
/-- CommandRespondsOrIsReset. -/
theorem wit_CommandResponds : blk.mainSeq = none := by decide
/-- RegRdAnswersTheRegister: each register, at the highest port. -/
theorem wit_RegRd : 3 < blk.nports ∧ regOf .input = some .input ∧ regOf .output = some .output
    ∧ regOf .direction = some .direction := by decide
/-- PortBindBindsAndDirects: the full width from bit 0, and the one top bit. -/
theorem wit_PortBind : 4 < blk.ph.length ∧ blk.portSlot 4 = none ∧ 3 < blk.nports ∧ 1 ≤ 8 ∧ 0 + 8 ≤ blk.width.bits
    ∧ 7 + 1 ≤ blk.width.bits := by decide
/-- PortDirectionFollowsTheMask, PortWriteMergesTheValue, MaskOfAHandle: a handle inside the register, the one top bit, and
the full width. -/
theorem wit_PortHandles : blk.portSlot 0 = some ⟨1, .writing, 2, 3⟩ ∧ blk.portHandleOk ⟨1, .writing, 2, 3⟩ = true
    ∧ blk.portSlot 7 = some ⟨1, .writing, 7, 1⟩ ∧ blk.portHandleOk ⟨1, .writing, 7, 1⟩ = true
    ∧ blk.portSlot 2 = some ⟨2, .writing, 0, 8⟩ ∧ blk.portHandleOk ⟨2, .writing, 0, 8⟩ = true
    ∧ (⟨2, .writing, 0, 8⟩ : PortHandle).full blk.width = true := by decide +kernel
/-- PortReadAnswersTheField: both directions. -/
theorem wit_PortRead : blk.portSlot 0 = some ⟨1, .writing, 2, 3⟩ ∧ blk.portSlot 3 = some ⟨3, .reading, 4, 4⟩ := by decide
/-- MergeBitByBit, FullWidthMergeIsTheValue: values that fit the width, the top and the bottom bit in the mask. -/
theorem wit_Merge : trunc .w8 0xA5 = 0xA5 ∧ trunc .w8 0x80 = 0x80 ∧ trunc .w8 0x01 = 0x01 ∧ trunc .w32 0xFFFFFFFF = 0xFFFFFFFF := by
  decide +kernel
/-- PortReadGivesWhatWasWritten. -/
theorem wit_PortReadBack : ∃ t, exec (.portWrite 0 5) blk = .next t := ⟨_, rfl⟩
/-- PortWriteLosesNoForeignWrite: the foreign context writes the other bits of the register at the boundary. -/
theorem wit_PortNoLoss : (busy [[0x1401000000000001]]).noReset = true
    ∧ ∃ u, boundary (accept .main (.portWrite 0 5) .nothing (busy [[0x1401000000000001]])) = .live u ∧ u.outReg 1 = 0x65 :=
  ⟨by decide, _, rfl, by decide +kernel⟩
/-- PinBindinMakesAnInput, PinBindoutDrivesTheInitialValue: the last pin, and the sentinel. -/
theorem wit_PinBind : 7 < blk.pn.length ∧ blk.pinSlot 7 = none ∧ blk.pinOk (.pin 3 7) = true ∧ blk.pinOk .noPin = true := by decide
/-- InitialValueBeforeDirection. -/
theorem wit_InitialValue : refusalCause (.pinBindout 7 (.pin 3 7) true true true) blk = none
    ∧ (busy [[0]]).width = blk.width ∧ (busy [[0]]).nports = blk.nports := by decide +kernel
/-- PinReadAnswersTheLevel, PinWriteDrivesTheLine, PinPulseLeavesTheComplement: every form of a handle. -/
theorem wit_Pins : blk.pinSlot 0 = some ⟨.output false false, .pin 0 0⟩ ∧ blk.pinSlot 2 = some ⟨.output true false, .pin 0 2⟩
    ∧ blk.pinSlot 3 = some ⟨.output false true, .pin 0 3⟩ ∧ blk.pinSlot 4 = some ⟨.input true, .pin 3 0⟩
    ∧ blk.pinSlot 5 = some ⟨.output true true, .noPin⟩ ∧ blk.pinSlot 6 = some ⟨.input false, .noPin⟩
    ∧ blk.pinOk (.pin 0 3) = true ∧ blk.pinOk .noPin = true := by decide
/-- PinToggleComplementsTheLine. -/
theorem wit_PinToggle : blk.pinSlot 2 = some { kind := .output true false, pin := .pin 0 2 } ∧ blk.pinOk (.pin 0 2) = true := by decide
/-- PinWriteLosesNoForeignWrite: the foreign context writes another bit of the register at the boundary. -/
theorem wit_PinNoLoss : (busy [[0x2400000000000000]]).noReset = true
    ∧ ∃ u, boundary (accept .main (.pinWrite 2 true) .nothing (busy [[0x2400000000000000]])) = .live u ∧ u.outReg 0 = 0x09 :=
  ⟨by decide, _, rfl, by decide +kernel⟩
/-- ShiftCfgBindsTheSlot: a shift-out unit of 32 bits and a shift-in unit of 1. -/
theorem wit_ShiftCfg : 4 < blk.sh.length ∧ blk.shiftSlot 4 = none
    ∧ (∃ d c, blk.pinSlot 0 = some d ∧ d.isOutput = decide (ShiftMode.shiftOut = .shiftOut) ∧ blk.pinSlot 1 = some c
      ∧ c.isOutput = true ∧ 1 ≤ 32 ∧ 32 ≤ 32)
    ∧ ∃ d, blk.pinSlot 4 = some d ∧ d.isOutput = decide (ShiftMode.shiftIn = .shiftOut) ∧ 1 ≤ 1 :=
  ⟨by decide, by decide, ⟨_, _, rfl, rfl, rfl, rfl, by decide, by decide⟩, _, rfl, rfl, by decide⟩
/-- MaskVisitsItsPositions: the last position of the widest shift, and the only one of the narrowest. -/
theorem wit_Mask : (32 ≤ 32 ∧ 31 < 32) ∧ (1 ≤ 32 ∧ 0 < 1) := by decide
/-- ShiftInGathersItsSamples: the data line on a pad, undriven and driven, and a no-pin data line. -/
theorem wit_ShiftIn : blk.devices = [] ∧ (∃ h d c, blk.shiftSlot 1 = some h ∧ h.mode = .shiftIn ∧ blk.pinSlot h.data = some d
      ∧ blk.pinSlot h.clk = some c ∧ d.pin = .pin 3 0 ∧ (blk.dirReg 3).getLsbD 0 = false)
    ∧ ((blk.regWrite 3 .direction 1).dirReg 3).getLsbD 0 = true ∧ (blk.regWrite 3 .direction 1).wf = true
    ∧ ∃ h d, blk.shiftSlot 3 = some h ∧ h.mode = .shiftIn ∧ blk.pinSlot h.data = some d ∧ d.pin = .noPin :=
  ⟨rfl, ⟨_, _, _, rfl, rfl, rfl, rfl, rfl, by decide +kernel⟩, by decide +kernel, by decide +kernel, _, _, rfl, rfl, rfl, rfl⟩
/-- ShiftOutLeavesItsLines. -/
theorem wit_ShiftOut : ∃ h d c, blk.shiftSlot 0 = some h ∧ h.mode = .shiftOut ∧ blk.pinSlot h.data = some d
    ∧ blk.pinSlot h.clk = some c := ⟨_, _, _, rfl, rfl, rfl, rfl⟩

/-- The block with a shift-in unit as wide as the shift-out unit, of either order, and the echo attached. -/
def echoBlk (order : BitOrder) : State :=
  { blk with sh := blk.sh.set 1 (some ⟨.shiftIn, 4, 1, 8, order⟩), devices := [.echo (echo0 [])] }

/-- EchoRoundTrip: equal and different orders. -/
theorem wit_Echo (order : BitOrder) : (echoBlk order).calm = true ∧ (echoBlk order).idle = true ∧ (echoBlk order).devices = [.echo (echo0 [])]
    ∧ ∃ ho hi d c di ci, (echoBlk order).shiftSlot 0 = some ho ∧ ho.mode = .shiftOut ∧ blk.pinSlot ho.data = some d
      ∧ blk.pinSlot ho.clk = some c ∧ (echoBlk order).shiftSlot 1 = some hi ∧ hi.mode = .shiftIn ∧ hi.order = order
      ∧ blk.pinSlot hi.data = some di ∧ blk.pinSlot hi.clk = some ci ∧ ho.nbits = hi.nbits ∧ d.plainOn ⟨0, 0⟩
      ∧ c.plainOn ⟨0, 1⟩ ∧ di.pin = .pin 3 0 :=
  ⟨rfl, rfl, rfl, _, _, _, _, _, _, rfl, rfl, rfl, rfl, rfl, rfl, rfl, rfl, rfl, rfl, ⟨rfl, .inl rfl⟩, ⟨rfl, .inl rfl⟩, rfl⟩
theorem wit_Echo_state : (echoBlk .msbFirst).wf = true ∧ (echoBlk .lsbFirst).wf = true ∧ blk.padOe ⟨0, 0⟩ = true
    ∧ blk.padOe ⟨0, 1⟩ = true ∧ blk.padOe ⟨3, 0⟩ = false ∧ blk.padOut ⟨0, 1⟩ = false ∧ (echo0 []).lastClk = false
    ∧ (echo0 []).dout ≠ (echo0 []).clk := by decide +kernel
theorem wit_Echo_step (order : BitOrder) : ∃ t, exec (.shiftOut 0 0xB2) (echoBlk order) = .next t := ⟨_, rfl⟩
/-- MicroOperationCounts: a form for each clause that has several. -/
theorem wit_Counts : uopsOf (.portWrite 0 5) blk = 4 ∧ uopsOf (.portWrite 2 5) blk = 1 ∧ uopsOf (.pinRead 5) blk = 0
    ∧ uopsOf (.pinToggle 2) blk = 5 ∧ uopsOf (.pinToggle 5) blk = 0 ∧ uopsOf (.chipEnable 0) blk = 1
    ∧ uopsOf (.pinBindout 7 (.pin 3 7) true true false) blk = 5 ∧ uopsOf (.pinBindout 7 .noPin true true false) blk = 0
    ∧ uopsOf (.chipWrite 1 5) blk = 0 ∧ uopsOf (.chipCfg 2 0 2 3 true) blk = 1 := by decide +kernel
/-- ChipCfgAppliesTheEnableState. -/
theorem wit_ChipCfg : 2 < blk.ch.length ∧ blk.chipSlot 2 = none ∧ ∃ sh l oe, blk.shiftSlot 0 = some sh ∧ sh.mode = .shiftOut
    ∧ blk.pinSlot 2 = some l ∧ l.isOutput = true ∧ blk.pinSlot 3 = some oe ∧ oe.isOutput = true :=
  ⟨by decide, by decide, _, _, _, rfl, rfl, rfl, rfl, rfl, rfl⟩
/-- ChipWriteLeavesItsLines, ChipEnableDrivesItsLine. -/
theorem wit_ChipWrite : ∃ g h d c l oe, blk.chipSlot 0 = some g ∧ blk.shiftSlot g.sh = some h ∧ blk.pinSlot h.data = some d
    ∧ blk.pinSlot h.clk = some c ∧ blk.pinSlot g.latch = some l ∧ blk.pinSlot g.oe = some oe :=
  ⟨_, _, _, _, _, _, rfl, rfl, rfl, rfl, rfl, rfl⟩
/-- ChipHoldsTheValue, on the same lines. -/
theorem wit_ChipHolds : ({ blk with devices := [.chip chip595] } : State).devices[0]? = some (.chip chip595)
    ∧ (⟨.output false false, .pin 0 0⟩ : PinHandle).plainOn chip595.ser
    ∧ (⟨.output false false, .pin 0 1⟩ : PinHandle).plainOn chip595.srclk
    ∧ (⟨.output true false, .pin 0 2⟩ : PinHandle).plainOn chip595.rclk
    ∧ chip595.lastSrclk = false ∧ chip595.lastRclk = false :=
  ⟨rfl, ⟨rfl, .inl rfl⟩, ⟨rfl, .inl rfl⟩, ⟨rfl, .inr rfl⟩, rfl, rfl⟩
theorem wit_ChipHolds_pads : blk.padOe ⟨0, 0⟩ = true ∧ blk.padOe ⟨0, 1⟩ = true ∧ blk.padOe ⟨0, 2⟩ = true
    ∧ blk.padOut ⟨0, 1⟩ = false ∧ blk.padOut ⟨0, 2⟩ = false := by decide +kernel
/-- NoPinChipDoesNothing. -/
theorem wit_NoPinChip : ∃ g h d c l oe, blk.chipSlot 1 = some g ∧ blk.shiftSlot g.sh = some h ∧ blk.pinSlot h.data = some d
    ∧ blk.pinSlot h.clk = some c ∧ blk.pinSlot g.latch = some l ∧ blk.pinSlot g.oe = some oe ∧ d.pin = .noPin ∧ c.pin = .noPin
    ∧ l.pin = .noPin ∧ oe.pin = .noPin := ⟨_, _, _, _, _, _, rfl, rfl, rfl, rfl, rfl, rfl, rfl, rfl, rfl, rfl⟩
/-- RefusedExactlyForTheListedCauses: each flag, and no cause. -/
theorem wit_Refused : refusalCause (.portBind 4 1 .writing 6 3) blk = some .cfgerr ∧ refusalCause (.portRead 5) blk = some .operr
    ∧ refusalCause (.portBind 4 1 .writing 6 2) blk = none ∧ (busy [[0]]).noReset = true := by decide +kernel
/-- FlagsAreSticky, DescriptorsAreImmutable. -/
theorem wit_Sticky : ({ busy [[0]] with ill := true, cfgerr := true, operr := true } : State).noReset = true
    ∧ (∃ h, (busy [[0]]).portSlot 0 = some h) ∧ (∃ h, (busy [[0]]).pinSlot 0 = some h) ∧ (∃ h, (busy [[0]]).shiftSlot 0 = some h)
    ∧ ∃ h, (busy [[0]]).chipSlot 0 = some h := ⟨rfl, ⟨_, rfl⟩, ⟨_, rfl⟩, ⟨_, rfl⟩, _, rfl⟩
/-- IeIsRestored. -/
theorem wit_IeIsRestored : (busy [[0]]).noReset = true ∧ Instr.portWrite 0 5 ≠ .ieSet ∧ Instr.portWrite 0 5 ≠ .ieClr := by decide
/-- MaskedCommandsHoldTheForeignContextOff. -/
theorem wit_Masked : ({ blk with foreign := [[0]] } : State).noReset = true ∧ ({ blk with foreign := [[0]] } : State).ie = false
    ∧ Instr.chipWrite 0 5 ≠ .ieSet := by decide
/-- ForeignContextReturnsIe: a sequence that is admitted, and one that is not. -/
theorem wit_ForeignIe : (∃ t, boundary (busy [[0x1401000000000001]]) = .live t) ∧ ∃ t, boundary (busy [[0x0300000000000000]]) = .live t :=
  ⟨⟨_, rfl⟩, _, rfl⟩
/-- ForeignCommandHasTheEffectOfItsRule: a command that runs, one that is refused, and a word that is none, a chip on the
pads. -/
theorem wit_ForeignEffect : (busy [[0]]).noReset = true ∧ (busy [[0]]).foreignSeq = none
    ∧ decode 0x1401000000000001 = .ok (.portWrite 1 1) ∧ decode 0x1403000000000001 = .ok (.portWrite 3 1)
    ∧ (∃ e, decode 0x0600000000000000 = .error e)
    ∧ ∀ e, Device.echo e ∉ ({ busy [[0]] with devices := [.chip chip595] } : State).devices :=
  ⟨by decide +kernel, rfl, by decide +kernel, by decide +kernel, ⟨.unassignedOpcode 6, by decide +kernel⟩, by simp⟩
/-- ForeignContextActsAtABoundary: with `IE = 1`, and with `IE = 0`. -/
theorem wit_ForeignActs : (∃ t, (foreignCommand 0x1401000000000001 { elapse (busy [[0x1401000000000001]]) with foreign := [] }).bind
      (foreignRun []) = .live t ∧ t.ie = true)
    ∧ resetDue (busy [[0x1401000000000001]]) = false ∧ ({ blk with foreign := [[0]] } : State).ie = false :=
  ⟨⟨_, rfl, by decide +kernel⟩, rfl, rfl⟩
/-- OnlyDirectionCommandsChangeDir: with every command left, CHIP.WRITE among them. -/
theorem wit_OnlyDirection : (busy [[], []]).calm = true ∧ Instr.chipWrite 0 5 ≠ .portEnout 0 := by decide +kernel
/-- PadShowsOutOrExt, BitWriteChangesOneBit: the last port and the top bit. -/
theorem wit_Pads : 3 < blk.nports ∧ 7 < blk.width.bits ∧ 0 < blk.width.bits := by decide

end Sys2Proof.Tests
end

