-- ==== Sys2Proof/Proofs/Invariant.lean ====
section
/-!
PROOFS. The facts of every state the block can be in (R20 to R39): the descriptor tables and the invariant `State.wf`, both
through `Kept`, the induction over everything the machine can do.
-/

namespace Sys2Proof.Machine

open Sys2Proof

/-! ### What the checks of a command leave possible (R114) -/

/-- If the checks of a command pass, its plan has the property `P`. -/
def Verdict.meets (P : Plan → Prop) : Verdict → Prop
  | .refuse _ => True
  | .run p => P p

@[simp] theorem meets_refuse (P : Plan → Prop) (f : Flag) : (Verdict.refuse f).meets P := trivial
@[simp] theorem meets_run (P : Plan → Prop) (p : Plan) : (Verdict.run p).meets P ↔ P p := Iff.rfl

@[simp] theorem meets_checked (P : Plan → Prop) (f : Flag) (checks : List Bool) (v : Verdict) :
    (checked f checks v).meets P ↔ (checks.all id = true → v.meets P) := by
  unfold checked; split <;> simp_all

/-- A Shifter command that is not refused runs with the unit and the two handles its slot names (R192). -/
theorem meets_withShifter {P : Plan → Prop} {k : Nat} {mode : ShiftMode} {s : State}
    {f : Shifter → PinHandle → PinHandle → Verdict} (h : ∀ u d c, (f u d c).meets P) :
    (withShifter k mode s f).meets P := by
  unfold withShifter
  split
  · split
    · exact (meets_checked ..).mpr fun _ => h ..
    · exact meets_refuse ..
  · exact meets_refuse ..

/-- CHIP.ENABLE or CHIP.DISABLE, not refused, writes through the output-enable handle (R214, R215). -/
theorem meets_chipEnableTo {P : Plan → Prop} {k : Nat} {v : Bool} {s : State}
    (h : ∀ oe, P { acts := writeThrough oe (.const v) }) : (chipEnableTo k v s).meets P := by
  unfold chipEnableTo
  split
  · split
    · exact (meets_run ..).mpr (h _)
    · exact meets_refuse ..
  · exact meets_refuse ..

/-- The descriptor a command may write: its slot is free, and it keeps the contract of that kind of slot. -/
def State.bindOk (s : State) : Bind → Bool
  | .nothing => true
  | .ph k h => freeSlot s.ph k && s.portHandleOk h
  | .pn k h => freeSlot s.pn k && s.pinOk h.pin
  | .sh k h => freeSlot s.sh k && s.shifterOk h
  | .ch k h => freeSlot s.ch k && s.chipOk h

theorem planPortBind_bindOk (k port : Nat) (dirn : Dirn) (start nbits : Nat) (s : State) :
    (planPortBind k port dirn start nbits s).meets fun p => s.bindOk p.bind = true := by
  simp +contextual [planPortBind, State.bindOk, State.portHandleOk]

theorem planPinBindin_bindOk (k : Nat) (pin : PinId) (pullup : Bool) (s : State) :
    (planPinBindin k pin pullup s).meets fun p => s.bindOk p.bind = true := by
  simp [planPinBindin, State.bindOk]

theorem planPinBindout_bindOk (k : Nat) (pin : PinId) (init dyn inv : Bool) (s : State) :
    (planPinBindout k pin init dyn inv s).meets fun p => s.bindOk p.bind = true := by
  simp [planPinBindout, State.bindOk]

theorem planShiftCfg_bindOk (k : Nat) (mode : ShiftMode) (datah clkh nbits : Nat) (order : BitOrder) (s : State) :
    (planShiftCfg k mode datah clkh nbits order s).meets fun p => s.bindOk p.bind = true := by
  cases mode <;> simp +contextual [planShiftCfg, State.bindOk, State.shifterOk]

theorem planChipCfg_bindOk (k shifter latchh oeh : Nat) (initEn : Bool) (s : State) :
    (planChipCfg k shifter latchh oeh initEn s).meets fun p => s.bindOk p.bind = true := by
  unfold planChipCfg
  split
  · next oe hoe => simp +contextual [State.bindOk, State.chipOk, State.outputSlot, hoe]
  · exact meets_refuse ..

/-- A command writes a descriptor only into a free slot, and only one that keeps its contract
(R35, R151, R172, R174, R191, R211). -/
theorem planOf_bindOk (i : Instr) (s : State) : (planOf i s).meets fun p => s.bindOk p.bind = true := by
  cases i with
  | portBind k port dirn start nbits => exact planPortBind_bindOk ..
  | pinBindin k pin pullup => exact planPinBindin_bindOk ..
  | pinBindout k pin init dyn inv => exact planPinBindout_bindOk ..
  | shiftCfg k mode datah clkh nbits order => exact planShiftCfg_bindOk ..
  | chipCfg k shifter latchh oeh initEn => exact planChipCfg_bindOk ..
  | nop => rfl
  | statRd => rfl
  | ieSet => rfl
  | ieClr => rfl
  | regRd port reg => cases reg <;> simp [planOf, planRegRd, regOf, State.bindOk]
  | regWr port reg value => cases reg <;> simp [planOf, planRegWr, regOf, State.bindOk]
  | portEnout k => simp only [planOf, planPortEnout]; split <;> simp [State.bindOk]
  | portEnin k => simp only [planOf, planPortEnin]; split <;> simp [State.bindOk]
  | portRead k => simp only [planOf, planPortRead]; split <;> simp [State.bindOk]
  | portWrite k value => simp only [planOf, planPortWrite]; split <;> simp [State.bindOk]
  | pinRead k => simp only [planOf, planPinRead]; split <;> simp [State.bindOk]
  | pinWrite k value => simp only [planOf, planPinWrite]; split <;> simp [State.bindOk]
  | pinToggle k => simp only [planOf, planPinToggle]; split <;> simp [State.bindOk]
  | pinPulse k value => simp only [planOf, planPinPulse]; split <;> simp [State.bindOk]
  | shiftIn k => exact meets_withShifter fun _ _ _ => rfl
  | shiftOut k value => exact meets_withShifter fun _ _ _ => rfl
  | chipWrite k value =>
    simp only [planOf, planChipWrite]
    split
    · split
      · exact meets_withShifter fun _ _ _ => rfl
      · exact meets_refuse ..
    · exact meets_refuse ..
  | chipEnable k => exact meets_chipEnableTo fun _ => rfl
  | chipDisable k => exact meets_chipEnableTo fun _ => rfl

/-! ### Valid slots stay as they are (R35) -/

/-- Every valid slot of `s` holds the same descriptor in `t`. -/
structure State.slotsKept (s t : State) : Prop where
  port : ∀ k h, s.portSlot k = some h → t.portSlot k = some h
  pin : ∀ k h, s.pinSlot k = some h → t.pinSlot k = some h
  shift : ∀ k h, s.shiftSlot k = some h → t.shiftSlot k = some h
  chip : ∀ k h, s.chipSlot k = some h → t.chipSlot k = some h

theorem slotsKept_refl (s : State) : s.slotsKept s := ⟨fun _ _ => id, fun _ _ => id, fun _ _ => id, fun _ _ => id⟩

theorem slotsKept_trans {a b c : State} (h : a.slotsKept b) (h' : b.slotsKept c) : a.slotsKept c where
  port k d hd := h'.port k d (h.port k d hd)
  pin k d hd := h'.pin k d (h.pin k d hd)
  shift k d hd := h'.shift k d (h.shift k d hd)
  chip k d hd := h'.chip k d (h.chip k d hd)

/-- The four descriptor tables are the same. -/
structure State.sameTables (s t : State) : Prop where
  ph : t.ph = s.ph
  pn : t.pn = s.pn
  sh : t.sh = s.sh
  ch : t.ch = s.ch

theorem slotsKept_of_sameTables {s t : State} (h : s.sameTables t) : s.slotsKept t where
  port k d hd := by rwa [State.portSlot, h.ph]
  pin k d hd := by rwa [State.pinSlot, h.pn]
  shift k d hd := by rwa [State.shiftSlot, h.sh]
  chip k d hd := by rwa [State.chipSlot, h.ch]

/-- A table after a write into a free slot: that slot holds the new descriptor, the others are as before. -/
theorem join_set_of_freeSlot {α : Type} {table : List (Option α)} {k : Nat} (hf : freeSlot table k = true) (h : α)
    (j : Nat) : ((table.set k (some h))[j]?).join = if j = k then some h else (table[j]?).join := by
  have hk : k < table.length := by
    by_contra hk
    simp [freeSlot, List.getElem?_eq_none (not_lt.mp hk)] at hf
  by_cases hj : j = k
  · subst hj; simp [hk]
  · simp [List.getElem?_set_ne (Ne.symm hj), hj]

theorem join_of_freeSlot {α : Type} {table : List (Option α)} {k : Nat} (hf : freeSlot table k = true) :
    (table[k]?).join = none := by
  unfold freeSlot at hf
  split at hf <;> simp_all

/-- A write into a free slot leaves the valid slots. -/
theorem join_set_kept {α : Type} {table : List (Option α)} {k j : Nat} {h g : α} (hf : freeSlot table k = true)
    (hg : (table[j]?).join = some g) : ((table.set k (some h))[j]?).join = some g := by
  rw [join_set_of_freeSlot hf, if_neg, hg]
  rintro rfl
  simp [join_of_freeSlot hf] at hg

/-- What holds of every descriptor of a table and of the one written into a free slot holds of every one afterwards. -/
theorem join_set_forall {α : Type} {table : List (Option α)} {k : Nat} {h : α} {ok : α → Bool}
    (hf : freeSlot table k = true) (hok : ok h = true)
    (hall : ∀ (j : Nat) (g : α), (table[j]?).join = some g → ok g = true) (j : Nat) (g : α)
    (hg : ((table.set k (some h))[j]?).join = some g) : ok g = true := by
  rw [join_set_of_freeSlot hf] at hg
  split at hg
  · rwa [← Option.some.inj hg]
  · exact hall j g hg

/-- Binding a free slot leaves every valid one (R35). -/
theorem slotsKept_applyBind {s : State} {b : Bind} (hb : s.bindOk b = true) : s.slotsKept (applyBind b s) := by
  cases b with
  | nothing => exact slotsKept_refl s
  | ph k h => exact ⟨fun _ _ => join_set_kept (Bool.and_eq_true_iff.mp hb).1, fun _ _ => id, fun _ _ => id, fun _ _ => id⟩
  | pn k h => exact ⟨fun _ _ => id, fun _ _ => join_set_kept (Bool.and_eq_true_iff.mp hb).1, fun _ _ => id, fun _ _ => id⟩
  | sh k h => exact ⟨fun _ _ => id, fun _ _ => id, fun _ _ => join_set_kept (Bool.and_eq_true_iff.mp hb).1, fun _ _ => id⟩
  | ch k h => exact ⟨fun _ _ => id, fun _ _ => id, fun _ _ => id, fun _ _ => join_set_kept (Bool.and_eq_true_iff.mp hb).1⟩

/-! ### What each operation does to the registers and the tables -/

@[simp] theorem sample_width (c : Ctx) (p : Nat) (r : Reg) (b : Nat) (inv : Bool) (s : State) :
    (sample c p r b inv s).width = s.width := by unfold sample; dsimp only; split <;> simp
@[simp] theorem sample_ports (c : Ctx) (p : Nat) (r : Reg) (b : Nat) (inv : Bool) (s : State) :
    (sample c p r b inv s).ports = s.ports := by unfold sample; dsimp only; split <;> simp
@[simp] theorem sample_ph (c : Ctx) (p : Nat) (r : Reg) (b : Nat) (inv : Bool) (s : State) :
    (sample c p r b inv s).ph = s.ph := by unfold sample; dsimp only; split <;> simp
@[simp] theorem sample_pn (c : Ctx) (p : Nat) (r : Reg) (b : Nat) (inv : Bool) (s : State) :
    (sample c p r b inv s).pn = s.pn := by unfold sample; dsimp only; split <;> simp
@[simp] theorem sample_sh (c : Ctx) (p : Nat) (r : Reg) (b : Nat) (inv : Bool) (s : State) :
    (sample c p r b inv s).sh = s.sh := by unfold sample; dsimp only; split <;> simp
@[simp] theorem sample_ch (c : Ctx) (p : Nat) (r : Reg) (b : Nat) (inv : Bool) (s : State) :
    (sample c p r b inv s).ch = s.ch := by unfold sample; dsimp only; split <;> simp

/-- No micro-operation writes a descriptor (R35). -/
theorem sameTables_doUop (c : Ctx) (u : Uop) (s : State) : s.sameTables (doUop c u s) := by
  cases u <;> constructor <;> simp [doUop, applyUop]

theorem sameTables_doInternal (c : Ctx) (n : Internal) (s : State) : s.sameTables (doInternal c n s) := by
  constructor <;> simp [doInternal]

theorem sameTables_finish (c : Ctx) (sel : ResultSel) (s : State) : s.sameTables (finish c sel s) := by
  constructor <;> simp [finish]

theorem sameTables_refuse (c : Ctx) (f : Flag) (s : State) : s.sameTables (refuse c f s) := by
  constructor <;> simp

/-- Acceptance writes the command's descriptor and no other. -/
theorem sameTables_accept (c : Ctx) (i : Instr) (b : Bind) (s : State) : (applyBind b s).sameTables (accept c i b s) := by
  constructor <;> simp [accept]

theorem slotsKept_accept {c : Ctx} {i : Instr} {s : State} {p : Plan} (h : planOf i s = .run p) :
    s.slotsKept (accept c i p.bind s) := by
  have hb := planOf_bindOk i s
  rw [h] at hb
  exact slotsKept_trans (slotsKept_applyBind hb) (slotsKept_of_sameTables (sameTables_accept ..))

/-- Everything but a reset leaves every valid slot. -/
theorem slotsKept_kept : Kept State.slotsKept (fun _ _ => True) where
  refl := slotsKept_refl
  trans := slotsKept_trans
  elapse _ := slotsKept_of_sameTables ⟨rfl, rfl, rfl, rfl⟩
  uop c u s := slotsKept_of_sameTables (sameTables_doUop c u s)
  internal c n s := slotsKept_of_sameTables (sameTables_doInternal c n s)
  accept _ _ _ _ := slotsKept_accept
  finish c sel s := slotsKept_of_sameTables (sameTables_finish c sel s)
  refuse c f s := slotsKept_of_sameTables (sameTables_refuse c f s)
  inputs _ _ _ := slotsKept_of_sameTables ⟨rfl, rfl, rfl, rfl⟩
  reset _ _ := trivial
  after _ _ := trivial

/-- Settles O47, by the induction over everything a step can do. -/
theorem descriptorsAreImmutable : Obligations.DescriptorsAreImmutable := by
  intro s k hr
  obtain ⟨t, ht, hk⟩ := step_kept_of_noReset slotsKept_kept s hr
  exact ⟨t, ht, hk.port k, hk.pin k, hk.shift k, hk.chip k⟩

/-! ### The invariant (R22, R30, R32, R191, R211) -/

/-- Every valid slot of `t` keeps its contract, checked in `s`. -/
structure State.vouchesFor (s t : State) : Prop where
  port : ∀ k h, t.portSlot k = some h → s.portHandleOk h = true
  pin : ∀ k h, t.pinSlot k = some h → s.pinOk h.pin = true
  shift : ∀ k h, t.shiftSlot k = some h → s.shifterOk h = true
  chip : ∀ k h, t.chipSlot k = some h → s.chipOk h = true

/-- Every register fits `W` bits (R22). -/
def State.registersFit (s : State) : Prop := ∀ x ∈ s.ports, x.fits s.width = true

theorem all_slotOk_iff {α : Type} (ok : α → Bool) (table : List (Option α)) :
    table.all (slotOk ok) = true ↔ ∀ (k : Nat) (h : α), (table[k]?).join = some h → ok h = true := by
  rw [List.all_eq_true]
  constructor
  · intro hall k h hk
    exact hall (some h) (List.mem_of_getElem? (Option.join_eq_some_iff.mp hk))
  · intro hall x hx
    obtain ⟨k, hk⟩ := List.mem_iff_getElem?.mp hx
    cases x with
    | none => rfl
    | some h => exact hall k h (by rw [hk]; rfl)

theorem wf_iff (s : State) : s.wf = true ↔ s.registersFit ∧ s.vouchesFor s := by
  simp only [State.wf, Bool.and_eq_true, all_slotOk_iff, and_assoc]
  rw [List.all_eq_true]
  exact ⟨fun ⟨hr, hph, hpn, hsh, hch⟩ => ⟨hr, hph, hpn, hsh, hch⟩,
    fun ⟨hr, hv⟩ => ⟨hr, hv.port, hv.pin, hv.shift, hv.chip⟩⟩

theorem outputSlot_mono {s t : State} (h : s.slotsKept t) {k : Nat} (hk : s.outputSlot k = true) :
    t.outputSlot k = true := by
  unfold State.outputSlot at hk ⊢
  cases hs : s.pinSlot k with
  | none => simp [hs] at hk
  | some g => simpa [hs, h.pin k g hs] using hk

theorem inputSlot_mono {s t : State} (h : s.slotsKept t) {k : Nat} (hk : s.inputSlot k = true) :
    t.inputSlot k = true := by
  unfold State.inputSlot at hk ⊢
  cases hs : s.pinSlot k with
  | none => simp [hs] at hk
  | some g => simpa [hs, h.pin k g hs] using hk

theorem shiftOutSlot_mono {s t : State} (h : s.slotsKept t) {k : Nat} (hk : s.shiftOutSlot k = true) :
    t.shiftOutSlot k = true := by
  unfold State.shiftOutSlot at hk ⊢
  cases hs : s.shiftSlot k with
  | none => simp [hs] at hk
  | some g => simpa [hs, h.shift k g hs] using hk

/-- A Shifter that names valid handles does so for good (R192). -/
theorem shifterOk_mono {s t : State} (h : s.slotsKept t) {u : Shifter} (hu : s.shifterOk u = true) :
    t.shifterOk u = true := by
  simp only [State.shifterOk, Bool.and_eq_true] at hu ⊢
  obtain ⟨⟨hdata, hclk⟩, hn⟩ := hu
  refine ⟨⟨?_, outputSlot_mono h hclk⟩, hn⟩
  cases hm : u.mode with
  | shiftIn => rw [hm] at hdata; exact inputSlot_mono h hdata
  | shiftOut => rw [hm] at hdata; exact outputSlot_mono h hdata

/-- A Chip Driver that names a valid unit and valid handles does so for good (R212). -/
theorem chipOk_mono {s t : State} (h : s.slotsKept t) {d : ChipDriver} (hd : s.chipOk d = true) :
    t.chipOk d = true := by
  simp only [State.chipOk, Bool.and_eq_true] at hd ⊢
  obtain ⟨⟨hsh, hlatch⟩, hoe⟩ := hd
  exact ⟨⟨shiftOutSlot_mono h hsh, outputSlot_mono h hlatch⟩, outputSlot_mono h hoe⟩

/-- A contract checked in `s` holds in a later state with the same parameters and every valid slot of `s`. -/
theorem vouchesFor_mono {s t u : State} (hv : s.vouchesFor u) (hw : t.width = s.width) (hn : t.nports = s.nports)
    (hk : s.slotsKept t) : t.vouchesFor u where
  port k h hh := by simpa [State.portHandleOk, hw, hn] using hv.port k h hh
  pin k h hh := by
    have hp := hv.pin k h hh
    unfold State.pinOk at hp ⊢
    rwa [hw, hn]
  shift k h hh := shifterOk_mono hk (hv.shift k h hh)
  chip k h hh := chipOk_mono hk (hv.chip k h hh)

/-- A descriptor that keeps its contract joins those that do. -/
theorem vouchesFor_applyBind {s : State} {b : Bind} (hs : s.vouchesFor s) (hb : s.bindOk b = true) :
    s.vouchesFor (applyBind b s) := by
  cases b with
  | nothing => exact hs
  | ph k h =>
    obtain ⟨hf, hok⟩ := Bool.and_eq_true_iff.mp hb
    exact ⟨join_set_forall hf hok hs.port, hs.pin, hs.shift, hs.chip⟩
  | pn k h =>
    obtain ⟨hf, hok⟩ := Bool.and_eq_true_iff.mp hb
    exact ⟨hs.port, join_set_forall (ok := fun g : PinHandle => s.pinOk g.pin) hf hok hs.pin, hs.shift, hs.chip⟩
  | sh k h =>
    obtain ⟨hf, hok⟩ := Bool.and_eq_true_iff.mp hb
    exact ⟨hs.port, hs.pin, join_set_forall hf hok hs.shift, hs.chip⟩
  | ch k h =>
    obtain ⟨hf, hok⟩ := Bool.and_eq_true_iff.mp hb
    exact ⟨hs.port, hs.pin, hs.shift, join_set_forall hf hok hs.chip⟩

theorem vouchesFor_of_sameTables {s t u : State} (hv : s.vouchesFor t) (h : t.sameTables u) : s.vouchesFor u where
  port k d hd := hv.port k d (by rwa [State.portSlot, ← h.ph])
  pin k d hd := hv.pin k d (by rwa [State.pinSlot, ← h.pn])
  shift k d hd := hv.shift k d (by rwa [State.shiftSlot, ← h.sh])
  chip k d hd := hv.chip k d (by rwa [State.chipSlot, ← h.ch])

/-- The invariant holds of a later state with the same parameters whose registers fit, whose slots keep their contracts as
seen before, and in which no valid slot is lost. -/
theorem wf_of_slotsKept {s t : State} (hw : t.width = s.width) (hn : t.nports = s.nports) (hk : s.slotsKept t)
    (hfit : t.registersFit) (hv : s.vouchesFor t) : t.wf = true :=
  (wf_iff t).mpr ⟨hfit, vouchesFor_mono hv hw hn hk⟩

/-- An operation that writes no descriptor keeps the invariant if the registers fit after it. -/
theorem wf_of_sameTables {s t : State} (hs : s.wf = true) (ht : s.sameTables t) (hw : t.width = s.width)
    (hn : t.nports = s.nports) (hfit : s.registersFit → t.registersFit) : t.wf = true := by
  obtain ⟨hr, hv⟩ := (wf_iff s).mp hs
  exact wf_of_slotsKept hw hn (slotsKept_of_sameTables ht) (hfit hr) (vouchesFor_of_sameTables hv ht)

/-- An operation that writes neither a register nor a descriptor keeps the invariant. -/
theorem wf_of_sameBlock {s t : State} (hs : s.wf = true) (ht : s.sameTables t) (hw : t.width = s.width)
    (hp : t.ports = s.ports) : t.wf = true :=
  wf_of_sameTables hs ht hw (by rw [State.nports, State.nports, hp])
    fun hr => by rwa [State.registersFit, hp, hw]

/-! ### The registers (R22, R65, R66) -/

/-- `RegWrite` cuts to `W` bits (R65). -/
theorem registersFit_regWrite {s : State} (hs : s.registersFit) (p : Nat) (r : Reg) (v : Word) :
    (s.regWrite p r v).registersFit := by
  have hmem : ∀ f : Triple → Triple, (∀ x, x.fits s.width = true → (f x).fits s.width = true) →
      ∀ x ∈ s.ports.modify p f, x.fits s.width = true := by
    intro f hf x hx
    obtain ⟨j, hj⟩ := List.mem_iff_getElem?.mp hx
    rw [List.getElem?_modify] at hj
    obtain ⟨y, hy, rfl⟩ := Option.map_eq_some_iff.mp hj
    have hfy := hs y (List.mem_of_getElem? hy)
    split
    · exact hf y hfy
    · exact hfy
  cases r with
  | input => exact hs
  | output => exact hmem _ fun x hx => by simp_all [Triple.fits, trunc_trunc]
  | direction => exact hmem _ fun x hx => by simp_all [Triple.fits, trunc_trunc]

/-- A micro-operation leaves the registers, or writes one of them. -/
theorem doUop_ports (c : Ctx) (u : Uop) (s : State) :
    (doUop c u s).ports = s.ports ∨ ∃ p r v, (doUop c u s).ports = (s.regWrite p r v).ports := by
  cases u with
  | regWrite p r v => exact .inr ⟨p, r, v.eval s.width (s.seq c), by simp [doUop, applyUop]⟩
  | bitWrite p r b level inv =>
    exact .inr ⟨p, r, withBit (s.regRead p r) b (electrical (level.eval (s.seq c)) inv), by
      simp [doUop, applyUop, State.bitWrite]⟩
  | acq => exact .inl (by simp [doUop, applyUop])
  | rel => exact .inl (by simp [doUop, applyUop])
  | ieWrite v => exact .inl (by simp [doUop, applyUop])
  | regRead p r => exact .inl (by simp [doUop, applyUop])
  | sample p r b inv => exact .inl (by simp [doUop, applyUop])

@[simp] theorem doUop_width (c : Ctx) (u : Uop) (s : State) : (doUop c u s).width = s.width := by
  cases u <;> simp [doUop, applyUop]

theorem wf_doUop {s : State} (hs : s.wf = true) (c : Ctx) (u : Uop) : (doUop c u s).wf = true := by
  rcases doUop_ports c u s with hp | ⟨p, r, v, hp⟩
  · exact wf_of_sameBlock hs (sameTables_doUop c u s) (doUop_width ..) hp
  · refine wf_of_sameTables hs (sameTables_doUop c u s) (doUop_width ..) ?_ fun hr => ?_
    · rw [State.nports, hp]; exact nports_regWrite ..
    · have hfit := registersFit_regWrite hr p r v
      rwa [State.registersFit, regWrite_width, ← hp, ← doUop_width c u s] at hfit

/-- A command accepted writes a descriptor that keeps its contract, in a slot that was free (R35, R114). -/
theorem wf_accept {c : Ctx} {i : Instr} {s : State} {p : Plan} (h : planOf i s = .run p) (hs : s.wf = true) :
    (accept c i p.bind s).wf = true := by
  obtain ⟨hr, hv⟩ := (wf_iff s).mp hs
  have hb := planOf_bindOk i s
  rw [h] at hb
  refine wf_of_slotsKept (s := s) (by simp [accept]) (by simp [accept, State.nports]) (slotsKept_accept h) ?_
    (vouchesFor_of_sameTables (vouchesFor_applyBind hv hb) (sameTables_accept ..))
  simpa [State.registersFit, accept] using hr

/-! ### Reset (R39, R260) -/

theorem join_replicate_none (α : Type) (n k : Nat) : ((List.replicate n (none : Option α))[k]?).join = none := by
  rw [List.getElem?_replicate]; split <;> rfl

/-- After reset every slot is invalid (R39). -/
theorem init_slots (q : Params) (k : Nat) :
    (State.init q).portSlot k = none ∧ (State.init q).pinSlot k = none ∧ (State.init q).shiftSlot k = none ∧
      (State.init q).chipSlot k = none :=
  ⟨join_replicate_none .., join_replicate_none .., join_replicate_none .., join_replicate_none ..⟩

@[simp] theorem trunc_zero (w : Width) : trunc w 0#32 = 0#32 := by simp [trunc]

/-- After reset every register is 0 (R39). -/
theorem init_triple (q : Params) (p : Nat) : (State.init q).triple p = { out := 0, dir := 0 } := by
  simp only [State.triple, State.init, List.getElem?_replicate]
  split <;> rfl

/-- A port whose pins are all inputs shows `EXT` (R62). -/
theorem padWord_of_dirReg_zero {s : State} {p : Nat} (h : s.dirReg p = 0) : s.padWord p = s.extWord p := by
  apply BitVec.eq_of_getLsbD_eq
  intro i hi
  simp only [State.padWord, h, State.extWord, BitVec.getLsbD_or, BitVec.getLsbD_and, trunc_getLsbD, BitVec.getLsbD_not]
  cases decide (i < s.width.bits) <;> simp [hi]

theorem wf_init (q : Params) : (State.init q).wf = true := by
  rw [wf_iff]
  constructor
  · intro x hx
    rw [List.eq_of_mem_replicate hx]
    simp [Triple.fits]
  · constructor <;> intro k h hk <;> simp [init_slots] at hk

/-- A reset leaves the registers and the tables of the reset state with the same parameters (R260). -/
theorem wf_blockReset (s : State) : ((blockReset s).observe none).wf = true :=
  wf_of_sameBlock (wf_init _) ⟨rfl, rfl, rfl, rfl⟩ rfl rfl

/-- Everything the machine can do keeps the invariant. -/
theorem wf_kept : Kept (fun s t => s.wf = true → t.wf = true) (fun _ t => t.wf = true) where
  refl _ := id
  trans h h' hs := h' (h hs)
  elapse _ hs := wf_of_sameBlock hs ⟨rfl, rfl, rfl, rfl⟩ rfl rfl
  uop c u _ hs := wf_doUop hs c u
  internal c n s hs := wf_of_sameBlock hs (sameTables_doInternal c n s) (by simp [doInternal]) (by simp [doInternal])
  accept _ _ _ _ h := wf_accept h
  finish c sel s hs := wf_of_sameBlock hs (sameTables_finish c sel s) (by simp [finish]) (by simp [finish])
  refuse c f s hs := wf_of_sameBlock hs (sameTables_refuse c f s) (by simp) (by simp)
  inputs _ _ _ hs := wf_of_sameBlock hs ⟨rfl, rfl, rfl, rfl⟩ rfl rfl
  reset _ _ := wf_blockReset _
  after _ := id

/-- Settles O56, by the induction over everything a step can do: a reset ends in a state that keeps the invariant, and
everything else keeps it. -/
theorem stepKeepsTheInvariant : Obligations.StepKeepsTheInvariant := by
  intro s hs
  obtain ⟨t, ht, h | h⟩ := step_kept wf_kept s
  · exact ⟨t, ht, h hs⟩
  · exact ⟨t, ht, h⟩

/-- Settles O57: the base case of the invariant. -/
theorem invariantHoldsAtReset : Obligations.InvariantHoldsAtReset :=
  fun q => ⟨wf_init q, rfl⟩

/-- Settles O8, from the reset values of the registers and the tables. -/
theorem resetValues : Obligations.ResetValues := by
  intro q p k
  obtain ⟨hph, hpn, hsh, hch⟩ := init_slots q k
  have hout : (State.init q).outReg p = 0 := by simp [State.outReg, init_triple]
  have hdir : (State.init q).dirReg p = 0 := by simp [State.dirReg, init_triple]
  exact ⟨hout, hdir, rfl, rfl, rfl, rfl, hph, hpn, hsh, hch, rfl, rfl, padWord_of_dirReg_zero hdir⟩

/-! ### The Bit Mask and STATUS (R27, R31) -/

/-- The bits of a mask of `nbits` bits from `start` on that fit into the register (R31). -/
theorem mask_getLsbD (w : Width) (h : PortHandle) (hfit : h.start + h.nbits ≤ w.bits) (i : Nat) :
    (h.mask w).getLsbD i = decide (h.start ≤ i ∧ i < h.start + h.nbits) := by
  have hw := Width.bits_le w
  rw [PortHandle.mask, trunc_getLsbD, BitVec.getLsbD_shiftLeft, ones_getLsbD _ _ (by omega), Bool.eq_iff_iff]
  simp only [Bool.and_eq_true, decide_eq_true_eq, Bool.not_eq_true', decide_eq_false_iff_not]
  omega

theorem full_iff (w : Width) (h : PortHandle) : h.full w = true ↔ h.nbits = w.bits := decide_eq_true_iff

/-- Settles O21, from the bits of the mask: `start + nbits <= W` leaves a full-width handle no start but 0. -/
theorem maskOfAHandle : Obligations.MaskOfAHandle := by
  intro s h hok
  simp only [State.portHandleOk, Bool.and_eq_true, decide_eq_true_eq] at hok
  obtain ⟨-, hfit⟩ := hok
  have hmask := mask_getLsbD s.width h hfit
  refine ⟨hmask, full_iff .., fun hfull => ?_⟩
  have hn := (full_iff ..).mp hfull
  have hstart : h.start = 0 := by omega
  refine ⟨hstart, BitVec.eq_of_getLsbD_eq fun i _ => ?_⟩
  rw [hmask, ones_getLsbD _ _ (Width.bits_le s.width), hstart, hn]
  simp

/-- A flag shows at its own bit of STATUS only (R27). -/
theorem statusBit_getLsbD {b : Nat} (hb : b < 32) (v : Bool) (i : Nat) :
    (statusBit b v).getLsbD i = (v && decide (i = b)) := by
  have hbit := bitMask_getLsbD b i
  rw [bitMask] at hbit
  cases v <;> simp [statusBit, hbit, hb]

/-- Settles O13, from the one bit each flag shows at. -/
theorem statusLayout : Obligations.StatusLayout := by
  intro s b
  have hbits : s.status.getLsbD b =
      (s.ie && decide (b = 0) || s.ill && decide (b = 8) || s.cfgerr && decide (b = 9) || s.operr && decide (b = 10)) := by
    simp [State.status, statusBit_getLsbD]
  rw [hbits]
  split_ifs <;> simp_all

end Sys2Proof.Machine
end

