-- ==== Sys2Proof/Proofs/Sequencer.lean ====
section
/-!
PROOFS. The sequencers (R37): a command of either context leaves the other context's sequencer alone and nothing of its own.
`Kept` does not say this, since a command in progress does have a sequencer; the same path is walked from boundary to step
with what holds where each stretch of work ends.
-/

namespace Sys2Proof.Machine

open Sys2Proof

/-- A context's sequencer, where it has a command in progress. -/
def State.ownSeq (s : State) : Ctx → Option Seq
  | .main => s.mainSeq
  | .foreign => s.foreignSeq

/-- The sequencer of the other context. -/
def State.otherSeq (s : State) : Ctx → Option Seq
  | .main => s.foreignSeq
  | .foreign => s.mainSeq

/-! ### Each operation of a context leaves the other context's sequencer (R37) -/

@[simp] theorem setSeq_otherSeq (s : State) (c : Ctx) (q : Option Seq) : (s.setSeq c q).otherSeq c = s.otherSeq c := by
  cases c <;> rfl
@[simp] theorem setSeq_ownSeq (s : State) (c : Ctx) (q : Option Seq) : (s.setSeq c q).ownSeq c = q := by
  cases c <;> rfl
@[simp] theorem updSeq_otherSeq (s : State) (c : Ctx) (f : Seq → Seq) : (s.updSeq c f).otherSeq c = s.otherSeq c :=
  setSeq_otherSeq ..
@[simp] theorem observe_otherSeq (s : State) (c : Ctx) (b : Option Ctx) : (s.observe b).otherSeq c = s.otherSeq c := by
  cases c <;> rfl
@[simp] theorem regWrite_otherSeq (s : State) (c : Ctx) (p : Nat) (r : Reg) (v : Word) :
    (s.regWrite p r v).otherSeq c = s.otherSeq c := by cases c <;> simp [State.otherSeq]
@[simp] theorem respond_otherSeq (s : State) (c : Ctx) (r : Response) : (respond c r s).otherSeq c = s.otherSeq c := by
  cases c <;> rfl
@[simp] theorem refuse_otherSeq (s : State) (c : Ctx) (f : Flag) : (refuse c f s).otherSeq c = s.otherSeq c := by
  cases c <;> simp [State.otherSeq]
@[simp] theorem refuse_ownSeq (s : State) (c : Ctx) (f : Flag) : (refuse c f s).ownSeq c = s.ownSeq c := by
  cases c <;> simp [State.ownSeq]
@[simp] theorem acq_otherSeq (s : State) (c : Ctx) : (acq c s).otherSeq c = s.otherSeq c := by cases c <;> rfl
@[simp] theorem rel_otherSeq (s : State) (c : Ctx) : (rel c s).otherSeq c = s.otherSeq c := by cases c <;> rfl
@[simp] theorem sample_otherSeq (s : State) (c : Ctx) (p : Nat) (r : Reg) (b : Nat) (inv : Bool) :
    (sample c p r b inv s).otherSeq c = s.otherSeq c := by
  unfold sample; dsimp only; split <;> cases c <;> rfl

theorem doUop_otherSeq (s : State) (c : Ctx) (u : Uop) : (doUop c u s).otherSeq c = s.otherSeq c := by
  cases u with
  | ieWrite v => cases c <;> rfl
  | _ => simp [doUop, applyUop, State.bitWrite]

theorem doInternal_otherSeq (s : State) (c : Ctx) (n : Internal) : (doInternal c n s).otherSeq c = s.otherSeq c :=
  updSeq_otherSeq ..

theorem accept_otherSeq (s : State) (c : Ctx) (i : Instr) (b : Bind) : (accept c i b s).otherSeq c = s.otherSeq c := by
  cases c <;> simp [accept, State.otherSeq]

theorem finish_otherSeq (s : State) (c : Ctx) (sel : ResultSel) : (finish c sel s).otherSeq c = s.otherSeq c := by
  simp [finish]

theorem finish_ownSeq (s : State) (c : Ctx) (sel : ResultSel) : (finish c sel s).ownSeq c = none :=
  setSeq_ownSeq ..

/-! ### From a boundary to a step -/

theorem idle_iff (s : State) : s.idle = true ↔ s.mainSeq = none ∧ s.foreignSeq = none := by
  simp [State.idle]

/-- A stretch of work that goes on does so with `P`; one that a reset ends leaves no command in progress. -/
def Flow.settles (P : State → Prop) : Flow → Prop
  | .live t => P t
  | .reset t => t.idle = true

theorem settles_bind {P Q : State → Prop} {x : Flow} {f : State → Flow} (hx : x.settles P)
    (hf : ∀ t, P t → (f t).settles Q) : (x.bind f).settles Q := by
  cases x with
  | live t => exact hf t hx
  | reset t => exact hx

theorem settles_mono {P Q : State → Prop} {x : Flow} (hx : x.settles P) (h : ∀ t, P t → Q t) : x.settles Q := by
  cases x with
  | live t => exact h t hx
  | reset t => exact hx

/-- The sequencers stand as `m` and `f`. -/
def State.seqsAre (m f : Option Seq) (s : State) : Prop := s.mainSeq = m ∧ s.foreignSeq = f

/-- A boundary of the environment leaves both sequencers (R63). -/
theorem tick_settles {m f : Option Seq} {s : State} (h : s.seqsAre m f) : (tick s).settles (State.seqsAre m f) := by
  unfold tick
  split
  · rfl
  · exact h

/-- A context's actions leave the other context's sequencer, if the boundaries between them do. -/
theorem runActs_settles {c : Ctx} {hook : State → Flow} {q : Option Seq}
    (hh : ∀ s, s.otherSeq c = q → (hook s).settles (·.otherSeq c = q)) (acts : List Act) {s : State}
    (hs : s.otherSeq c = q) : (runActs c hook acts s).settles (·.otherSeq c = q) := by
  induction acts generalizing s with
  | nil => exact hs
  | cons a acts ih =>
    cases a with
    | uop u => exact settles_bind (hh s hs) fun t ht => ih ((doUop_otherSeq t c u).trans ht)
    | int n => exact ih ((doInternal_otherSeq s c n).trans hs)

/-- A command leaves nothing of its own sequencer, and the other context's as it was (R37). -/
theorem runCommand_settles {c : Ctx} {hook : State → Flow} {q : Option Seq}
    (hh : ∀ s, s.otherSeq c = q → (hook s).settles (·.otherSeq c = q)) (i : Instr) (v : Verdict) {s : State}
    (hown : s.ownSeq c = none) (hother : s.otherSeq c = q) :
    (runCommand c hook i v s).settles fun t => t.ownSeq c = none ∧ t.otherSeq c = q := by
  cases v with
  | refuse f => exact ⟨(refuse_ownSeq s c f).trans hown, (refuse_otherSeq s c f).trans hother⟩
  | run p =>
    have hacc : (accept c i p.bind s).otherSeq c = q := (accept_otherSeq s c i p.bind).trans hother
    exact settles_bind (runActs_settles hh p.acts hacc) fun t ht =>
      ⟨finish_ownSeq t c p.result, (finish_otherSeq t c p.result).trans ht⟩

/-- At the boundaries of the foreign context, the main context's sequencer stays. -/
theorem tick_settles_main {m : Option Seq} (s : State) (hs : s.otherSeq .foreign = m) :
    (tick s).settles (·.otherSeq .foreign = m) :=
  settles_mono (tick_settles (m := m) (f := s.foreignSeq) ⟨hs, rfl⟩) fun _ ht => ht.1

theorem foreignCommand_settles {m : Option Seq} (w : CmdWord) {s : State} (hs : s.seqsAre m none) :
    (foreignCommand w s).settles (State.seqsAre m none) := by
  obtain ⟨hm, hf⟩ := hs
  refine settles_bind (P := State.seqsAre m none) ?_ fun t ht => tick_settles ht
  cases decode w with
  | error e => exact ⟨(refuse_otherSeq s .foreign .ill).trans hm, (refuse_ownSeq s .foreign .ill).trans hf⟩
  | ok i => exact settles_mono (runCommand_settles tick_settles_main i (planOf i s) hf hm) fun t ht => ht.symm

theorem foreignRun_settles {m : Option Seq} (ws : List CmdWord) {s : State} (hs : s.seqsAre m none) :
    (foreignRun ws s).settles (State.seqsAre m none) := by
  induction ws generalizing s with
  | nil => exact hs
  | cons w ws ih => exact settles_bind (foreignCommand_settles w hs) fun t ht => ih ht

theorem foreignAct_settles {m : Option Seq} (ws : List CmdWord) {s : State} (hs : s.seqsAre m none) :
    (foreignAct ws s).settles (State.seqsAre m none) := by
  have h := foreignRun_settles ws hs
  unfold foreignAct
  cases hr : foreignRun ws s with
  | reset t => rwa [hr] at h
  | live t =>
    rw [hr] at h
    dsimp only
    split
    · exact h
    · exact hs

/-- A boundary leaves the main context's sequencer, and no command of the foreign context in progress (R76). -/
theorem boundary_settles {m : Option Seq} {s : State} (hs : s.seqsAre m none) :
    (boundary s).settles (State.seqsAre m none) := by
  refine settles_bind (tick_settles hs) fun t ht => ?_
  split
  · split
    · exact ht
    · exact foreignAct_settles _ ht
  · exact ht

/-- At the boundaries of a command of the main context, no command of the foreign context is left in progress. -/
theorem boundary_settles_foreign (s : State) (hs : s.otherSeq .main = none) :
    (boundary s).settles (·.otherSeq .main = none) :=
  settles_mono (boundary_settles (m := s.mainSeq) ⟨rfl, hs⟩) fun _ ht => ht.2

/-- Every command of the main context ends with none in progress. -/
theorem exec_idle (i : Instr) {s : State} (hs : s.seqsAre none none) : ∃ t, exec i s = .next t ∧ t.idle = true := by
  refine ⟨_, exec_eq i s, ?_⟩
  have h := runCommand_settles boundary_settles_foreign i (planOf i s) hs.1 hs.2
  unfold runMain
  cases hr : runCommand .main boundary i (planOf i s) s with
  | live t => rw [hr] at h; exact (idle_iff t).mpr h
  | reset t => rw [hr] at h; exact h

/-- Settles O58: the boundary at the start of a step leaves no command in progress, and neither does the command after it. -/
theorem noSequencerStateBetweenCommands : Obligations.NoSequencerStateBetweenCommands := by
  intro s hs
  have hb := boundary_settles ((idle_iff s).mp hs)
  unfold step
  cases hr : boundary s with
  | reset t => rw [hr] at hb; exact ⟨t, rfl, hb⟩
  | live t =>
    rw [hr] at hb
    simp only [takeCommand]
    cases hc : t.cmds with
    | nil => exact ⟨t, rfl, (idle_iff t).mpr hb⟩
    | cons w rest =>
      dsimp only
      cases decode w with
      | error e => exact ⟨_, rfl, (idle_iff _).mpr hb⟩
      | ok i => exact exec_idle i hb

end Sys2Proof.Machine
end

