-- ==== Sys2Proof/Proofs/Direction.lean ====
section
/-!
PROOFS. Which commands leave DIR (R24), at calm states: a command's actions are put together from single micro-operations
and locked read-modify-writes (R73), and each of these leaves DIR and a calm state.
-/

namespace Sys2Proof.Machine

open Sys2Proof

/-- The micro-operations that write no bit of DIR. -/
def Uop.sparesDir : Uop → Bool
  | .regWrite _ .direction _ => false
  | .bitWrite _ .direction _ _ _ => false
  | _ => true

theorem dirReg_of_ports {s t : State} (hw : t.width = s.width) (hp : t.ports = s.ports) : t.dirReg = s.dirReg := by
  funext p
  simp only [State.dirReg, State.triple, hw, hp]

theorem dirReg_regWrite_spared (s : State) (p : Nat) (r : Reg) (v : Word) (hr : r ≠ .direction) :
    (s.regWrite p r v).dirReg = s.dirReg := by
  funext q
  simp [dirReg_regWrite, hr]

/-- A micro-operation that writes no bit of DIR leaves it. -/
theorem dirReg_doUop (c : Ctx) {u : Uop} (hu : u.sparesDir = true) (s : State) : (doUop c u s).dirReg = s.dirReg := by
  cases u with
  | regWrite p r v =>
    have hr : r ≠ .direction := by rintro rfl; simp [Uop.sparesDir] at hu
    rw [← dirReg_regWrite_spared s p r (v.eval s.width (s.seq c)) hr]
    exact dirReg_of_ports (by simp) (by simp [doUop, applyUop])
  | bitWrite p r b level inv =>
    have hr : r ≠ .direction := by rintro rfl; simp [Uop.sparesDir] at hu
    rw [← dirReg_regWrite_spared s p r (withBit (s.regRead p r) b (electrical (level.eval (s.seq c)) inv)) hr]
    exact dirReg_of_ports (by simp) (by simp [doUop, applyUop, State.bitWrite])
  | _ => exact dirReg_of_ports (by simp) (by simp [doUop, applyUop])

theorem dirReg_calmBoundary (s : State) : (calmBoundary s).dirReg = s.dirReg := by
  unfold calmBoundary; split <;> rfl

/-! ### IE along a command's actions (R70, R71) -/

/-- The micro-operations that leave IE and SAVED_IE. -/
def Uop.sparesIe : Uop → Bool
  | .acq => false
  | .rel => false
  | .ieWrite _ => false
  | _ => true

theorem doUop_ie {u : Uop} (hu : u.sparesIe = true) (s : State) : (doUop .main u s).ie = s.ie := by
  cases u with
  | acq => simp [Uop.sparesIe] at hu
  | rel => simp [Uop.sparesIe] at hu
  | ieWrite v => simp [Uop.sparesIe] at hu
  | sample p r b inv => simp only [doUop, applyUop, sample]; split <;> simp
  | _ => simp [doUop, applyUop]

theorem doUop_savedIe {u : Uop} (hu : u.sparesIe = true) (s : State) :
    ((doUop .main u s).seq .main).savedIe = (s.seq .main).savedIe := by
  cases u with
  | acq => simp [Uop.sparesIe] at hu
  | rel => simp [Uop.sparesIe] at hu
  | ieWrite v => simp [Uop.sparesIe] at hu
  | regRead p r => rfl
  | regWrite p r v => cases r <;> rfl
  | bitWrite p r b level inv => cases r <;> rfl
  | sample p r b inv => simp only [doUop, applyUop, sample]; split <;> rfl

/-- Inside a critical section that was entered calmly (R70): IE is 0, and if REL is to set it again, the foreign context has
nothing to do. -/
structure State.locked (s : State) : Prop where
  noReset : s.noReset = true
  ie : s.ie = false
  silent : (s.seq .main).savedIe = true → (s.foreign.all fun ws => ws.isEmpty) = true

theorem calm_of_locked {s : State} (h : s.locked) : s.calm = true := by
  simp [State.calm, State.undisturbed, h.noReset, h.ie]

theorem locked_calmBoundary {s : State} (h : s.locked) : (calmBoundary s).locked where
  noReset := calm_noReset (calm_calmBoundary s (calm_of_locked h))
  ie := by rw [calmBoundary_ie, h.ie]
  silent hsaved := by
    rw [calmBoundary_seq] at hsaved
    simpa [calmBoundary, h.ie] using h.silent hsaved

/-- ACQ enters a critical section, with IE = 1 kept for REL only where the foreign context has nothing to do. -/
theorem locked_acq {s : State} (h : s.calm = true) : (doUop .main .acq s).locked where
  noReset := by simpa [State.noReset] using calm_noReset h
  ie := by simp [doUop, applyUop]
  silent hsaved := by
    have hie : s.ie = true := hsaved
    simpa [State.undisturbed, hie] using calm_undisturbed h

theorem locked_doUop {u : Uop} (hu : u.sparesIe = true) {s : State} (h : s.locked) : (doUop .main u s).locked where
  noReset := by simpa [State.noReset] using h.noReset
  ie := by rw [doUop_ie hu, h.ie]
  silent hsaved := by
    rw [doUop_savedIe hu] at hsaved
    simpa using h.silent hsaved

/-- REL leaves the critical section for a calm state. -/
theorem calm_rel {s : State} (h : s.locked) : (doUop .main .rel s).calm = true := by
  have hsilent : (doUop .main .rel s).undisturbed = true := by
    cases hsaved : (s.seq .main).savedIe with
    | false => simp [State.undisturbed, doUop, applyUop, hsaved]
    | true =>
      have hsilent := h.silent hsaved
      simp only [State.undisturbed, doUop_foreign, hsilent, Bool.or_true]
  have hr : (doUop .main .rel s).noReset = true := by simpa [State.noReset] using h.noReset
  simp [State.calm, hsilent, hr]

theorem calm_doUop {u : Uop} (hu : u.sparesIe = true) {s : State} (h : s.calm = true) : (doUop .main u s).calm = true :=
  calm_of h (by simp) (by simp) (by simp [doUop_ie hu])

theorem calm_doInternal (n : Internal) {s : State} (h : s.calm = true) : (doInternal .main n s).calm = true :=
  calm_of h (by simp) (by simp) (by simp)

/-! ### Sequences of actions that leave DIR -/

/-- From every calm state these actions run to their end, leave DIR and end in a calm state. -/
def KeepsDir (acts : List Act) : Prop :=
  ∀ s : State, s.calm = true →
    ∃ t, runActs .main boundary acts s = .live t ∧ t.calm = true ∧ t.dirReg = s.dirReg

theorem runActs_uop_of_calm {s : State} (hs : s.calm = true) (u : Uop) (acts : List Act) :
    runActs .main boundary (.uop u :: acts) s = runActs .main boundary acts (doUop .main u (calmBoundary s)) := by
  rw [runActs, boundary_calm s hs, Flow.bind]

theorem runActs_append (c : Ctx) (hook : State → Flow) (xs ys : List Act) (s : State) :
    runActs c hook (xs ++ ys) s = (runActs c hook xs s).bind (runActs c hook ys) := by
  induction xs generalizing s with
  | nil => rfl
  | cons x xs ih =>
    cases x with
    | int n => exact ih _
    | uop u =>
      simp only [List.cons_append, runActs]
      cases hook s with
      | live t => exact ih _
      | reset t => rfl

theorem keepsDir_nil : KeepsDir [] := fun s hs => ⟨s, rfl, hs, rfl⟩

theorem keepsDir_append {xs ys : List Act} (hx : KeepsDir xs) (hy : KeepsDir ys) : KeepsDir (xs ++ ys) := by
  intro s hs
  obtain ⟨t, hrun, ht, hdir⟩ := hx s hs
  obtain ⟨u, hrun', hu, hdir'⟩ := hy t ht
  exact ⟨u, by rw [runActs_append, hrun, Flow.bind, hrun'], hu, hdir'.trans hdir⟩

theorem keepsDir_int (n : Internal) : KeepsDir [.int n] := fun _ hs =>
  ⟨_, rfl, calm_doInternal n hs, dirReg_of_ports (by simp [doInternal]) (by simp [doInternal])⟩

theorem keepsDir_uop {u : Uop} (hie : u.sparesIe = true) (hdir : u.sparesDir = true) : KeepsDir [.uop u] := by
  intro s hs
  rw [runActs_uop_of_calm hs]
  exact ⟨_, rfl, calm_doUop hie (calm_calmBoundary s hs), by rw [dirReg_doUop _ hdir, dirReg_calmBoundary]⟩

/-- IE.CLR holds the foreign context off for good (R133). -/
theorem keepsDir_ieClr : KeepsDir [.uop (.ieWrite false)] := by
  intro s hs
  rw [runActs_uop_of_calm hs]
  exact ⟨_, rfl, calm_of (calm_calmBoundary s hs) (by simp) (by simp) (by simp [doUop, applyUop]),
    by rw [dirReg_doUop _ rfl, dirReg_calmBoundary]⟩

/-- A locked read-modify-write of OUT (R73) holds the foreign context off and leaves DIR. -/
theorem keepsDir_lockedRMW (p : Nat) (f : Src) : KeepsDir (lockedRMW p .output f) := by
  intro s hs
  have h1 := locked_acq (calm_calmBoundary s hs)
  have h2 := locked_doUop (u := .regRead p .output) rfl (locked_calmBoundary h1)
  have h3 := locked_doUop (u := .regWrite p .output f) rfl (locked_calmBoundary h2)
  rw [lockedRMW, runActs_uop_of_calm hs, runActs_uop_of_calm (calm_of_locked h1), runActs_uop_of_calm (calm_of_locked h2),
    runActs_uop_of_calm (calm_of_locked h3)]
  refine ⟨_, rfl, calm_rel (locked_calmBoundary h3), ?_⟩
  rw [dirReg_doUop _ rfl, dirReg_calmBoundary, dirReg_doUop _ rfl, dirReg_calmBoundary, dirReg_doUop _ rfl,
    dirReg_calmBoundary, dirReg_doUop _ rfl, dirReg_calmBoundary]

theorem keepsDir_writeThrough (h : PinHandle) (v : Level) : KeepsDir (writeThrough h v) := by
  unfold writeThrough
  split
  · exact keepsDir_nil
  · exact keepsDir_nil
  · exact keepsDir_uop rfl rfl
  · exact keepsDir_lockedRMW _ _

theorem keepsDir_readThrough (h : PinHandle) : KeepsDir (readThrough h) := by
  unfold readThrough
  split
  · exact keepsDir_int _
  · exact keepsDir_uop rfl rfl
  · exact keepsDir_uop rfl rfl

theorem keepsDir_pulseThrough (h : PinHandle) (v : Bool) : KeepsDir (pulseThrough h v) :=
  keepsDir_append (keepsDir_writeThrough _ _) (keepsDir_writeThrough _ _)

theorem keepsDir_repeatActs {acts : List Act} (h : KeepsDir acts) (n : Nat) : KeepsDir (repeatActs n acts) := by
  induction n with
  | zero => exact keepsDir_nil
  | succ n ih => exact keepsDir_append h ih

theorem keepsDir_shiftInActs (d c : PinHandle) (nbits : Nat) (order : BitOrder) :
    KeepsDir (shiftInActs d c nbits order) := by
  have hround : KeepsDir (shiftInRound d c nbits order) :=
    keepsDir_append (keepsDir_append (keepsDir_append (keepsDir_append (keepsDir_writeThrough _ _)
      (keepsDir_readThrough d)) (keepsDir_int _)) (keepsDir_writeThrough _ _)) (keepsDir_int _)
  exact keepsDir_append (keepsDir_append (keepsDir_int _) (keepsDir_int _)) (keepsDir_repeatActs hround nbits)

theorem keepsDir_shiftOutActs (d c : PinHandle) (nbits : Nat) (order : BitOrder) :
    KeepsDir (shiftOutActs d c nbits order) := by
  have hround : KeepsDir (shiftOutRound d c nbits order) :=
    keepsDir_append (keepsDir_append (keepsDir_writeThrough _ _) (keepsDir_pulseThrough _ _)) (keepsDir_int _)
  exact keepsDir_append (keepsDir_append (keepsDir_int _) (keepsDir_int _)) (keepsDir_repeatActs hround nbits)

/-! ### Commands that leave DIR (R24) -/

/-- A command whose actions leave DIR leaves it, and so does a refused one. -/
theorem exec_dirReg {i : Instr} {s : State} (hs : s.calm = true) (h : (planOf i s).meets fun p => KeepsDir p.acts) :
    ∃ t, exec i s = .next t ∧ t.dirReg = s.dirReg := by
  cases hp : planOf i s with
  | refuse f => exact ⟨_, exec_refuse i s f hp, dirReg_of_ports (by simp) (by simp)⟩
  | run p =>
    rw [hp] at h
    obtain ⟨t, hrun, -, hdir⟩ := h _ (calm_accept i p.bind hs)
    refine ⟨finish .main p.result t, by rw [exec_eq, hp, runMain, runCommand, hrun]; rfl, ?_⟩
    calc (finish .main p.result t).dirReg = t.dirReg := dirReg_of_ports (by simp [finish]) (by simp [finish])
      _ = (accept .main i p.bind s).dirReg := hdir
      _ = s.dirReg := dirReg_of_ports (by simp [accept]) (by simp [accept])

/-- The commands of R24 that change DIR. -/
def changesDir : Instr → Bool
  | .portBind _ _ _ _ _ => true
  | .portEnout _ => true
  | .portEnin _ => true
  | .pinBindin _ _ _ => true
  | .pinBindout _ _ _ _ _ => true
  | .regWr _ _ _ => true
  | _ => false

theorem planRegRd_keepsDir (port : Nat) (reg : RegSel) (s : State) :
    (planRegRd port reg s).meets fun p => KeepsDir p.acts := by
  unfold planRegRd
  split
  · exact (meets_checked ..).mpr fun _ => keepsDir_uop rfl rfl
  · exact meets_refuse ..

theorem planPortRead_keepsDir (k : Nat) (s : State) : (planPortRead k s).meets fun p => KeepsDir p.acts := by
  unfold planPortRead
  split
  · next h _ => cases hd : h.dirn <;> exact keepsDir_uop rfl rfl
  · exact meets_refuse ..

theorem planPortWrite_keepsDir (k : Nat) (s : State) : (planPortWrite k s).meets fun p => KeepsDir p.acts := by
  unfold planPortWrite
  split
  · refine (meets_checked ..).mpr fun _ => ?_
    rw [meets_run]
    split
    · exact keepsDir_uop rfl rfl
    · exact keepsDir_lockedRMW _ _
  · exact meets_refuse ..

theorem planPinRead_keepsDir (k : Nat) (s : State) : (planPinRead k s).meets fun p => KeepsDir p.acts := by
  unfold planPinRead
  split
  · exact keepsDir_readThrough _
  · exact meets_refuse ..

theorem planPinWrite_keepsDir (k : Nat) (value : Bool) (s : State) :
    (planPinWrite k value s).meets fun p => KeepsDir p.acts := by
  unfold planPinWrite
  split
  · exact (meets_checked ..).mpr fun _ => keepsDir_writeThrough _ _
  · exact meets_refuse ..

theorem planPinToggle_keepsDir (k : Nat) (s : State) : (planPinToggle k s).meets fun p => KeepsDir p.acts := by
  unfold planPinToggle
  split
  · exact (meets_checked ..).mpr fun _ => keepsDir_append (keepsDir_readThrough _) (keepsDir_writeThrough _ _)
  · exact meets_refuse ..

theorem planPinPulse_keepsDir (k : Nat) (value : Bool) (s : State) :
    (planPinPulse k value s).meets fun p => KeepsDir p.acts := by
  unfold planPinPulse
  split
  · exact (meets_checked ..).mpr fun _ => keepsDir_pulseThrough _ _
  · exact meets_refuse ..

theorem planShiftCfg_keepsDir (k : Nat) (mode : ShiftMode) (datah clkh nbits : Nat) (order : BitOrder) (s : State) :
    (planShiftCfg k mode datah clkh nbits order s).meets fun p => KeepsDir p.acts :=
  (meets_checked ..).mpr fun _ => keepsDir_nil

theorem planChipCfg_keepsDir (k shifter latchh oeh : Nat) (initEn : Bool) (s : State) :
    (planChipCfg k shifter latchh oeh initEn s).meets fun p => KeepsDir p.acts := by
  unfold planChipCfg
  split
  · exact (meets_checked ..).mpr fun _ => keepsDir_writeThrough _ _
  · exact meets_refuse ..

theorem planChipWrite_keepsDir (k : Nat) (s : State) : (planChipWrite k s).meets fun p => KeepsDir p.acts := by
  unfold planChipWrite
  split
  · split
    · exact meets_withShifter fun _ _ _ => keepsDir_append (keepsDir_shiftOutActs _ _ _ _) (keepsDir_pulseThrough _ _)
    · exact meets_refuse ..
  · exact meets_refuse ..

/-- The actions of every other command leave DIR; IE.SET, which does not end in a calm state, apart. -/
theorem planOf_keepsDir {i : Instr} (s : State) (hdir : changesDir i = false) (hie : i ≠ .ieSet) :
    (planOf i s).meets fun p => KeepsDir p.acts := by
  cases i with
  | ieSet => exact absurd rfl hie
  | portBind k port dirn start nbits => cases hdir
  | portEnout k => cases hdir
  | portEnin k => cases hdir
  | pinBindin k pin pullup => cases hdir
  | pinBindout k pin init dyn inv => cases hdir
  | regWr port reg value => cases hdir
  | nop => exact keepsDir_nil
  | statRd => exact keepsDir_nil
  | ieClr => exact keepsDir_ieClr
  | regRd port reg => exact planRegRd_keepsDir ..
  | portRead k => exact planPortRead_keepsDir ..
  | portWrite k value => exact planPortWrite_keepsDir ..
  | pinRead k => exact planPinRead_keepsDir ..
  | pinWrite k value => exact planPinWrite_keepsDir ..
  | pinToggle k => exact planPinToggle_keepsDir ..
  | pinPulse k value => exact planPinPulse_keepsDir ..
  | shiftCfg k mode datah clkh nbits order => exact planShiftCfg_keepsDir ..
  | shiftIn k => exact meets_withShifter fun _ _ _ => keepsDir_shiftInActs _ _ _ _
  | shiftOut k value => exact meets_withShifter fun _ _ _ => keepsDir_shiftOutActs _ _ _ _
  | chipCfg k shifter latchh oeh initEn => exact planChipCfg_keepsDir ..
  | chipWrite k value => exact planChipWrite_keepsDir ..
  | chipEnable k => exact meets_chipEnableTo fun _ => keepsDir_writeThrough _ _
  | chipDisable k => exact meets_chipEnableTo fun _ => keepsDir_writeThrough _ _

/-- IE.SET leaves DIR (R132): its one boundary is calm, whatever follows it. -/
theorem exec_ieSet_dirReg {s : State} (hs : s.calm = true) : ∃ t, exec .ieSet s = .next t ∧ t.dirReg = s.dirReg := by
  have hacc := calm_accept .ieSet .nothing hs
  refine ⟨finish .main .zero (doUop .main (.ieWrite true) (calmBoundary (accept .main .ieSet .nothing s))), ?_, ?_⟩
  · rw [exec_eq]
    simp only [planOf, planIeSet, runMain, runCommand, runActs_uop_of_calm hacc]
    rfl
  · calc _ = (doUop .main (.ieWrite true) (calmBoundary (accept .main .ieSet .nothing s))).dirReg :=
          dirReg_of_ports (by simp [finish]) (by simp [finish])
      _ = (accept .main .ieSet .nothing s).dirReg := by rw [dirReg_doUop _ rfl, dirReg_calmBoundary]
      _ = s.dirReg := dirReg_of_ports (by simp [accept]) (by simp [accept])

/-- Settles O53, from the actions of every command that is none of R24's, and IE.SET apart. -/
theorem onlyDirectionCommandsChangeDir : Obligations.OnlyDirectionCommandsChangeDir := by
  intro i s p hs hi
  have hdir : changesDir i = false := by cases i <;> simp_all [changesDir]
  have hall : ∃ t, exec i s = .next t ∧ t.dirReg = s.dirReg := by
    by_cases hie : i = .ieSet
    · subst hie
      exact exec_ieSet_dirReg hs
    · exact exec_dirReg hs (planOf_keepsDir s hdir hie)
  obtain ⟨t, ht, hd⟩ := hall
  exact ⟨t, ht, by rw [hd]⟩

end Sys2Proof.Machine
end

