-- ==== Sys2Proof/Proofs/RegisterFile.lean ====
section
/-!
PROOFS. The register file and the pads (R62, R66), from the laws of a register read after a write and of a pad.
-/

namespace Sys2Proof.Machine

open Sys2Proof

/-- A level of `EXT` lies within `W` bits, so where a mask is cut makes no difference to it (R63). -/
theorem extWord_and_trunc (s : State) (p : Nat) (m : Word) : s.extWord p &&& trunc s.width m = s.extWord p &&& m := by
  apply BitVec.eq_of_getLsbD_eq
  intro i _
  simp only [State.extWord, BitVec.getLsbD_and, trunc_getLsbD]
  cases decide (i < s.width.bits) <;> simp

/-- The level of a pad (R62): the `OUT` bit where the block drives it, `EXT` elsewhere. -/
theorem padLevel_eq (s : State) (pad : Pad) :
    s.padLevel pad = if s.padOe pad then s.padOut pad else (s.extWord pad.port).getLsbD pad.bit := by
  cases hoe : s.padOe pad with
  | true => exact padLevel_driven s pad hoe
  | false => exact padLevel_undriven s pad hoe

/-- Settles O54, from the level of one pad; the word form has no cut left. -/
theorem padShowsOutOrExt : Obligations.PadShowsOutOrExt := by
  intro s p b _
  refine ⟨padLevel_eq s ⟨p, b⟩, ?_, rfl, rfl, rfl⟩
  rw [State.padWord, extWord_and_trunc]

/-- A write of DIR leaves OUT (R65). -/
theorem outReg_regWrite_direction (s : State) (p q : Nat) (v : Word) : (s.regWrite p .direction v).outReg q = s.outReg q := by
  simp [outReg_regWrite]

/-- Settles O55: the register written bit by bit, the other register whole. -/
theorem bitWriteChangesOneBit : Obligations.BitWriteChangesOneBit := by
  intro s p q b i e hp hb
  refine ⟨?_, ?_, ?_, outReg_regWrite_direction s p q _⟩
  · simp [outReg_bitWrite_getLsbD, hp, hb]
  · simp [dirReg_bitWrite_getLsbD, hp, hb]
  · exact congrFun (dirReg_regWrite_spared s p .output _ (by decide)) q

end Sys2Proof.Machine
end

