-- ==== Sys2Proof/Proofs/Boundary.lean ====
section
/-!
PROOFS. What a boundary of the main context can do (R63, R75, R76): time passes, and the foreign context acts or is held off.
-/

namespace Sys2Proof.Machine

open Sys2Proof

/-- Work in two stretches that went on to its end went on through both. -/
theorem bind_eq_live {x : Flow} {f : State → Flow} {t : State} :
    x.bind f = .live t ↔ ∃ u, x = .live u ∧ f u = .live t := by
  cases x <;> simp [Flow.bind]

/-- Without a reset only time passes (R63). -/
theorem tick_of_not_due {s : State} (h : resetDue s = false) : tick s = .live (elapse s) := by
  simp [tick, h]

theorem tick_eq_live {s t : State} (h : tick s = .live t) : t = elapse s := by
  cases hr : resetDue s with
  | true => simp [tick, hr] at h
  | false => exact (Flow.live.inj ((tick_of_not_due hr).symm.trans h)).symm

/-- With `IE = 0` the foreign context is held off (R75). -/
theorem boundary_of_masked {s : State} (hr : resetDue s = false) (hie : s.ie = false) : boundary s = .live (elapse s) := by
  simp [boundary, tick_of_not_due hr, Flow.bind, hie]

/-- A foreign context that has nothing to do lets only time pass. -/
theorem boundary_of_unscheduled {s : State} (hr : resetDue s = false) (hf : s.foreign = []) :
    boundary s = .live (elapse s) := by
  simp [boundary, tick_of_not_due hr, Flow.bind, hf]

/-- With `IE = 1` the foreign context acts with its next sequence (R75). -/
theorem boundary_of_scheduled {s : State} {ws : List CmdWord} {rest : List (List CmdWord)} (hr : resetDue s = false)
    (hie : s.ie = true) (hf : s.foreign = ws :: rest) :
    boundary s = foreignAct ws { elapse s with foreign := rest } := by
  simp [boundary, tick_of_not_due hr, Flow.bind, hie, hf]

/-- A sequence that ends with `IE = 1` is one of the foreign context's (R76). -/
theorem foreignAct_of_live {ws : List CmdWord} {s t : State} (h : foreignRun ws s = .live t) (hie : t.ie = true) :
    foreignAct ws s = .live t := by
  simp [foreignAct, h, hie]

/-- The foreign context has acted with its whole sequence and left `IE = 1`, or not at all (R76). -/
theorem foreignAct_eq_live {ws : List CmdWord} {s t : State} (h : foreignAct ws s = .live t) :
    t = s ∨ (foreignRun ws s = .live t ∧ t.ie = true) := by
  unfold foreignAct at h
  cases hr : foreignRun ws s with
  | reset u => simp [hr] at h
  | live u =>
    simp only [hr] at h
    split at h
    · next hie => rw [Flow.live.inj h] at hie ⊢; exact .inr ⟨rfl, hie⟩
    · exact .inl (Flow.live.inj h).symm

/-- All a boundary that goes on can do: time passes, and where `IE = 1` the foreign context's next turn comes, in which it
acts or does not. -/
theorem boundary_eq_live {s t : State} (h : boundary s = .live t) :
    t = elapse s ∨
      (s.ie = true ∧ ∃ ws rest, s.foreign = ws :: rest ∧
        (t = { elapse s with foreign := rest } ∨
          (foreignRun ws { elapse s with foreign := rest } = .live t ∧ t.ie = true))) := by
  obtain ⟨u, hu, hb⟩ := bind_eq_live.mp h
  obtain rfl := tick_eq_live hu
  have hr : resetDue s = false := by
    by_contra hr
    simp [tick, Bool.eq_true_of_not_eq_false hr] at hu
  cases hie : s.ie with
  | false => exact .inl (Flow.live.inj (h.symm.trans (boundary_of_masked hr hie)))
  | true =>
    cases hf : s.foreign with
    | nil => exact .inl (Flow.live.inj (h.symm.trans (boundary_of_unscheduled hr hf)))
    | cons ws rest =>
      rw [boundary_of_scheduled hr hie hf] at h
      exact .inr ⟨rfl, ws, rest, rfl, foreignAct_eq_live h⟩

/-- A boundary leaves `IE` (R76): a foreign sequence acts only where `IE = 1` before and after it. -/
theorem boundary_ie {s t : State} (h : boundary s = .live t) : t.ie = s.ie := by
  rcases boundary_eq_live h with rfl | ⟨hie, ws, rest, -, rfl | ⟨-, ht⟩⟩
  · rfl
  · rfl
  · rw [ht, hie]

/-- A boundary with `IE = 0` that goes on lets only time pass. -/
theorem boundary_eq_live_of_masked {s t : State} (hie : s.ie = false) (h : boundary s = .live t) : t = elapse s := by
  rcases boundary_eq_live h with ht | ⟨hie', -⟩
  · exact ht
  · simp [hie] at hie'

/-- Settles O51. -/
theorem foreignContextReturnsIe : Obligations.ForeignContextReturnsIe :=
  fun _ _ => boundary_ie

/-- Settles O60, from what the boundary does at each value of `IE`. -/
theorem foreignContextActsAtABoundary : Obligations.ForeignContextActsAtABoundary := by
  intro s t w ws rest hr hf
  refine ⟨fun hie hrun ht => ?_, boundary_of_masked hr⟩
  rw [boundary_of_scheduled hr hie hf]
  exact foreignAct_of_live hrun ht

/-- Settles O5: the step behind its boundary. -/
theorem stepRunsDecodedCommand : Obligations.StepRunsDecodedCommand := by
  intro s t w rest i hb hc hd
  simp only [step, hb, takeCommand, hc, hd]

end Sys2Proof.Machine
end

