-- ==== Sys2Proof/Proofs/CriticalSection.lean ====
section
/-!
PROOFS. IE along a command (R70 to R72): every command but IE.SET and IE.CLR is put together from single micro-operations
that leave IE and from locked read-modify-writes (R73), and a critical section gives IE back as it found it.
-/

namespace Sys2Proof.Machine

open Sys2Proof

/-! ### The sequences commands are put together from -/

/-- Sequences that enter a critical section in a locked read-modify-write only, and leave it there. -/
inductive Sectioned : List Act → Prop
  | nil : Sectioned []
  | int (n : Internal) : Sectioned [.int n]
  | uop (u : Uop) (hu : u.sparesIe = true) : Sectioned [.uop u]
  | locked (p : Nat) (r : Reg) (f : Src) : Sectioned (lockedRMW p r f)
  | append {xs ys : List Act} (hx : Sectioned xs) (hy : Sectioned ys) : Sectioned (xs ++ ys)

theorem sectioned_enoutActs (w : Width) (h : PortHandle) : Sectioned (enoutActs w h) := by
  unfold enoutActs
  split
  · exact .uop _ rfl
  · exact .locked ..

theorem sectioned_eninActs (w : Width) (h : PortHandle) : Sectioned (eninActs w h) := by
  unfold eninActs
  split
  · exact .uop _ rfl
  · exact .locked ..

theorem sectioned_configurePin (pin : PinId) (output : Bool) : Sectioned (configurePin pin output) := by
  cases pin with
  | noPin => exact .nil
  | pin p b => exact .uop _ rfl

theorem sectioned_writeThrough (h : PinHandle) (v : Level) : Sectioned (writeThrough h v) := by
  unfold writeThrough
  split
  · exact .nil
  · exact .nil
  · exact .uop _ rfl
  · exact .locked ..

theorem sectioned_readThrough (h : PinHandle) : Sectioned (readThrough h) := by
  unfold readThrough
  split
  · exact .int _
  · exact .uop _ rfl
  · exact .uop _ rfl

theorem sectioned_pulseThrough (h : PinHandle) (v : Bool) : Sectioned (pulseThrough h v) :=
  .append (sectioned_writeThrough ..) (sectioned_writeThrough ..)

theorem sectioned_repeatActs {acts : List Act} (h : Sectioned acts) (n : Nat) : Sectioned (repeatActs n acts) := by
  induction n with
  | zero => exact .nil
  | succ n ih => exact .append h ih

theorem sectioned_shiftInActs (d c : PinHandle) (nbits : Nat) (order : BitOrder) :
    Sectioned (shiftInActs d c nbits order) := by
  have hround : Sectioned (shiftInRound d c nbits order) :=
    ((((sectioned_writeThrough ..).append (sectioned_readThrough d)).append (.int _)).append
      (sectioned_writeThrough ..)).append (.int _)
  exact ((Sectioned.int _).append (.int _)).append (sectioned_repeatActs hround nbits)

theorem sectioned_shiftOutActs (d c : PinHandle) (nbits : Nat) (order : BitOrder) :
    Sectioned (shiftOutActs d c nbits order) := by
  have hround : Sectioned (shiftOutRound d c nbits order) :=
    ((sectioned_writeThrough ..).append (sectioned_pulseThrough ..)).append (.int _)
  exact ((Sectioned.int _).append (.int _)).append (sectioned_repeatActs hround nbits)

/-- The actions of every command but IE.SET and IE.CLR. -/
theorem planOf_sectioned {i : Instr} (s : State) (hset : i ≠ .ieSet) (hclr : i ≠ .ieClr) :
    (planOf i s).meets fun p => Sectioned p.acts := by
  cases i with
  | ieSet => exact absurd rfl hset
  | ieClr => exact absurd rfl hclr
  | nop => exact Sectioned.nil
  | statRd => exact Sectioned.nil
  | regRd port reg =>
    simp only [planOf, planRegRd]
    split
    · exact (meets_checked ..).mpr fun _ => Sectioned.uop _ rfl
    · exact meets_refuse ..
  | regWr port reg value =>
    simp only [planOf, planRegWr]
    split
    · exact (meets_checked ..).mpr fun _ => Sectioned.uop _ rfl
    · exact meets_refuse ..
  | portBind k port dirn start nbits =>
    refine (meets_checked ..).mpr fun _ => ?_
    cases dirn with
    | writing => exact sectioned_enoutActs ..
    | reading => exact sectioned_eninActs ..
  | portEnout k =>
    simp only [planOf, planPortEnout]
    split
    · exact sectioned_enoutActs ..
    · exact meets_refuse ..
  | portEnin k =>
    simp only [planOf, planPortEnin]
    split
    · exact sectioned_eninActs ..
    · exact meets_refuse ..
  | portRead k =>
    simp only [planOf, planPortRead]
    split
    · next h _ => cases hd : h.dirn <;> exact Sectioned.uop _ rfl
    · exact meets_refuse ..
  | portWrite k value =>
    simp only [planOf, planPortWrite]
    split
    · refine (meets_checked ..).mpr fun _ => (meets_run ..).mpr ?_
      split
      · exact Sectioned.uop _ rfl
      · exact Sectioned.locked ..
    · exact meets_refuse ..
  | pinBindin k pin pullup => exact (meets_checked ..).mpr fun _ => sectioned_configurePin ..
  | pinBindout k pin init dyn inv =>
    exact (meets_checked ..).mpr fun _ => (sectioned_writeThrough ..).append (sectioned_configurePin ..)
  | pinRead k =>
    simp only [planOf, planPinRead]
    split
    · exact sectioned_readThrough _
    · exact meets_refuse ..
  | pinWrite k value =>
    simp only [planOf, planPinWrite]
    split
    · exact (meets_checked ..).mpr fun _ => sectioned_writeThrough ..
    · exact meets_refuse ..
  | pinToggle k =>
    simp only [planOf, planPinToggle]
    split
    · exact (meets_checked ..).mpr fun _ => (sectioned_readThrough _).append (sectioned_writeThrough ..)
    · exact meets_refuse ..
  | pinPulse k value =>
    simp only [planOf, planPinPulse]
    split
    · exact (meets_checked ..).mpr fun _ => sectioned_pulseThrough ..
    · exact meets_refuse ..
  | shiftCfg k mode datah clkh nbits order => exact (meets_checked ..).mpr fun _ => Sectioned.nil
  | shiftIn k => exact meets_withShifter fun _ _ _ => sectioned_shiftInActs ..
  | shiftOut k value => exact meets_withShifter fun _ _ _ => sectioned_shiftOutActs ..
  | chipCfg k shifter latchh oeh initEn =>
    simp only [planOf, planChipCfg]
    split
    · exact (meets_checked ..).mpr fun _ => sectioned_writeThrough ..
    · exact meets_refuse ..
  | chipWrite k value =>
    simp only [planOf, planChipWrite]
    split
    · split
      · exact meets_withShifter fun _ _ _ => (sectioned_shiftOutActs ..).append (sectioned_pulseThrough ..)
      · exact meets_refuse ..
    · exact meets_refuse ..
  | chipEnable k => exact meets_chipEnableTo fun _ => sectioned_writeThrough ..
  | chipDisable k => exact meets_chipEnableTo fun _ => sectioned_writeThrough ..

/-! ### A command that no reset ends -/

/-- A command that ran through its actions responds (R74). -/
theorem exec_of_live {i : Instr} {s t : State} {p : Plan} (hp : planOf i s = .run p)
    (hrun : runActs .main boundary p.acts (accept .main i p.bind s) = .live t) :
    exec i s = .next (finish .main p.result t) := by
  rw [exec_eq, hp, runMain, runCommand, hrun]; rfl

/-- Without a reset a command is refused, or goes through its actions and responds (R74). -/
theorem exec_of_noReset (i : Instr) {s : State} (hs : s.noReset = true) :
    (∃ f, planOf i s = .refuse f ∧ exec i s = .next (refuse .main f s)) ∨
      ∃ p t, planOf i s = .run p ∧ runActs .main boundary p.acts (accept .main i p.bind s) = .live t ∧
        exec i s = .next (finish .main p.result t) := by
  cases hp : planOf i s with
  | refuse f => exact .inl ⟨f, rfl, by rw [exec_eq, hp]; rfl⟩
  | run p =>
    have hends := runActs_ends noReset_kept .main boundary (boundary_ends noReset_kept) p.acts (accept .main i p.bind s)
    cases hr : runActs .main boundary p.acts (accept .main i p.bind s) with
    | reset t => rw [hr] at hends; exact absurd (by simpa [State.noReset] using hs) hends
    | live t => exact .inr ⟨p, t, rfl, hr, exec_of_live hp hr⟩

theorem runActs_uop_eq_live {c : Ctx} {hook : State → Flow} {u : Uop} {acts : List Act} {s t : State} :
    runActs c hook (.uop u :: acts) s = .live t ↔ ∃ b, hook s = .live b ∧ runActs c hook acts (doUop c u b) = .live t :=
  bind_eq_live

theorem runActs_append_eq_live {c : Ctx} {hook : State → Flow} {xs ys : List Act} {s t : State} :
    runActs c hook (xs ++ ys) s = .live t ↔ ∃ u, runActs c hook xs s = .live u ∧ runActs c hook ys u = .live t := by
  rw [runActs_append, bind_eq_live]

/-! ### The critical section of a locked read-modify-write (R70 to R73) -/

/-- A locked read-modify-write behind its first boundary: from ACQ to REL only time passes. -/
def underLock (p : Nat) (r : Reg) (f : Src) (b : State) : State :=
  doUop .main .rel (elapse (doUop .main (.regWrite p r f) (elapse (doUop .main (.regRead p r) (elapse
    (doUop .main .acq b))))))

/-- The foreign context can act at the first boundary of a locked read-modify-write only (R72, R79). -/
theorem lockedRMW_eq_live {p : Nat} {r : Reg} {f : Src} {s t : State}
    (h : runActs .main boundary (lockedRMW p r f) s = .live t) :
    ∃ b, boundary s = .live b ∧ t = underLock p r f b := by
  obtain ⟨b, hb, h⟩ := runActs_uop_eq_live.mp h
  obtain ⟨b1, hb1, h⟩ := runActs_uop_eq_live.mp h
  obtain ⟨b2, hb2, h⟩ := runActs_uop_eq_live.mp h
  obtain ⟨b3, hb3, h⟩ := runActs_uop_eq_live.mp h
  have hacq : (doUop .main .acq b).ie = false := by simp [doUop, applyUop]
  obtain rfl := boundary_eq_live_of_masked hacq hb1
  obtain rfl := boundary_eq_live_of_masked (by rw [doUop_ie rfl, elapse_ie, hacq]) hb2
  obtain rfl := boundary_eq_live_of_masked (by rw [doUop_ie rfl, elapse_ie, doUop_ie rfl, elapse_ie, hacq]) hb3
  exact ⟨b, hb, (Flow.live.inj h).symm⟩

@[simp] theorem elapse_seq (s : State) (c : Ctx) : (elapse s).seq c = s.seq c := by cases c <;> rfl

/-- REL gives back the `IE` that ACQ found (R70, R71). -/
theorem underLock_ie (p : Nat) (r : Reg) (f : Src) (b : State) : (underLock p r f b).ie = b.ie := by
  have hrel (s : State) : (doUop .main .rel s).ie = (s.seq .main).savedIe := by simp [doUop, applyUop]
  have hacq (s : State) : ((doUop .main .acq s).seq .main).savedIe = s.ie := rfl
  rw [underLock, hrel, elapse_seq, doUop_savedIe rfl, elapse_seq, doUop_savedIe rfl, elapse_seq, hacq]

/-! ### IE is restored (R72) -/

theorem sectioned_ie {acts : List Act} (h : Sectioned acts) {s t : State}
    (hrun : runActs .main boundary acts s = .live t) : t.ie = s.ie := by
  induction h generalizing s t with
  | nil => rw [Flow.live.inj hrun]
  | int n => rw [← Flow.live.inj hrun, doInternal_ie]
  | uop u hu =>
    obtain ⟨b, hb, hrun⟩ := runActs_uop_eq_live.mp hrun
    rw [← Flow.live.inj hrun, doUop_ie hu, boundary_ie hb]
  | locked p r f =>
    obtain ⟨b, hb, rfl⟩ := lockedRMW_eq_live hrun
    rw [underLock_ie, boundary_ie hb]
  | append _ _ ihx ihy =>
    obtain ⟨u, hx, hy⟩ := runActs_append_eq_live.mp hrun
    rw [ihy hy, ihx hx]

@[simp] theorem finish_ie (c : Ctx) (sel : ResultSel) (s : State) : (finish c sel s).ie = s.ie := by
  simp [finish]

/-- Settles O49, from the sequences commands are put together from. -/
theorem ieIsRestored : Obligations.IeIsRestored := by
  intro i s hs hset hclr
  rcases exec_of_noReset i hs with ⟨f, -, hexec⟩ | ⟨p, t, hp, hrun, hexec⟩
  · exact ⟨_, hexec, refuse_ie ..⟩
  · have hsec := planOf_sectioned s hset hclr
    rw [hp] at hsec
    refine ⟨_, hexec, ?_⟩
    rw [finish_ie, sectioned_ie hsec hrun, accept_ie]

/-! ### The foreign context held off (R72, R75) -/

/-- `IE` is 0, and since `s` the foreign context has begun no sequence and answered no command. -/
structure State.heldOffSince (s t : State) : Prop where
  ie : t.ie = false
  foreign : t.foreign = s.foreign
  foreignResps : t.foreignResps = s.foreignResps

theorem heldOffSince_trans {a b c : State} (h : a.heldOffSince b) (h' : b.heldOffSince c) : a.heldOffSince c :=
  ⟨h'.ie, h'.foreign.trans h.foreign, h'.foreignResps.trans h.foreignResps⟩

@[simp] theorem sample_foreignResps (c : Ctx) (p : Nat) (r : Reg) (b : Nat) (inv : Bool) (s : State) :
    (sample c p r b inv s).foreignResps = s.foreignResps := by unfold sample; dsimp only; split <;> simp
@[simp] theorem doUop_foreignResps (c : Ctx) (u : Uop) (s : State) : (doUop c u s).foreignResps = s.foreignResps := by
  cases u <;> simp [doUop, applyUop]
@[simp] theorem doInternal_foreignResps (c : Ctx) (n : Internal) (s : State) :
    (doInternal c n s).foreignResps = s.foreignResps := by simp [doInternal]
@[simp] theorem accept_foreignResps (c : Ctx) (i : Instr) (b : Bind) (s : State) :
    (accept c i b s).foreignResps = s.foreignResps := by simp [accept]

/-- A micro-operation from `IE = 0` on, with the boundary before it. -/
theorem uop_heldOffSince {u : Uop} {s t : State} (hie : s.ie = false) (hu : (doUop .main u (elapse s)).ie = false)
    (hrun : runActs .main boundary [.uop u] s = .live t) : s.heldOffSince t := by
  obtain ⟨b, hb, hrun⟩ := runActs_uop_eq_live.mp hrun
  obtain rfl := boundary_eq_live_of_masked hie hb
  rw [← Flow.live.inj hrun]
  exact ⟨hu, by simp, by simp⟩

theorem sectioned_heldOffSince {acts : List Act} (h : Sectioned acts) {s t : State} (hie : s.ie = false)
    (hrun : runActs .main boundary acts s = .live t) : s.heldOffSince t := by
  induction h generalizing s t with
  | nil => rw [← Flow.live.inj hrun]; exact ⟨hie, rfl, rfl⟩
  | int n => rw [← Flow.live.inj hrun]; exact ⟨by simp [hie], by simp, by simp⟩
  | uop u hu => exact uop_heldOffSince hie (by rw [doUop_ie hu, elapse_ie, hie]) hrun
  | locked p r f =>
    obtain ⟨b, hb, rfl⟩ := lockedRMW_eq_live hrun
    obtain rfl := boundary_eq_live_of_masked hie hb
    exact ⟨by rw [underLock_ie, elapse_ie, hie], by simp [underLock], by simp [underLock]⟩
  | append _ _ ihx ihy =>
    obtain ⟨u, hx, hy⟩ := runActs_append_eq_live.mp hrun
    exact heldOffSince_trans (ihx hie hx) (ihy (ihx hie hx).ie hy)

/-- The actions of a command but IE.SET from `IE = 0` on: IE.CLR writes the 0 that stands there (R133). -/
theorem plan_heldOffSince {i : Instr} {p : Plan} {s a t : State} (hset : i ≠ .ieSet) (hp : planOf i s = .run p)
    (hie : a.ie = false) (hrun : runActs .main boundary p.acts a = .live t) : a.heldOffSince t := by
  by_cases hclr : i = .ieClr
  · subst hclr
    obtain rfl := Verdict.run.inj hp
    exact uop_heldOffSince hie rfl hrun
  · have hsec := planOf_sectioned s hset hclr
    rw [hp] at hsec
    exact sectioned_heldOffSince hsec hie hrun

/-- Settles O50: nothing sets `IE` on the way, so every boundary holds the foreign context off. -/
theorem maskedCommandsHoldTheForeignContextOff : Obligations.MaskedCommandsHoldTheForeignContextOff := by
  intro i s hs hie hset
  rcases exec_of_noReset i hs with ⟨f, -, hexec⟩ | ⟨p, t, hp, hrun, hexec⟩
  · exact ⟨_, hexec, by simp [hie], by simp, by simp [refuse]⟩
  · have hoff := plan_heldOffSince hset hp (by simp [hie]) hrun
    exact ⟨_, hexec, by simp [hoff.ie], by simp [finish, hoff.foreign], by simp [finish, hoff.foreignResps]⟩

end Sys2Proof.Machine
end

