-- ==== Sys2Proof/Proofs/OtherContext.lean ====
section
/-!
PROOFS. What stands still while the other context works (R76, R83, R240): the foreign context leaves the main context's
sequencer, response and commands, and no reset takes a command from the port. `Kept` cannot say this, since it asks for the
operations of both contexts and for the inputs to change.
-/

namespace Sys2Proof.Machine

open Sys2Proof

/-! ### Relations that compose along a run -/

/-- `R` from a state to a later one, `Z` to the state a reset leaves, as in `Kept`, but with no operation named. -/
structure Composes (R Z : State → State → Prop) : Prop where
  refl : ∀ s, R s s
  trans : ∀ {a b c}, R a b → R b c → R a c
  after : ∀ {a b c}, R a b → Z b c → Z a c

section Composition

variable {R Z : State → State → Prop}

theorem Composes.ends_from (K : Composes R Z) {s u : State} {x : Flow} (hsu : R s u) (hx : x.ends R Z u) : x.ends R Z s := by
  cases x with
  | live t => exact K.trans hsu hx
  | reset t => exact K.after hsu hx

theorem Composes.bind (K : Composes R Z) {s : State} {x : Flow} {f : State → Flow} (hx : x.ends R Z s)
    (hf : ∀ t, (f t).ends R Z t) : (x.bind f).ends R Z s := by
  cases x with
  | live t => exact K.ends_from hx (hf t)
  | reset t => exact hx

theorem Composes.runActs (K : Composes R Z) {c : Ctx} {hook : State → Flow} (hhook : ∀ s, (hook s).ends R Z s)
    (huop : ∀ u s, R s (doUop c u s)) (hint : ∀ n s, R s (doInternal c n s)) (acts : List Act) (s : State) :
    (runActs c hook acts s).ends R Z s := by
  induction acts generalizing s with
  | nil => exact K.refl s
  | cons a acts ih =>
    cases a with
    | uop u => exact K.bind (hhook s) fun t => K.ends_from (huop u t) (ih _)
    | int n => exact K.ends_from (hint n s) (ih _)

end Composition

/-! ### The main context while the foreign one works -/

/-- The main context's sequencer, response and commands are the same. -/
structure State.mainKept (s t : State) : Prop where
  seq : t.mainSeq = s.mainSeq
  resp : t.mainResp = s.mainResp
  cmds : t.cmds = s.cmds

/-- The commands at the main port are the same. -/
def State.sameCmds (s t : State) : Prop := t.cmds = s.cmds

theorem composes_mainKept : Composes State.mainKept State.sameCmds where
  refl _ := ⟨rfl, rfl, rfl⟩
  trans h h' := ⟨h'.seq.trans h.seq, h'.resp.trans h.resp, h'.cmds.trans h.cmds⟩
  after h h' := Eq.trans h' h.cmds

theorem composes_sameCmds : Composes State.sameCmds State.sameCmds where
  refl _ := rfl
  trans h h' := Eq.trans h' h
  after h h' := Eq.trans h' h

@[simp] theorem sample_mainResp (c : Ctx) (p : Nat) (r : Reg) (b : Nat) (inv : Bool) (s : State) :
    (sample c p r b inv s).mainResp = s.mainResp := by unfold sample; dsimp only; split <;> simp
@[simp] theorem sample_cmds (c : Ctx) (p : Nat) (r : Reg) (b : Nat) (inv : Bool) (s : State) :
    (sample c p r b inv s).cmds = s.cmds := by unfold sample; dsimp only; split <;> simp
@[simp] theorem doUop_mainResp (c : Ctx) (u : Uop) (s : State) : (doUop c u s).mainResp = s.mainResp := by
  cases u <;> simp [doUop, applyUop]
@[simp] theorem doUop_cmds (c : Ctx) (u : Uop) (s : State) : (doUop c u s).cmds = s.cmds := by
  cases u <;> simp [doUop, applyUop]

theorem mainKept_doUop (u : Uop) (s : State) : s.mainKept (doUop .foreign u s) :=
  ⟨doUop_otherSeq s .foreign u, by simp, by simp⟩

theorem mainKept_doInternal (n : Internal) (s : State) : s.mainKept (doInternal .foreign n s) :=
  ⟨doInternal_otherSeq s .foreign n, by simp [doInternal], by simp [doInternal]⟩

theorem mainKept_accept (i : Instr) (b : Bind) (s : State) : s.mainKept (accept .foreign i b s) :=
  ⟨accept_otherSeq s .foreign i b, by simp [accept], by simp [accept]⟩

theorem mainKept_finish (sel : ResultSel) (s : State) : s.mainKept (finish .foreign sel s) :=
  ⟨finish_otherSeq s .foreign sel, by simp [finish], by simp [finish]⟩

theorem mainKept_refuse (f : Flag) (s : State) : s.mainKept (refuse .foreign f s) :=
  ⟨refuse_otherSeq s .foreign f, by simp [refuse], by simp⟩

theorem tick_mainKept (s : State) : (tick s).ends State.mainKept State.sameCmds s := by
  unfold tick
  split
  · rfl
  · exact ⟨rfl, rfl, rfl⟩

theorem foreignActs_mainKept (acts : List Act) (s : State) :
    (runActs .foreign tick acts s).ends State.mainKept State.sameCmds s :=
  composes_mainKept.runActs tick_mainKept mainKept_doUop mainKept_doInternal acts s

/-- A legal word of the foreign context runs as its command does, then a last boundary passes (R63, R76). -/
theorem foreignCommand_of_ok {w : CmdWord} {i : Instr} (hd : decode w = .ok i) (s : State) :
    foreignCommand w s = (runCommand .foreign tick i (planOf i s) s).bind tick := by
  simp only [foreignCommand, hd]

/-- An illegal word of the foreign context is refused (R112), then a last boundary passes. -/
theorem foreignCommand_of_error {w : CmdWord} {e : DecodeError} (hd : decode w = .error e) (s : State) :
    foreignCommand w s = tick (refuse .foreign .ill s) := by
  simp only [foreignCommand, hd]; rfl

theorem foreignCommand_mainKept (w : CmdWord) (s : State) :
    (foreignCommand w s).ends State.mainKept State.sameCmds s := by
  cases hd : decode w with
  | error e => rw [foreignCommand_of_error hd]; exact composes_mainKept.ends_from (mainKept_refuse .ill s) (tick_mainKept _)
  | ok i =>
    rw [foreignCommand_of_ok hd]
    refine composes_mainKept.bind ?_ tick_mainKept
    cases planOf i s with
    | refuse f => exact mainKept_refuse f s
    | run p =>
      exact composes_mainKept.ends_from (mainKept_accept i p.bind s)
        (composes_mainKept.bind (foreignActs_mainKept p.acts _) fun t => mainKept_finish p.result t)

theorem foreignRun_mainKept (ws : List CmdWord) (s : State) : (foreignRun ws s).ends State.mainKept State.sameCmds s := by
  induction ws generalizing s with
  | nil => exact composes_mainKept.refl s
  | cons w ws ih => exact composes_mainKept.bind (foreignCommand_mainKept w s) ih

theorem foreignAct_mainKept (ws : List CmdWord) (s : State) : (foreignAct ws s).ends State.mainKept State.sameCmds s := by
  have h := foreignRun_mainKept ws s
  unfold foreignAct
  cases hr : foreignRun ws s with
  | reset t => rwa [hr] at h
  | live t =>
    rw [hr] at h
    dsimp only
    split
    · exact h
    · exact composes_mainKept.refl s

/-- A boundary leaves the main context's sequencer, response and commands, whatever the foreign context does (R76). -/
theorem boundary_mainKept (s : State) : (boundary s).ends State.mainKept State.sameCmds s := by
  refine composes_mainKept.bind (tick_mainKept s) fun t => ?_
  split
  · split
    · exact composes_mainKept.refl t
    · next ws rest _ =>
      have hturn : t.mainKept { t with foreign := rest } := ⟨rfl, rfl, rfl⟩
      exact composes_mainKept.ends_from hturn (foreignAct_mainKept ws _)
  · exact composes_mainKept.refl t

theorem boundary_sameCmds (s : State) : (boundary s).ends State.sameCmds State.sameCmds s := by
  have h := boundary_mainKept s
  cases hb : boundary s with
  | live t => rw [hb] at h; exact h.cmds
  | reset t => rwa [hb] at h

/-- The actions of a command of the main context leave the commands that wait, a reset on the way included. -/
theorem mainActs_sameCmds (acts : List Act) (s : State) :
    (runActs .main boundary acts s).ends State.sameCmds State.sameCmds s :=
  composes_sameCmds.runActs boundary_sameCmds (fun u s => doUop_cmds .main u s)
    (fun n s => by simp [State.sameCmds, doInternal]) acts s

/-! ### The foreign context's responses (R83) -/

theorem tick_of_noReset {s : State} (hs : s.noReset = true) : tick s = .live (elapse s) :=
  tick_of_not_due (noReset_resetDue hs)

/-- A command of the foreign context that no reset ends: refused, as no legal word or by a check, or through its actions to
its response; then its last boundary passes. -/
theorem foreignCommand_of_noReset (w : CmdWord) {s : State} (hs : s.noReset = true) :
    (∃ f, foreignCommand w s = .live (elapse (refuse .foreign f s))) ∨
      ∃ i p t, decode w = .ok i ∧ planOf i s = .run p ∧
        runActs .foreign tick p.acts (accept .foreign i p.bind s) = .live t ∧
        foreignCommand w s = .live (elapse (finish .foreign p.result t)) := by
  have hrefuse (f : Flag) : tick (refuse .foreign f s) = .live (elapse (refuse .foreign f s)) :=
    tick_of_noReset (noReset_kept.refuse .foreign f s hs)
  cases hd : decode w with
  | error e => exact .inl ⟨.ill, by rw [foreignCommand_of_error hd, hrefuse]⟩
  | ok i =>
    rw [foreignCommand_of_ok hd]
    cases hp : planOf i s with
    | refuse f => exact .inl ⟨f, hrefuse f⟩
    | run p =>
      have hends := runActs_ends noReset_kept .foreign tick (tick_ends noReset_kept) p.acts (accept .foreign i p.bind s)
      have hacc : (accept .foreign i p.bind s).noReset = true := by simpa [State.noReset] using hs
      cases hr : runActs .foreign tick p.acts (accept .foreign i p.bind s) with
      | reset t => rw [hr] at hends; exact absurd hacc hends
      | live t =>
        rw [hr] at hends
        have hfin : (finish .foreign p.result t).noReset = true :=
          noReset_kept.finish .foreign p.result t (hends hacc)
        refine .inr ⟨i, p, t, rfl, hp, hr, ?_⟩
        simp only [runCommand, hr, Flow.bind, tick_of_noReset hfin]

/-- No action answers a command (R84). -/
theorem foreignActs_foreignResps {acts : List Act} {s t : State} (h : runActs .foreign tick acts s = .live t) :
    t.foreignResps = s.foreignResps := by
  have K : Composes (fun s t : State => t.foreignResps = s.foreignResps) fun _ _ => True :=
    ⟨fun _ => rfl, fun h h' => h'.trans h, fun _ _ => trivial⟩
  have htick (s : State) : (tick s).ends (fun s t : State => t.foreignResps = s.foreignResps) (fun _ _ => True) s := by
    unfold tick
    split
    · trivial
    · exact elapse_foreignResps s
  have hends := K.runActs htick (fun u s => doUop_foreignResps .foreign u s)
    (fun n s => doInternal_foreignResps .foreign n s) acts s
  rwa [h] at hends

/-- Settles O52: the response is the refusal's or the one that ends the command, and all else is the main context's. -/
theorem foreignCommandKeepsTheMainSequencer : Obligations.ForeignCommandKeepsTheMainSequencer := by
  intro w s hs
  have hkept := foreignCommand_mainKept w s
  rcases foreignCommand_of_noReset w hs with ⟨f, hc⟩ | ⟨i, p, t, -, -, hrun, hc⟩
  · rw [hc] at hkept
    exact ⟨_, { result := 0, err := true }, hc, by simp [refuse], hkept.seq, hkept.resp, hkept.cmds⟩
  · rw [hc] at hkept
    refine ⟨_, { result := resultOf .foreign p.result t, err := false }, hc, ?_, hkept.seq, hkept.resp, hkept.cmds⟩
    simp [finish, foreignActs_foreignResps hrun]

end Sys2Proof.Machine
end

