-- ==== Sys2Proof/Proofs/MainCommand.lean ====
section
/-!
PROOFS. How a command of the main context ends (R74, R84, R260), and what a masked write of a port does to what the foreign
context left (R73, R79, R82).
-/

namespace Sys2Proof.Machine

open Sys2Proof

/-! ### The parameters (R11, R265) -/

/-- The parameters of a block (R9 to R11). -/
def State.params (s : State) : Params :=
  { width := s.width, nports := s.ports.length, nph := s.ph.length, npn := s.pn.length, nsh := s.sh.length
    nch := s.ch.length }

theorem params_of_sameTables {s t : State} (ht : s.sameTables t) (hw : t.width = s.width) (hn : t.nports = s.nports) :
    t.params = s.params := by
  rw [State.nports, State.nports] at hn
  rw [State.params, State.params, hw, hn, ht.ph, ht.pn, ht.sh, ht.ch]

theorem params_applyBind (b : Bind) (s : State) : (applyBind b s).params = s.params := by
  cases b <;> simp [State.params, applyBind]

theorem params_accept (c : Ctx) (i : Instr) (b : Bind) (s : State) : (accept c i b s).params = s.params :=
  (params_of_sameTables (sameTables_accept c i b s) (by simp [accept]) (by simp [accept, State.nports])).trans
    (params_applyBind b s)

theorem nports_doUop (c : Ctx) (u : Uop) (s : State) : (doUop c u s).nports = s.nports := by
  rcases doUop_ports c u s with hp | ⟨p, r, v, hp⟩
  · rw [State.nports, hp, State.nports]
  · rw [State.nports, hp]; exact nports_regWrite ..

/-- The state a reset leaves, apart from the world and but for the commands that wait, is that of R39. -/
def State.resetTo (s t : State) : Prop := t.apart = { State.init s.params with cmds := t.cmds }

/-- Nothing but a reset changes a parameter, and a reset leaves the reset state with the same parameters (R260, R265). -/
theorem params_kept : Kept (fun s t => t.params = s.params) State.resetTo where
  refl _ := rfl
  trans h h' := h'.trans h
  elapse _ := rfl
  uop c u s := params_of_sameTables (sameTables_doUop c u s) (doUop_width c u s) (nports_doUop c u s)
  internal c n s := params_of_sameTables (sameTables_doInternal c n s) (by simp [doInternal])
    (by simp [doInternal, State.nports])
  accept c i s p _ := params_accept c i p.bind s
  finish c sel s := params_of_sameTables (sameTables_finish c sel s) (by simp [finish]) (by simp [finish, State.nports])
  refuse c f s := params_of_sameTables (sameTables_refuse c f s) (by simp) (by simp [State.nports])
  inputs _ _ _ := rfl
  reset _ _ := rfl
  after h h' := by rw [State.resetTo, ← h]; exact h'

/-! ### The end of a command (R74, R260) -/

theorem exec_of_reset {i : Instr} {s t : State} {p : Plan} (hp : planOf i s = .run p)
    (hrun : runActs .main boundary p.acts (accept .main i p.bind s) = .reset t) : exec i s = .next t := by
  rw [exec_eq, hp, runMain, runCommand, hrun]; rfl

/-- A command abandoned by a reset leaves the reset state, and the commands that wait (R260). -/
theorem runActs_reset {acts : List Act} {s t : State} (hrun : runActs .main boundary acts s = .reset t) :
    s.noReset = false ∧ t.apart = { State.init s.params with cmds := s.cmds } := by
  have hno := runActs_ends noReset_kept .main boundary (boundary_ends noReset_kept) acts s
  have hinit := runActs_ends params_kept .main boundary (boundary_ends params_kept) acts s
  have hcmds := mainActs_sameCmds acts s
  rw [hrun] at hno hinit hcmds
  have hcmds : t.cmds = s.cmds := hcmds
  have hinit : t.apart = { State.init s.params with cmds := t.cmds } := hinit
  exact ⟨Bool.eq_false_iff.mpr hno, by rw [hinit, hcmds]⟩

/-- Settles O10: a refusal is a response, and a command that runs does so to its response or to a reset. -/
theorem commandRespondsOrIsReset : Obligations.CommandRespondsOrIsReset := by
  intro i s hs
  cases hp : planOf i s with
  | refuse f => exact ⟨_, exec_refuse i s f hp, by simp [hs], .inl rfl⟩
  | run p =>
    cases hrun : runActs .main boundary p.acts (accept .main i p.bind s) with
    | live t => exact ⟨_, exec_of_live hp hrun, finish_ownSeq t .main p.result, .inl rfl⟩
    | reset t =>
      obtain ⟨hno, hinit⟩ := runActs_reset hrun
      rw [params_accept] at hinit
      refine ⟨t, exec_of_reset hp hrun, ?_, .inr ⟨?_, ?_⟩⟩
      · rw [← apart_mainSeq, hinit]; rfl
      · simpa [State.noReset] using hno
      · rw [hinit]; simp [accept, State.params]

/-! ### PORT.WRITE against any foreign schedule (R73, R79, R82) -/

/-- Behind its first boundary a locked read-modify-write does to the block what it does alone (R73). -/
theorem apart_underLock (p : Nat) {r : Reg} (hr : r ≠ .input) (f : Src) (b : State) :
    (underLock p r f b).apart = actsApart (lockedRMW p r f) b.apart := by
  have hread : (Uop.regRead p r).readsPad = false := by cases r <;> simp_all [Uop.readsPad]
  simp only [underLock, apart_doUop _ _ hread, apart_doUop .rel _ rfl, apart_doUop (.regWrite p r f) _ rfl,
    apart_doUop .acq _ rfl, apart_elapse]
  rfl

/-- What PORT.WRITE does where its checks pass (R160). -/
theorem planOf_portWrite {s : State} {k : Nat} {h : PortHandle} (value : Word) (hslot : s.portSlot k = some h)
    (hw : h.dirn = .writing) :
    planOf (.portWrite k value) s =
      .run
        { acts :=
            if h.full s.width then [.uop (.regWrite h.port .output .val)]
            else lockedRMW h.port .output (.tmpMerge h.start (h.mask s.width)) } := by
  simp [planOf, planPortWrite, hslot, checked, hw]

/-- The value's bits inside the mask, every other bit as it was (R161). -/
def maskedInto (w : Width) (h : PortHandle) (v raw : Word) : Word :=
  (v &&& ~~~h.mask w) ||| (trunc w (raw <<< h.start) &&& h.mask w)

/-- The OR step and the AND step of the merge leave the value inside the mask (R159, R161). -/
theorem trunc_merge (w : Width) (h : PortHandle) (v raw : Word) :
    trunc w (merge w h.start (h.mask w) (trunc w v) raw) = maskedInto w h (trunc w v) raw := by
  apply BitVec.eq_of_getLsbD_eq
  intro i hi
  simp only [maskedInto, merge, PortHandle.mask, trunc_getLsbD, BitVec.getLsbD_and, BitVec.getLsbD_or, BitVec.getLsbD_not, hi,
    decide_true, Bool.true_and]
  generalize (raw <<< h.start).getLsbD i = r
  generalize (ones h.nbits <<< h.start).getLsbD i = m
  generalize v.getLsbD i = x
  generalize decide (i < w.bits) = inside
  revert r m x inside
  decide

/-- Through a full-width handle nothing of the old value is left (R82, R163). -/
theorem maskedInto_of_full {s : State} {h : PortHandle} (hok : s.portHandleOk h = true) (hfull : h.full s.width = true)
    (v raw : Word) : maskedInto s.width h (trunc s.width v) raw = trunc s.width raw := by
  obtain ⟨-, -, hwhole⟩ := maskOfAHandle s h hok
  obtain ⟨hstart, hmask⟩ := hwhole hfull
  apply BitVec.eq_of_getLsbD_eq
  intro i hi
  simp only [maskedInto, hstart, hmask, BitVec.shiftLeft_zero, BitVec.getLsbD_or, BitVec.getLsbD_and, BitVec.getLsbD_not,
    trunc_getLsbD, ones_getLsbD _ _ (Width.bits_le s.width), hi, decide_true, Bool.true_and]
  cases decide (i < s.width.bits) <;> simp

/-- A command of the main context that did `a` and nothing else since it was accepted responds with 0. -/
theorem finish_setSeq (a : State) (q : Seq) : finish .main .zero (a.setSeq .main (some q)) = a.doneWith 0 := rfl

/-- PORT.WRITE from a state of its first boundary on, apart from the world (R160, R161). -/
theorem portWrite_apart {s u t : State} {q : Seq} {h : PortHandle} (hok : s.portHandleOk h = true)
    (hwidth : u.width = s.width) (hq : u.mainSeq = some q)
    (hrun : (h.full s.width = true ∧ t = doUop .main (.regWrite h.port .output .val) u) ∨
      t = underLock h.port .output (.tmpMerge h.start (h.mask s.width)) u) :
    ∃ q', t.apart =
      ({ u.apart with
          ports := u.ports.modify h.port fun x =>
            { x with out := maskedInto s.width h (u.outReg h.port) q.val } } : State).setSeq .main (some q') := by
  rcases hrun with ⟨hfull, rfl⟩ | rfl
  · refine ⟨{ q with pos := q.pos + 1 }, ?_⟩
    rw [apart_doUop _ _ rfl, State.outReg, hwidth, maskedInto_of_full hok hfull]
    simp [uopApart, applyUop, Src.eval, State.seq, State.updSeq, State.setSeq, State.regWrite, hq, hwidth]
  · refine ⟨afterRMW (u.outReg h.port) u.ie q, ?_⟩
    rw [apart_underLock _ (by decide), actsApart_lockedRMW _ _ _ u.apart q hq]
    simp only [Src.eval, State.regWrite, State.regRead, outReg_apart, apart_width, hwidth]
    rw [State.outReg, hwidth, trunc_merge]
    rfl

/-- Settles O25: the critical section lets the foreign context act at its first boundary only, and merges into what that
boundary left. -/
theorem portWriteLosesNoForeignWrite : Obligations.PortWriteLosesNoForeignWrite := by
  intro s u k value h hs hslot hok hw hu
  have hplan := planOf_portWrite value hslot hw
  have hkept := boundary_mainKept (accept .main (.portWrite k value) .nothing s)
  have hparams := boundary_ends params_kept (accept .main (.portWrite k value) .nothing s)
  rw [hu] at hkept hparams
  have hwidth : u.width = s.width := (congrArg Params.width hparams).trans (by simp [accept, State.params])
  rcases exec_of_noReset (.portWrite k value) hs with ⟨f, hp, -⟩ | ⟨p, t, hp, hrun, hexec⟩
  · rw [hplan] at hp; cases hp
  · obtain rfl := Verdict.run.inj (hplan.symm.trans hp)
    have hend : (h.full s.width = true ∧ t = doUop .main (.regWrite h.port .output .val) u) ∨
        t = underLock h.port .output (.tmpMerge h.start (h.mask s.width)) u := by
      by_cases hfull : h.full s.width = true
      · simp only [hfull, if_true] at hrun
        obtain ⟨b, hb, hrun⟩ := runActs_uop_eq_live.mp hrun
        obtain rfl := Flow.live.inj (hu.symm.trans hb)
        exact .inl ⟨hfull, (Flow.live.inj hrun).symm⟩
      · simp only [hfull] at hrun
        obtain ⟨b, hb, hrun⟩ := lockedRMW_eq_live hrun
        obtain rfl := Flow.live.inj (hu.symm.trans hb)
        exact .inr hrun
    obtain ⟨q', ht⟩ := portWrite_apart hok hwidth hkept.seq hend
    refine ⟨_, hexec, ?_⟩
    rw [apart_finish, ht, finish_setSeq]
    rfl

end Sys2Proof.Machine
end

