-- ==== Sys2Proof/Proofs/ForeignCommand.lean ====
section
/-!
PROOFS. A command of the foreign context has the effect of its rule (R76, R134): one run of its actions by the main context,
with a silent foreign context, and one by the foreign context, with the main context standing still, go side by side.
-/

namespace Sys2Proof.Machine

open Sys2Proof

/-! ### The same block with the contexts exchanged -/

/-- The block of `s` with what the main context has in progress made the foreign context's, beside the main context, the
response ports and the foreign schedule of `b`. -/
def State.asForeign (b s : State) : State :=
  { s with
    mainSeq := b.mainSeq
    foreignSeq := s.mainSeq
    mainResp := b.mainResp
    foreignResps := b.foreignResps
    foreign := b.foreign }

/-- No echo stands on the pads: no device tells the contexts apart (R90, log entry 15). -/
def State.noEcho (s : State) : Prop := ∀ e, Device.echo e ∉ s.devices

@[simp] theorem asForeign_outReg (b s : State) : (b.asForeign s).outReg = s.outReg := rfl
@[simp] theorem asForeign_dirReg (b s : State) : (b.asForeign s).dirReg = s.dirReg := rfl
@[simp] theorem asForeign_seq (b s : State) : (b.asForeign s).seq .foreign = s.seq .main := rfl
@[simp] theorem asForeign_updSeq (b s : State) (f : Seq → Seq) :
    (b.asForeign s).updSeq .foreign f = b.asForeign (s.updSeq .main f) := rfl
@[simp] theorem asForeign_regWrite (b s : State) (p : Nat) (r : Reg) (v : Word) :
    (b.asForeign s).regWrite p r v = b.asForeign (s.regWrite p r v) := by cases r <;> rfl

/-! ### Devices that are no echo -/

theorem noEcho_of_devices {s t : State} (h : s.noEcho) (hd : t.devices = s.devices) : t.noEcho := by
  rwa [State.noEcho, hd]

/-- The pads outside the block drive a device other than the echo as they do in any context. -/
theorem drives_asForeign (b s : State) {d : Device} (hd : ∀ e, d ≠ .echo e) : d.drives (b.asForeign s) = d.drives s := by
  cases d with
  | echo e => exact absurd rfl (hd e)
  | chip c => rfl
  | wire src dst => rfl

/-- The world puts the same levels on the pads. -/
theorem extWord_asForeign (b : State) {s : State} (hs : s.noEcho) (p : Nat) : (b.asForeign s).extWord p = s.extWord p := by
  have hfold : s.devices.foldl (overlay (b.asForeign s) p) (s.extStated p) =
      s.devices.foldl (overlay s p) (s.extStated p) := by
    refine List.foldl_ext _ _ _ fun v d hd => ?_
    rw [overlay, overlay, drives_asForeign b s fun e he => hs e (he ▸ hd)]
  exact congrArg (trunc s.width) hfold

theorem padWord_asForeign (b : State) {s : State} (hs : s.noEcho) (p : Nat) : (b.asForeign s).padWord p = s.padWord p := by
  rw [State.padWord, State.padWord, extWord_asForeign b hs]; rfl

theorem regRead_asForeign (b : State) {s : State} (hs : s.noEcho) (p : Nat) (r : Reg) :
    (b.asForeign s).regRead p r = s.regRead p r := by
  cases r with
  | input => exact padWord_asForeign b hs p
  | output => rfl
  | direction => rfl

/-- A device other than the echo sees the same levels, and no shift of either context. -/
theorem see_asForeign (b : State) {s : State} (hs : s.noEcho) (x y : Option Ctx) {d : Device} (hd : d ∈ s.devices) :
    d.see (b.asForeign s) x = d.see s y := by
  cases d with
  | echo e => exact absurd hd (hs e)
  | chip c => simp only [Device.see, State.padLevel, padWord_asForeign b hs]
  | wire src dst => rfl

theorem observe_asForeign (b : State) {s : State} (hs : s.noEcho) (x y : Option Ctx) :
    (b.asForeign s).observe x = b.asForeign (s.observe y) := by
  have hmap : s.devices.map (Device.see (b.asForeign s) x) = s.devices.map (Device.see s y) :=
    List.map_congr_left fun _ hd => see_asForeign b hs x y hd
  exact congrArg (fun ds => { b.asForeign s with devices := ds }) hmap

theorem noEcho_observe {s : State} (hs : s.noEcho) (x : Option Ctx) : (s.observe x).noEcho := by
  intro e he
  obtain ⟨d, hd, hsee⟩ := List.mem_map.mp he
  cases d with
  | echo e' => exact hs e' hd
  | chip c => simp [Device.see] at hsee
  | wire src dst => simp [Device.see] at hsee

theorem map_of_noEcho {s : State} (hs : s.noEcho) {f : Device → Device} (hf : ∀ d, (∀ e, d ≠ .echo e) → f d = d) :
    s.devices.map f = s.devices :=
  (List.map_congr_left fun d hd => hf d fun e he => hs e (he ▸ hd)).trans (List.map_id _)

theorem onAccept_of_not_echo (c : Ctx) (i : Instr) {d : Device} (hd : ∀ e, d ≠ .echo e) : d.onAccept c i = d := by
  cases d with
  | echo e => exact absurd rfl (hd e)
  | chip c' => rfl
  | wire src dst => rfl

theorem onSample_of_not_echo (c : Ctx) (pad : Pad) {d : Device} (hd : ∀ e, d ≠ .echo e) : d.onSample c pad = d := by
  cases d with
  | echo e => exact absurd rfl (hd e)
  | chip c' => rfl
  | wire src dst => rfl

/-- Without an echo, acceptance is told to no device. -/
theorem accept_of_noEcho (c : Ctx) (i : Instr) (bd : Bind) {s : State} (hs : s.noEcho) :
    accept c i bd s = (applyBind bd s).setSeq c (some (Seq.accepted s.now i)) := by
  have hmap := map_of_noEcho (noEcho_of_devices (t := (applyBind bd s).setSeq c (some (Seq.accepted s.now i))) hs (by simp))
    fun _ => onAccept_of_not_echo c i
  rw [accept, hmap]

/-- Without an echo, a sample is told to no device. -/
theorem sample_of_noEcho (c : Ctx) (p : Nat) (r : Reg) (b : Nat) (inv : Bool) {s : State} (hs : s.noEcho) :
    sample c p r b inv s = s.updSeq c fun q => { q with samp := Bool.xor ((s.regRead p r).getLsbD b) inv } := by
  have hmap := map_of_noEcho
    (noEcho_of_devices (t := s.updSeq c fun q => { q with samp := Bool.xor ((s.regRead p r).getLsbD b) inv }) hs (by simp))
    fun _ => onSample_of_not_echo c { port := p, bit := b }
  simp only [sample, hmap, ite_self]

/-! ### The two runs side by side -/

theorem applyUop_asForeign (b : State) (u : Uop) {s : State} (hs : s.noEcho) :
    applyUop .foreign u (b.asForeign s) = b.asForeign (applyUop .main u s) := by
  cases u with
  | acq => rfl
  | rel => rfl
  | ieWrite v => rfl
  | regRead p r => simp only [applyUop, regRead_asForeign b hs, asForeign_updSeq]
  | regWrite p r v => exact asForeign_regWrite ..
  | bitWrite p r i level inv =>
    simp only [applyUop, State.bitWrite, regRead_asForeign b hs, asForeign_regWrite, asForeign_seq]
  | sample p r i inv =>
    have hs' : (b.asForeign s).noEcho := hs
    simp only [applyUop, sample_of_noEcho _ p r i inv hs, sample_of_noEcho _ p r i inv hs', regRead_asForeign b hs,
      asForeign_updSeq]

theorem applyUop_devices (c : Ctx) (u : Uop) {s : State} (hs : s.noEcho) : (applyUop c u s).devices = s.devices := by
  cases u with
  | sample p r i inv => simp [applyUop, sample_of_noEcho c p r i inv hs]
  | _ => simp [applyUop]

/-- Nothing outside the block disturbs the run, or tells the contexts apart. -/
structure State.quiet (s : State) : Prop where
  noReset : s.noReset = true
  foreign : s.foreign = []
  noEcho : s.noEcho

theorem quiet_elapse {s : State} (hs : s.quiet) : (elapse s).quiet where
  noReset := noReset_elapse hs.noReset
  foreign := hs.foreign
  noEcho := noEcho_observe (s := { s with now := s.now + 1, ext := s.ext.tail, resets := s.resets.tail }) hs.noEcho none

theorem quiet_doUop (u : Uop) {s : State} (hs : s.quiet) : (doUop .main u s).quiet where
  noReset := noReset_kept.uop .main u s hs.noReset
  foreign := by simpa using hs.foreign
  noEcho := noEcho_observe (noEcho_of_devices hs.noEcho (by simp [applyUop_devices .main u hs.noEcho])) _

theorem quiet_doInternal (n : Internal) {s : State} (hs : s.quiet) : (doInternal .main n s).quiet where
  noReset := noReset_kept.internal .main n s hs.noReset
  foreign := by simpa using hs.foreign
  noEcho := noEcho_of_devices hs.noEcho (by simp [doInternal])

theorem quiet_accept (i : Instr) (bd : Bind) {s : State} (hs : s.quiet) : (accept .main i bd s).quiet where
  noReset := by simpa [State.noReset] using hs.noReset
  foreign := by simpa using hs.foreign
  noEcho := noEcho_of_devices hs.noEcho (by simp [accept_of_noEcho .main i bd hs.noEcho])

theorem doUop_asForeign (b : State) (u : Uop) {s : State} (hs : s.noEcho) :
    doUop .foreign u (b.asForeign s) = b.asForeign (doUop .main u s) := by
  have hmoved : ((applyUop .main u s).updSeq .main fun q => { q with pos := q.pos + 1 }).noEcho :=
    noEcho_of_devices hs (by simp [applyUop_devices .main u hs])
  simp only [doUop, applyUop_asForeign b u hs, asForeign_updSeq]
  exact observe_asForeign b hmoved _ _

theorem elapse_asForeign (b : State) {s : State} (hs : s.noEcho) : elapse (b.asForeign s) = b.asForeign (elapse s) :=
  observe_asForeign b (s := { s with now := s.now + 1, ext := s.ext.tail, resets := s.resets.tail }) hs none none

/-- The actions of a command go the same way in either context. -/
theorem runActs_asForeign (b : State) (acts : List Act) {s : State} (hs : s.quiet) :
    ∃ t, runActs .main boundary acts s = .live t ∧ runActs .foreign tick acts (b.asForeign s) = .live (b.asForeign t) ∧
      t.noReset = true := by
  induction acts generalizing s with
  | nil => exact ⟨s, rfl, rfl, hs.noReset⟩
  | cons a acts ih =>
    cases a with
    | int n => exact ih (quiet_doInternal n hs)
    | uop u =>
      have hq := quiet_elapse hs
      have hmain := boundary_of_unscheduled (noReset_resetDue hs.noReset) hs.foreign
      have hforeign : tick (b.asForeign s) = .live (b.asForeign (elapse s)) := by
        rw [tick_of_noReset (s := b.asForeign s) hs.noReset, elapse_asForeign b hs.noEcho]
      obtain ⟨t, ht, ht', hr⟩ := ih (quiet_doUop u hq)
      rw [← doUop_asForeign b u hq.noEcho] at ht'
      exact ⟨t, runActs_uop_eq_live.mpr ⟨_, hmain, ht⟩, runActs_uop_eq_live.mpr ⟨_, hforeign, ht'⟩, hr⟩

/-- Acceptance goes the same way in either context. -/
theorem accept_asForeign (i : Instr) (bd : Bind) {s : State} (hs : s.noEcho) :
    accept .foreign i bd s = s.asForeign (accept .main i bd { s with foreign := [] }) := by
  have hs' : ({ s with foreign := [] } : State).noEcho := hs
  rw [accept_of_noEcho _ i bd hs, accept_of_noEcho _ i bd hs']
  cases bd <;> rfl

/-- The checks of a command do not look at the foreign schedule (R114). -/
theorem planOf_foreign (i : Instr) (s : State) (rest : List (List CmdWord)) :
    planOf i { s with foreign := rest } = planOf i s := by
  cases i <;> rfl

/-- A command answers the same in either context, each on its own port (R83, R84). -/
theorem finish_asForeign (sel : ResultSel) {b t : State} (ht : t.foreignSeq = none) :
    (finish .foreign sel (b.asForeign t)).apart =
      { (finish .main sel t).apart with
        mainSeq := b.mainSeq, mainResp := b.mainResp
        foreignResps := b.foreignResps ++ [{ result := resultOf .main sel t, err := false }] } := by
  have hresult : resultOf .foreign sel (b.asForeign t) = resultOf .main sel t := by cases sel <;> rfl
  simp only [finish, hresult]
  simp [respond, State.setSeq, State.apart, State.asForeign, ht]

/-- A refused command sets the same flag in either context (R232). -/
theorem foreignCommand_refused {w : CmdWord} {i : Instr} {s : State} {f : Flag} (hs : s.noReset = true)
    (hd : decode w = .ok i) (hp : planOf i s = .refuse f) :
    foreignCommand w s = .live (elapse (refuse .foreign f s)) := by
  rw [foreignCommand_of_ok hd, hp]
  exact tick_of_noReset (noReset_kept.refuse .foreign f s hs)

/-- A command of the foreign context that runs does what the main context would do, and answers the same. -/
theorem foreignCommand_runs {w : CmdWord} {i : Instr} {s : State} {p : Plan} (hs : s.noReset = true)
    (hseq : s.foreignSeq = none) (he : s.noEcho) (hd : decode w = .ok i) (hp : planOf i s = .run p) :
    ∃ t, foreignCommand w s = .live (elapse (finish .foreign p.result (s.asForeign t))) ∧
      exec i { s with foreign := [] } = .next (finish .main p.result t) ∧ t.foreignSeq = none := by
  have hquiet : ({ s with foreign := [] } : State).quiet := ⟨hs, rfl, he⟩
  obtain ⟨t, hmain, hforeign, hr⟩ := runActs_asForeign s p.acts (quiet_accept i p.bind hquiet)
  have hsettles := runActs_settles boundary_settles_foreign p.acts
    ((accept_otherSeq { s with foreign := [] } .main i p.bind).trans hseq)
  rw [hmain] at hsettles
  refine ⟨t, ?_, exec_of_live ((planOf_foreign i s []).trans hp) hmain, hsettles⟩
  rw [foreignCommand_of_ok hd, hp, runCommand, accept_asForeign i p.bind he, hforeign]
  exact tick_of_noReset (noReset_kept.finish .foreign p.result (s.asForeign t) hr)

/-- Settles O59: a refusal, a run beside the main context's, and an illegal word. -/
theorem foreignCommandHasTheEffectOfItsRule : Obligations.ForeignCommandHasTheEffectOfItsRule := by
  intro w s hs hseq
  refine ⟨fun i hd he => ?_, fun e hd => ?_⟩
  · cases hp : planOf i s with
    | refuse f =>
      have hexec := exec_refuse i { s with foreign := [] } f ((planOf_foreign i s []).trans hp)
      exact ⟨_, _, _, foreignCommand_refused hs hd hp, hexec, rfl, by cases f <;> rfl⟩
    | run p =>
      obtain ⟨t, hc, hexec, hnone⟩ := foreignCommand_runs hs hseq he hd hp
      exact ⟨_, _, _, hc, hexec, rfl, (apart_elapse _).trans (finish_asForeign p.result hnone)⟩
  · refine ⟨elapse (refuse .foreign .ill s), ?_, rfl⟩
    rw [foreignCommand_of_error hd]
    exact tick_of_noReset (noReset_kept.refuse .foreign .ill s hs)

end Sys2Proof.Machine
end

