-- ==== Sys2Proof/Proofs/OpcodeMap.lean ====
section
/-!
PROOFS. The decoder read row by row (R112, R113): a word decodes exactly when it matches a row of the opcode map, to that
row's command, with the operands its fields carry.
-/

namespace Sys2Proof

open Sys2Proof.Machine

/-! ### The opcode map by command (R113) -/

/-- The row of the opcode map a command belongs to: the rows stand in the order of the constructors. -/
def rowOf (i : Instr) : OpcodeRow := opcodeMap[i.ctorIdx]'(by cases i <;> simp [Instr.ctorIdx, opcodeMap])

theorem rowOf_mem (i : Instr) : rowOf i ∈ opcodeMap := List.getElem_mem _

theorem mnemonic_rowOf (i : Instr) : (rowOf i).mnemonic = mnemonicOf i := by cases i <;> rfl

/-- A command for each row, in the order of the rows. -/
def oneForEachRow : List Instr :=
  [.nop, .statRd, .ieSet, .ieClr, .regRd 0 .input, .regWr 0 .input 0, .portBind 0 0 .reading 0 0, .portEnout 0,
    .portEnin 0, .portRead 0, .portWrite 0 0, .pinBindin 0 .noPin false, .pinBindout 0 .noPin false false false, .pinRead 0,
    .pinWrite 0 false, .pinToggle 0, .pinPulse 0 false, .shiftCfg 0 .shiftIn 0 0 0 .lsbFirst, .shiftIn 0, .shiftOut 0 0,
    .chipCfg 0 0 0 0 false, .chipWrite 0 0, .chipEnable 0, .chipDisable 0]

theorem map_rowOf_oneForEachRow : oneForEachRow.map rowOf = opcodeMap := rfl

/-- Every row is some command's. -/
theorem exists_rowOf_eq {r : OpcodeRow} (hr : r ∈ opcodeMap) : ∃ i, rowOf i = r := by
  rw [← map_rowOf_oneForEachRow] at hr
  obtain ⟨i, -, hi⟩ := List.mem_map.mp hr
  exact ⟨i, hi⟩

theorem nodup_mnemonics : (opcodeMap.map OpcodeRow.mnemonic).Nodup := by decide +kernel

/-- The mnemonic names the row. -/
theorem rowOf_eq_of_mnemonic {i : Instr} {r : OpcodeRow} (hr : r ∈ opcodeMap) (h : mnemonicOf i = r.mnemonic) :
    rowOf i = r :=
  List.inj_on_of_nodup_map nodup_mnemonics (rowOf_mem i) hr ((mnemonic_rowOf i).trans h)

/-! ### Every mask selects the opcode -/

theorem mask_extract_opc {r : OpcodeRow} (hr : r ∈ opcodeMap) : r.mask.extractLsb' 56 8 = 0xFF := by
  revert r; decide +kernel

/-- A word that matches a row has the row's opcode. -/
theorem opcOf_of_match {w : CmdWord} {r : OpcodeRow} (hr : r ∈ opcodeMap) (h : w &&& r.mask = r.value) :
    opcOf w = opcOf r.value := by
  have hopc : (w &&& r.mask).extractLsb' 56 8 = w.extractLsb' 56 8 := by
    rw [BitVec.extractLsb'_and, mask_extract_opc hr]
    exact BitVec.and_allOnes
  rw [← h, opcOf, opcOf, fieldAt, fieldAt, hopc]

theorem pairwise_opcOf_ne : opcodeMap.Pairwise fun a b => opcOf a.value ≠ opcOf b.value := by decide +kernel

/-- The masks make the rows disjoint (R113), since each holds an opcode of its own. -/
theorem opcodeMap_disjoint :
    opcodeMap.Pairwise fun a b => ∀ w : CmdWord, ¬ (w &&& a.mask = a.value ∧ w &&& b.mask = b.value) := by
  refine pairwise_opcOf_ne.imp_of_mem fun ha hb hne w ⟨hwa, hwb⟩ => hne ?_
  exact (opcOf_of_match ha hwa).symm.trans (opcOf_of_match hb hwb)

/-! ### The decoder by the row a word matches -/

/-- The command with the constructor of `i` and the operands the fields of `w` carry. -/
def reread (w : CmdWord) : Instr → Instr
  | .nop => .nop
  | .statRd => .statRd
  | .ieSet => .ieSet
  | .ieClr => .ieClr
  | .regRd _ _ => .regRd (auxLowOf w) (regSelOf w)
  | .regWr _ _ _ => .regWr (auxLowOf w) (regSelOf w) (dataOf w)
  | .portBind _ _ _ _ _ => .portBind (unitOf w) (auxLowOf w) (dirnOf w) (fieldAt w 0 6) (fieldAt w 8 6)
  | .portEnout _ => .portEnout (unitOf w)
  | .portEnin _ => .portEnin (unitOf w)
  | .portRead _ => .portRead (unitOf w)
  | .portWrite _ _ => .portWrite (unitOf w) (dataOf w)
  | .pinBindin _ _ _ => .pinBindin (unitOf w) (pinIdOf w) (flagAt w 0)
  | .pinBindout _ _ _ _ _ => .pinBindout (unitOf w) (pinIdOf w) (flagAt w 0) (flagAt w 1) (flagAt w 2)
  | .pinRead _ => .pinRead (unitOf w)
  | .pinWrite _ _ => .pinWrite (unitOf w) (flagAt w 0)
  | .pinToggle _ => .pinToggle (unitOf w)
  | .pinPulse _ _ => .pinPulse (unitOf w) (flagAt w 0)
  | .shiftCfg _ _ _ _ _ _ =>
      .shiftCfg (unitOf w) (modeOf w) (auxLowOf w) (auxHighOf w) (fieldAt w 0 6) (orderOf w)
  | .shiftIn _ => .shiftIn (unitOf w)
  | .shiftOut _ _ => .shiftOut (unitOf w) (dataOf w)
  | .chipCfg _ _ _ _ _ => .chipCfg (unitOf w) (auxLowOf w) (auxHighOf w) (fieldAt w 0 8) (flagAt w 8)
  | .chipWrite _ _ => .chipWrite (unitOf w) (dataOf w)
  | .chipEnable _ => .chipEnable (unitOf w)
  | .chipDisable _ => .chipDisable (unitOf w)

theorem mnemonicOf_reread (w : CmdWord) (i : Instr) : mnemonicOf (reread w i) = mnemonicOf i := by
  cases i <;> rfl

theorem ofRow_eq_ok {w : CmdWord} {name : String} {value mask : CmdWord} {i j : Instr} :
    ofRow w name value mask i = .ok j ↔ w &&& mask = value ∧ i = j := by
  unfold ofRow; split <;> simp [*]

/-- A word that matches the row of `i` decodes to that row's command: its opcode is the row's, which leads the decoder to
the row. -/
theorem decode_of_match {w : CmdWord} {i : Instr} (h : w &&& (rowOf i).mask = (rowOf i).value) :
    decode w = .ok (reread w i) := by
  have hopc := opcOf_of_match (rowOf_mem i) h
  unfold decode
  cases i
  all_goals
    simp only [rowOf, Instr.ctorIdx, opcodeMap, List.cons_append, List.nil_append, List.getElem_cons_succ,
      List.getElem_cons_zero] at hopc
    rw [hopc]
    exact ofRow_eq_ok.mpr ⟨h, rfl⟩

/-- A word that decodes matches the row of its command, whose operands are its fields. -/
theorem match_of_decode {w : CmdWord} {i : Instr} (h : decode w = .ok i) :
    w &&& (rowOf i).mask = (rowOf i).value ∧ reread w i = i := by
  unfold decode at h
  split at h
  case h_25 => cases h
  all_goals
    obtain ⟨hm, rfl⟩ := ofRow_eq_ok.mp h
    exact ⟨hm, rfl⟩

/-- A word decodes to a command of the row it matches, and of no other. -/
theorem match_iff_decode {w : CmdWord} {r : OpcodeRow} (hr : r ∈ opcodeMap) :
    w &&& r.mask = r.value ↔ ∃ i, decode w = .ok i ∧ mnemonicOf i = r.mnemonic := by
  constructor
  · intro hm
    obtain ⟨i, rfl⟩ := exists_rowOf_eq hr
    exact ⟨_, decode_of_match hm, (mnemonicOf_reread w i).trans (mnemonic_rowOf i).symm⟩
  · rintro ⟨i, hd, hi⟩
    rw [← rowOf_eq_of_mnemonic hr hi]
    exact (match_of_decode hd).1

/-- A word is illegal exactly when it matches no row (R112). -/
theorem decode_eq_error_iff {w : CmdWord} :
    (∃ e, decode w = .error e) ↔ ∀ r ∈ opcodeMap, w &&& r.mask ≠ r.value := by
  constructor
  · rintro ⟨e, he⟩ r hr hm
    obtain ⟨i, hd, -⟩ := (match_iff_decode hr).mp hm
    cases he.symm.trans hd
  · intro hno
    cases hd : decode w with
    | error e => exact ⟨e, rfl⟩
    | ok i => exact absurd (match_of_decode hd).1 (hno _ (rowOf_mem i))

/-- A step that takes an illegal word refuses it behind its boundary (R112). -/
theorem step_of_error {s t : State} {w : CmdWord} {rest : List CmdWord} {e : DecodeError} (hb : boundary s = .live t)
    (hc : t.cmds = w :: rest) (hd : decode w = .error e) : step s = .next (illegal .main { t with cmds := rest }) := by
  simp only [step, hb, takeCommand, hc, hd]

/-- Settles O1. -/
theorem wordDecodesToItsRow : Obligations.WordDecodesToItsRow :=
  ⟨fun _ _ => match_iff_decode, opcodeMap_disjoint⟩

/-- Settles O6. -/
theorem illegalWordOnlySetsIll : Obligations.IllegalWordOnlySetsIll := by
  refine ⟨fun _ => decode_eq_error_iff, fun s t w rest hb hc hno => ?_⟩
  obtain ⟨e, hd⟩ := decode_eq_error_iff.mpr hno
  exact step_of_error hb hc hd

end Sys2Proof
end

