-- ==== Sys2Proof/Proofs/Encoding.lean ====
section
/-!
PROOFS. The encoder against the decoder (R101 to R113): the fields of a word, put together again, are the word, and the
fields of an encoding are the operands of its command.
-/

namespace Sys2Proof

/-! ### Fields as numbers and bits -/

theorem fieldAt_eq_mod (w : CmdWord) (lo len : Nat) : fieldAt w lo len = w.toNat / 2 ^ lo % 2 ^ len := by
  simp [fieldAt, Nat.shiftRight_eq_div_pow]

theorem fieldAt_lt (w : CmdWord) (lo len : Nat) : fieldAt w lo len < 2 ^ len := BitVec.isLt _

theorem toNat_flagAt (w : CmdWord) (b : Nat) : (flagAt w b).toNat = fieldAt w b 1 := by
  rw [fieldAt_eq_mod, flagAt, ← BitVec.testBit_toNat, Nat.toNat_testBit, pow_one]

theorem flagAt_eq_fieldAt (w : CmdWord) (b : Nat) : flagAt w b = decide (fieldAt w b 1 = 1) := by
  rw [← toNat_flagAt]; cases flagAt w b <;> rfl

theorem putData_eq_putField (v : Word) : putData v = putField 0 32 v.toNat := by
  simp [putData, putField]

/-! ### Operands by the code their field holds (R101, R107 to R111) -/

theorem dataOf_eq_iff {w : CmdWord} {v : Word} : dataOf w = v ↔ fieldAt w 0 32 = v.toNat :=
  BitVec.toNat_inj.symm

theorem code_regSelOf (w : CmdWord) : (regSelOf w).code = fieldAt w 40 2 := by
  have hlt : fieldAt w 40 2 < 4 := fieldAt_lt w 40 2
  unfold regSelOf
  generalize fieldAt w 40 2 = n at hlt ⊢
  interval_cases n <;> rfl

theorem RegSel.code_injective : Function.Injective RegSel.code :=
  Function.LeftInverse.injective (g := fun n => [RegSel.input, .output, .direction].getD n .noRegister) fun reg => by
    cases reg <;> rfl

theorem regSelOf_eq_iff {w : CmdWord} {reg : RegSel} : regSelOf w = reg ↔ fieldAt w 40 2 = reg.code := by
  rw [← code_regSelOf, RegSel.code_injective.eq_iff]

theorem dirnOf_eq_iff {w : CmdWord} {dirn : Dirn} : dirnOf w = dirn ↔ flagAt w 40 = dirn.code := by
  cases dirn <;> simp [dirnOf, Dirn.code]

theorem orderOf_eq_iff {w : CmdWord} {order : BitOrder} : orderOf w = order ↔ flagAt w 8 = order.code := by
  cases order <;> simp [orderOf, BitOrder.code]

theorem modeOf_eq_iff {w : CmdWord} {mode : ShiftMode} : modeOf w = mode ↔ flagAt w 9 = mode.code := by
  cases mode <;> simp [modeOf, ShiftMode.code]

theorem RegSel.code_lt (reg : RegSel) : reg.code < 4 := by cases reg <;> decide

/-! ### Pin identifiers (R108) -/

theorem auxHighOf_eq_div (w : CmdWord) : auxHighOf w = fieldAt w 32 16 / 256 := by
  simp only [auxHighOf, fieldAt_eq_mod]; omega

theorem auxLowOf_eq_mod (w : CmdWord) : auxLowOf w = fieldAt w 32 16 % 256 := by
  simp only [auxLowOf, fieldAt_eq_mod]; omega

theorem wf_pinIdOf (w : CmdWord) : (pinIdOf w).wf = true := by
  have hlt := fieldAt_lt w 32 16
  unfold pinIdOf
  split
  · rfl
  · simp only [PinId.wf, fits8, auxHighOf_eq_div, auxLowOf_eq_mod, Bool.and_eq_true, Bool.not_eq_true', decide_eq_true_eq,
      Bool.and_eq_false_iff, decide_eq_false_iff_not]
    omega

/-- A pin identifier stands in AUX alone. -/
theorem PinId.fieldAt_put_apart (pin : PinId) (lo len : Nat) (hd : 48 ≤ lo ∨ lo + len ≤ 32) :
    fieldAt pin.put lo len = 0 := by
  cases pin with
  | noPin => exact fieldAt_putField_apart _ _ _ _ _ hd
  | pin port bit =>
    rw [PinId.put, fieldAt_or, fieldAt_putField_apart _ _ _ _ _ (by omega), fieldAt_putField_apart _ _ _ _ _ (by omega)]
    rfl

theorem PinId.flagAt_put_apart (pin : PinId) (b : Nat) (hd : b < 32) : flagAt pin.put b = false := by
  rw [flagAt_eq_fieldAt, fieldAt_put_apart _ _ _ (by omega)]; rfl

/-- What a mask that does not select AUX leaves of a pin identifier. -/
theorem PinId.put_and_zero (pin : PinId) (m : CmdWord) (hm : m.extractLsb' 32 16 = 0) : pin.put &&& m = 0 := by
  have haux : fieldAt m 32 16 = 0 := congrArg BitVec.toNat hm
  cases pin with
  | noPin => exact putField_and_zero _ _ _ _ hm
  | pin port bit =>
    have hhigh : m.extractLsb' 40 8 = 0 := BitVec.eq_of_toNat_eq ((auxHighOf_eq_div m).trans (by rw [haux]; rfl))
    have hlow : m.extractLsb' 32 8 = 0 := BitVec.eq_of_toNat_eq ((auxLowOf_eq_mod m).trans (by rw [haux]; rfl))
    rw [PinId.put, or_and_distrib, putField_and_zero _ _ _ _ hhigh, putField_and_zero _ _ _ _ hlow]
    rfl

theorem pinIdOf_congr {w x : CmdWord} (h : fieldAt w 32 16 = fieldAt x 32 16) : pinIdOf w = pinIdOf x := by
  simp only [pinIdOf, auxHighOf_eq_div, auxLowOf_eq_mod, h]

/-- A well-formed pin identifier is read back; the pin `(255, 255)` would be read as NO_PIN. -/
theorem pinIdOf_put {pin : PinId} (hpin : pin.wf = true) : pinIdOf pin.put = pin := by
  cases pin with
  | noPin => rfl
  | pin port bit =>
    simp only [PinId.wf, fits8, Bool.and_eq_true, Bool.not_eq_true', decide_eq_true_eq, Bool.and_eq_false_iff,
      decide_eq_false_iff_not] at hpin
    obtain ⟨⟨hport, hbit⟩, hne⟩ := hpin
    have hhigh : auxHighOf (PinId.pin port bit).put = port := by
      simp [auxHighOf, PinId.put, fieldAt_or, fieldAt_putField_self, fieldAt_putField_apart, hport]
    have hlow : auxLowOf (PinId.pin port bit).put = bit := by
      simp [auxLowOf, PinId.put, fieldAt_or, fieldAt_putField_self, fieldAt_putField_apart, hbit]
    have hpinned : fieldAt (PinId.pin port bit).put 32 16 ≠ 0xFFFF := by
      intro hno
      rw [auxHighOf_eq_div, hno] at hhigh
      rw [auxLowOf_eq_mod, hno] at hlow
      omega
    rw [pinIdOf, if_neg hpinned, hhigh, hlow]

/-! ### A word put together again from its own fields -/

/-- A field put back where it was read is what the word holds there. -/
theorem putField_fieldAt (w : CmdWord) (lo len : Nat) :
    putField lo len (fieldAt w lo len) = w &&& putField lo len (2 ^ len - 1) := by
  apply BitVec.eq_of_getLsbD_eq
  intro i hi
  simp only [putField_getLsbD, BitVec.getLsbD_and, fieldAt, BitVec.testBit_toNat, BitVec.getLsbD_extractLsb',
    Nat.testBit_two_pow_sub_one]
  by_cases h : lo ≤ i ∧ i < lo + len
  · have hoff : i - lo < len := by omega
    have hpos : lo + (i - lo) = i := by omega
    simp [hi, h, hoff, hpos]
  · rw [not_and_or] at h
    rcases h with h | h <;> simp [h]

theorem putFlag_flagAt (w : CmdWord) (b : Nat) : putFlag b (flagAt w b) = w &&& putField b 1 1 := by
  rw [putFlag, toNat_flagAt, putField_fieldAt, pow_one]

theorem putData_dataOf (w : CmdWord) : putData (dataOf w) = putField 0 32 (fieldAt w 0 32) := by
  rw [putData_eq_putField, dataOf_eq_iff.mp rfl]

theorem put_pinIdOf (w : CmdWord) : (pinIdOf w).put = putField 32 16 (fieldAt w 32 16) := by
  unfold pinIdOf
  split
  · next hno => rw [PinId.put, hno]
  · rw [PinId.put, auxHighOf, auxLowOf, putField_fieldAt, putField_fieldAt, putField_fieldAt, ← BitVec.and_or_distrib_left]
    rfl

/-- Encoding the fields of a word keeps its bits outside the row's mask, and sets those under the mask to the row's. -/
theorem encode_reread (w : CmdWord) (i : Instr) :
    encode (reread w i) = (rowOf i).value ||| (w &&& ~~~(rowOf i).mask) := by
  cases i
  all_goals
    simp only [rowOf, Instr.ctorIdx, opcodeMap, List.cons_append, List.nil_append, List.getElem_cons_succ,
      List.getElem_cons_zero, reread, encode, unitOf, auxLowOf, auxHighOf, putHead, putField_fieldAt, putFlag_flagAt,
      putData_dataOf, code_regSelOf, ← dirnOf_eq_iff.mp rfl, ← orderOf_eq_iff.mp rfl, ← modeOf_eq_iff.mp rfl,
      put_pinIdOf, BitVec.or_assoc, ← BitVec.and_or_distrib_left]
    simp [putField]

/-- The operands a word's fields carry fit those fields. -/
theorem wf_reread (w : CmdWord) (i : Instr) : (reread w i).wf = true := by
  have hlt8 (lo : Nat) : fieldAt w lo 8 < 256 := fieldAt_lt w lo 8
  have hlt6 (lo : Nat) : fieldAt w lo 6 < 64 := fieldAt_lt w lo 6
  cases i <;> simp [reread, Instr.wf, fits8, fits6, unitOf, auxLowOf, auxHighOf, hlt8, hlt6, wf_pinIdOf]

/-- A word that matches a row is the row's bits with its own outside the mask. -/
theorem value_or_of_match {w : CmdWord} {r : OpcodeRow} (h : w &&& r.mask = r.value) :
    r.value ||| (w &&& ~~~r.mask) = w := by
  rw [← h, ← BitVec.and_or_distrib_left, BitVec.or_not_self]
  exact BitVec.and_allOnes

/-- Settles O3: the command is put together from the word's fields, and so is its encoding. -/
theorem encodeOfDecode : Obligations.EncodeOfDecode := by
  intro w i hd
  obtain ⟨hm, hi⟩ := match_of_decode hd
  have henc := (encode_reread w i).trans (value_or_of_match hm)
  rw [hi] at henc
  exact ⟨hi ▸ wf_reread w i, henc⟩

/-! ### The fields of an encoding, read back -/

theorem fieldAt_putData_self (v : Word) : fieldAt (putData v) 0 32 = v.toNat := by
  rw [putData_eq_putField, fieldAt_putField_self _ _ _ (by decide) v.isLt]

theorem pinIdOf_eq_iff {w : CmdWord} {pin : PinId} (hpin : pin.wf = true) :
    pinIdOf w = pin ↔ fieldAt w 32 16 = fieldAt pin.put 32 16 := by
  constructor
  · rintro rfl
    rw [put_pinIdOf, fieldAt_putField_self _ _ _ (by decide) (fieldAt_lt w 32 16)]
  · exact fun h => (pinIdOf_congr h).trans (pinIdOf_put hpin)

theorem flagAt_putField_apart (lo len n b : Nat) (hd : lo + len ≤ b ∨ b < lo) : flagAt (putField lo len n) b = false := by
  rw [flagAt_eq_fieldAt, fieldAt_putField_apart _ _ _ _ _ hd]; rfl

theorem flagAt_putFlag_self (b : Nat) (v : Bool) (hb : b < 64) : flagAt (putFlag b v) b = v := by
  rw [flagAt_eq_fieldAt, putFlag, fieldAt_putField_self _ _ _ hb (Bool.toNat_lt v)]; cases v <;> rfl

theorem flagAt_putFlag_apart (b b' : Nat) (v : Bool) (hd : b ≠ b') : flagAt (putFlag b v) b' = false :=
  flagAt_putField_apart _ _ _ _ (by omega)

theorem fieldAt_putFlag_apart (b lo len : Nat) (v : Bool) (hd : b < lo ∨ lo + len ≤ b) : fieldAt (putFlag b v) lo len = 0 :=
  fieldAt_putField_apart _ _ _ _ _ (by omega)

/-- Every operand is read back from its field of the encoding: each field is apart from every other of its format. -/
theorem reread_encode {i : Instr} (h : i.wf = true) : reread (encode i) i = i := by
  cases i
  all_goals
    simp only [Instr.wf, fits8, fits6, Bool.and_eq_true, decide_eq_true_eq] at h
    simp [reread, encode, putHead, unitOf, auxLowOf, auxHighOf, dataOf_eq_iff, regSelOf_eq_iff, dirnOf_eq_iff,
      orderOf_eq_iff, modeOf_eq_iff, pinIdOf_eq_iff, fieldAt_or, fieldAt_putField_self, fieldAt_putField_apart,
      fieldAt_putFlag_apart, fieldAt_putData_self, fieldAt_putData_above, flagAt_putFlag_self, flagAt_putFlag_apart,
      flagAt_putField_apart, PinId.fieldAt_put_apart, PinId.flagAt_put_apart, RegSel.code_lt, h]

/-- An encoding matches the row of its command: outside its operands' fields it holds the opcode and zeros. -/
theorem encode_match (i : Instr) : encode i &&& (rowOf i).mask = (rowOf i).value := by
  cases i
  all_goals
    simp only [rowOf, Instr.ctorIdx, opcodeMap, List.cons_append, List.nil_append, List.getElem_cons_succ,
      List.getElem_cons_zero]
    simp (disch := decide) only [encode, putHead, putFlag, or_and_distrib, putField_and_zero, putData_and_zero,
      PinId.put_and_zero]
    rfl

/-- Settles O2: an encoding matches its row, and its fields carry the operands. -/
theorem decodeOfEncode : Obligations.DecodeOfEncode := by
  intro i hi
  rw [decode_of_match (encode_match i), reread_encode hi]

/-- The word of a command, checked by encoding the command. -/
theorem decode_of_encode_eq {w : CmdWord} {i : Instr} (hi : i.wf = true) (hw : encode i = w) : decode w = .ok i :=
  hw ▸ decodeOfEncode i hi

/-- Settles O4: the nine words are encodings, the two illegal ones match no row. -/
theorem workedEncodings : Obligations.WorkedEncodings := by
  refine ⟨decode_of_encode_eq ?_ ?_, decode_of_encode_eq ?_ ?_, decode_of_encode_eq ?_ ?_, decode_of_encode_eq ?_ ?_,
    decode_of_encode_eq ?_ ?_, decode_of_encode_eq ?_ ?_, decode_of_encode_eq ?_ ?_, decode_of_encode_eq ?_ ?_,
    decode_of_encode_eq ?_ ?_, decode_eq_error_iff.mpr ?_, decode_eq_error_iff.mpr ?_⟩
  all_goals decide +kernel

end Sys2Proof
end

