-- ==== Sys2Proof/Proofs/Acceptance.lean ====
section
/-!
PROOFS. What acceptance leaves as it was (R74, R90), and what a command of at most one micro-operation does: the pads show the
same whether or not such a command is in progress, unless it is a SHIFT.IN.
-/

namespace Sys2Proof.Machine

open Sys2Proof

/-! ### The pads while the main context's sequencer changes (R62, R90) -/

section Pads

variable {s : State} {q : Option Seq} (hq : Seq.shiftingIn q = Seq.shiftingIn s.mainSeq)

include hq

/-- The echo tells the main context's commands apart only by whether one is a SHIFT.IN (R90). -/
theorem answer_setSeq_main (e : Echo) : e.answer (s.setSeq .main q) = e.answer s := by
  have hwork : (s.setSeq .main q).atWork = s.atWork := rfl
  rw [Echo.answer, Echo.answer, hwork, setSeq_main_seq, hq, setSeq_main_foreignSeq]

theorem drives_setSeq_main (d : Device) : d.drives (s.setSeq .main q) = d.drives s := by
  cases d with
  | chip c => rfl
  | echo e => simp only [Device.drives, answer_setSeq_main hq]
  | wire src dst => rfl

theorem padWord_setSeq_main (p : Nat) : (s.setSeq .main q).padWord p = s.padWord p := by
  have hover : overlay (s.setSeq .main q) p = overlay s p := by
    funext v d
    rw [overlay, overlay, drives_setSeq_main hq]
  have hext : (s.setSeq .main q).extWord p = s.extWord p := by
    rw [State.extWord, hover]; rfl
  rw [State.padWord, hext]; rfl

theorem observe_setSeq_main (x : Option Ctx) : (s.setSeq .main q).observe x = (s.observe x).setSeq .main q := by
  have hsee : Device.see (s.setSeq .main q) x = Device.see s x := by
    funext d
    cases d <;> simp only [Device.see, State.padLevel, padWord_setSeq_main hq]
  rw [State.observe, hsee]; rfl

theorem elapse_setSeq_main : elapse (s.setSeq .main q) = (elapse s).setSeq .main q :=
  observe_setSeq_main (s := { s with now := s.now + 1, ext := s.ext.tail, resets := s.resets.tail }) hq none

theorem calmBoundary_setSeq_main : calmBoundary (s.setSeq .main q) = (calmBoundary s).setSeq .main q := by
  rw [calmBoundary, calmBoundary, elapse_setSeq_main hq, setSeq_ie]
  split <;> rfl

end Pads

@[simp] theorem calmBoundary_mainSeq (s : State) : (calmBoundary s).mainSeq = s.mainSeq := by
  rw [← apart_mainSeq, apart_calmBoundary, apart_mainSeq]

theorem outReg_calmBoundary (s : State) : (calmBoundary s).outReg = s.outReg := by
  unfold calmBoundary; split <;> rfl

/-! ### Acceptance (R74, R90) -/

/-- The commands an echo takes note of (R90). -/
def isShift (i : Instr) : Bool :=
  match i with
  | .shiftIn _ => true
  | .shiftOut _ _ => true
  | _ => false

theorem shiftingIn_of_not_isShift {q : Seq} (h : isShift q.cmd = false) : Seq.shiftingIn (some q) = false := by
  simp only [Seq.shiftingIn]
  split
  · next hcmd => simp [hcmd, isShift] at h
  · rfl

theorem onAccept_of_not_isShift (c : Ctx) {i : Instr} (h : isShift i = false) (d : Device) : d.onAccept c i = d := by
  cases d with
  | echo e =>
    cases i with
    | shiftIn k => cases h
    | shiftOut k v => cases h
    | _ => rfl
  | chip c' => rfl
  | wire src dst => rfl

/-- The acceptance of any other command is told to no device. -/
theorem accept_of_not_isShift (c : Ctx) {i : Instr} (bd : Bind) (s : State) (h : isShift i = false) :
    accept c i bd s = (applyBind bd s).setSeq c (some (Seq.accepted s.now i)) := by
  have hmap (ds : List Device) : ds.map (Device.onAccept c i) = ds :=
    (List.map_congr_left fun d _ => onAccept_of_not_isShift c h d).trans (List.map_id ds)
  rw [accept, hmap]

/-! ### Commands of no micro-operation, and of one -/

/-- A command without micro-operations only responds, whatever the schedule (R74). -/
theorem exec_of_noActs {i : Instr} {s : State} {sel : ResultSel} (hp : planOf i s = .run { result := sel })
    (hi : isShift i = false) :
    exec i s = .next (finish .main sel (s.setSeq .main (some (Seq.accepted s.now i)))) := by
  have hacc := accept_of_not_isShift .main .nothing s hi
  rw [exec_of_live hp rfl, hacc]; rfl

/-- A command of one micro-operation performs it behind its one calm boundary and responds (R74, R75). -/
theorem exec_of_uop {i : Instr} {s : State} {u : Uop} {sel : ResultSel} (hs : s.calm = true)
    (hp : planOf i s = .run { acts := [.uop u], result := sel }) :
    exec i s = .next (finish .main sel (doUop .main u (calmBoundary (accept .main i .nothing s)))) :=
  exec_of_live hp (runActs_uop_of_calm (calm_accept i .nothing hs) u [])

/-- The block at a command's first micro-operation, where it has bound nothing and no one disturbed its boundary. -/
theorem apart_calmBoundary_accept (i : Instr) (s : State) :
    (calmBoundary (accept .main i .nothing s)).apart = s.apart.setSeq .main (some (Seq.accepted s.now i)) := by
  rw [apart_calmBoundary, apart_accept]; rfl

/-- A response ends whatever the main context's sequencer held (R37). -/
theorem doneWith_setSeq (s : State) (q : Option Seq) (v : Word) : (s.setSeq .main q).doneWith v = s.doneWith v := rfl

end Sys2Proof.Machine
end

