-- ==== Sys2Proof/Proofs/SystemCommands.lean ====
section
/-!
PROOFS. The system commands (R130 to R136): what each one answers, and that it changes nothing but what its rule says.
-/

namespace Sys2Proof.Machine

open Sys2Proof

/-! ### The checks of REG.RD and REG.WR (R135, R136) -/

theorem planOf_regRd {s : State} {port : Nat} {reg : RegSel} {r : Reg} (hport : port < s.nports) (hr : regOf reg = some r) :
    planOf (.regRd port reg) s = .run { acts := [.uop (.regRead port r)], result := .tmp } := by
  simp [planOf, planRegRd, hr, checked, hport]

theorem planOf_regWr {s : State} {port : Nat} {reg : RegSel} {r : Reg} (value : Word) (hport : port < s.nports)
    (hr : regOf reg = some r) (hne : r ≠ .input) :
    planOf (.regWr port reg value) s = .run { acts := [.uop (.regWrite port r .val)] } := by
  simp [planOf, planRegWr, hr, checked, hport, hne]

/-! ### The response after one micro-operation, apart from the world -/

theorem apart_finish_ieWrite (v : Bool) (s : State) :
    (finish .main .zero (doUop .main (.ieWrite v) s)).apart = ({ s.apart with ie := v }).doneWith 0 := rfl

theorem apart_finish_regRead (p : Nat) (r : Reg) (s : State) :
    (finish .main .tmp (doUop .main (.regRead p r) s)).apart = s.apart.doneWith (s.regRead p r) := rfl

theorem apart_finish_regWrite (p : Nat) (r : Reg) (v : Src) (s : State) :
    (finish .main .zero (doUop .main (.regWrite p r v) s)).apart =
      (s.apart.regWrite p r (v.eval s.width (s.seq .main))).doneWith 0 := by
  cases r <;> rfl

/-! ### NOP and STAT.RD (R130, R131) -/

/-- Settles O11: NOP is the command whose encoding is the all-zero word. -/
theorem nopDoesNothing : Obligations.NopDoesNothing :=
  ⟨decode_of_encode_eq (i := .nop) rfl rfl, fun _ => exec_of_noActs (i := .nop) (sel := .zero) rfl rfl⟩

/-- Settles O12: STATUS holds nothing of a sequencer. -/
theorem statRdAnswersStatus : Obligations.StatRdAnswersStatus :=
  fun _ => exec_of_noActs (i := .statRd) (sel := .status) rfl rfl

/-! ### IE.SET and IE.CLR (R132, R133) -/

/-- A command that only writes `IE`. -/
theorem exec_of_ieWrite {i : Instr} {s : State} {v : Bool} (hs : s.calm = true)
    (hp : planOf i s = .run { acts := [.uop (.ieWrite v)] }) :
    ∃ t, exec i s = .next t ∧ t.apart = ({ s.apart with ie := v }).doneWith 0 := by
  refine ⟨_, exec_of_uop hs hp, ?_⟩
  rw [apart_finish_ieWrite, apart_calmBoundary_accept]; rfl

/-- Settles O14. -/
theorem ieCommandsWriteIe : Obligations.IeCommandsWriteIe :=
  fun _ hs => ⟨exec_of_ieWrite hs rfl, exec_of_ieWrite hs rfl⟩

/-! ### REG.RD (R135) -/

/-- A register read of a command that is no shift, behind its boundary: the command in progress makes no difference to what
the pads show (R62). -/
theorem regRead_calmBoundary_accept {i : Instr} {s : State} (hs : s.idle = true) (hi : isShift i = false) (p : Nat)
    (r : Reg) :
    (calmBoundary (accept .main i .nothing s)).regRead p r = (calmBoundary s).regRead p r := by
  obtain ⟨hmain, -⟩ := (idle_iff s).mp hs
  have hq : Seq.shiftingIn (some (Seq.accepted s.now i)) = Seq.shiftingIn s.mainSeq := by
    rw [hmain]; exact shiftingIn_of_not_isShift hi
  rw [accept_of_not_isShift _ _ _ hi, applyBind, calmBoundary_setSeq_main hq]
  cases r with
  | input => exact padWord_setSeq_main (hq.trans (by rw [calmBoundary_mainSeq])) p
  | output => rfl
  | direction => rfl

/-- Settles O15: the read stands behind the command's one boundary, which leaves `OUT` and `DIR`. -/
theorem regRdAnswersTheRegister : Obligations.RegRdAnswersTheRegister := by
  intro s port reg r hs hidle hport hr
  refine ⟨_, exec_of_uop hs (planOf_regRd hport hr), ?_⟩
  rw [apart_finish_regRead, apart_calmBoundary_accept, doneWith_setSeq, regRead_calmBoundary_accept hidle rfl]
  cases r with
  | input => rfl
  | output => rw [State.regRead, outReg_calmBoundary]
  | direction => rw [State.regRead, dirReg_calmBoundary]

/-! ### REG.WR (R136) -/

/-- REG.WR of `OUT` or `DIR` is a `RegWrite` of its operand (R65). -/
theorem exec_regWr {s : State} {port : Nat} {reg : RegSel} {r : Reg} (value : Word) (hs : s.calm = true)
    (hport : port < s.nports) (hr : regOf reg = some r) (hne : r ≠ .input) :
    ∃ t, exec (.regWr port reg value) s = .next t ∧ t.apart = (s.apart.regWrite port r value).doneWith 0 := by
  refine ⟨_, exec_of_uop hs (planOf_regWr value hport hr hne), ?_⟩
  have hval : Src.val.eval (calmBoundary (accept .main (.regWr port reg value) .nothing s)).width
      ((calmBoundary (accept .main (.regWr port reg value) .nothing s)).seq .main) = value := by
    rw [calmBoundary_seq]; rfl
  rw [apart_finish_regWrite, hval, apart_calmBoundary_accept]
  cases r <;> rfl

/-- Settles O16. -/
theorem regWrReplacesTheRegister : Obligations.RegWrReplacesTheRegister :=
  fun _ _ value hs hport =>
    ⟨exec_regWr value hs hport (reg := .output) rfl (by decide),
      exec_regWr value hs hport (reg := .direction) rfl (by decide)⟩

end Sys2Proof.Machine
end

