-- ==== Sys2Proof/Proofs/PortMerge.lean ====
section
/-!
PROOFS. The arithmetic of the Port Handle commands: the masked merge (R159, R161, R163), the field a PORT.READ shifts down
(R158), and the bits a direction update leaves in DIR (R153, R155).
-/

namespace Sys2Proof.Machine

open Sys2Proof

/-! ### The masked merge (R159, R161) -/

/-- A word that fits the register has no bit at or above `W`. -/
theorem lt_bits_of_trunc_eq {w : Width} {v : Word} (hv : trunc w v = v) {i : Nat} (hi : v.getLsbD i = true) :
    i < w.bits := by
  rw [← hv, trunc_getLsbD, Bool.and_eq_true, decide_eq_true_eq] at hi
  exact hi.2

/-- Both steps of the merge at one bit: the OR step asserts, the AND step clears. -/
theorem merge_getLsbD (w : Width) (start : Nat) (mask v raw : Word) (i : Nat) :
    (merge w start mask v raw).getLsbD i =
      ((v.getLsbD i || (trunc w (raw <<< start)).getLsbD i && mask.getLsbD i) &&
        ((trunc w (raw <<< start)).getLsbD i || (!mask.getLsbD i && decide (i < w.bits)))) := by
  have hand : (trunc w (~~~mask)).getLsbD i = (!mask.getLsbD i && decide (i < w.bits)) := by
    have hw := Width.bits_le w
    rw [trunc_getLsbD, BitVec.getLsbD_not]
    by_cases hin : i < w.bits
    · rw [decide_eq_true (lt_of_lt_of_le hin hw), Bool.true_and]
    · simp [hin]
  simp only [merge, BitVec.getLsbD_and, BitVec.getLsbD_or, hand]

/-- Inside the mask the merge has the shifted value's bit. -/
theorem merge_getLsbD_inside (w : Width) (start : Nat) {mask : Word} (v raw : Word) {i : Nat}
    (hi : mask.getLsbD i = true) : (merge w start mask v raw).getLsbD i = (trunc w (raw <<< start)).getLsbD i := by
  rw [merge_getLsbD, hi]
  cases (trunc w (raw <<< start)).getLsbD i <;> simp

/-- Outside the mask the merge has the old bit. -/
theorem merge_getLsbD_outside {w : Width} (start : Nat) {mask v : Word} (raw : Word) (hv : trunc w v = v) {i : Nat}
    (hi : mask.getLsbD i = false) : (merge w start mask v raw).getLsbD i = v.getLsbD i := by
  rw [merge_getLsbD, hi]
  cases hbit : v.getLsbD i with
  | false => simp
  | true => simp [lt_bits_of_trunc_eq hv hbit]

/-- Settles O22, from the bits inside and outside the mask. -/
theorem mergeBitByBit : Obligations.MergeBitByBit := by
  intro w start mask v raw hv hmask
  refine ⟨fun i => ?_, BitVec.eq_of_getLsbD_eq fun i hi => ?_⟩
  · cases hm : mask.getLsbD i with
    | false => exact merge_getLsbD_outside start raw hv hm
    | true =>
      have hin := lt_bits_of_trunc_eq hmask hm
      have h32 : i < 32 := lt_of_lt_of_le hin (Width.bits_le w)
      simp only [merge_getLsbD_inside w start v raw hm, trunc_getLsbD, BitVec.getLsbD_shiftLeft, hin, h32, decide_true,
        Bool.true_and, Bool.and_true, if_true, ← decide_not, not_lt]
  · rw [BitVec.getLsbD_or, BitVec.getLsbD_and, BitVec.getLsbD_and, BitVec.getLsbD_not]
    cases hm : mask.getLsbD i with
    | false => simp only [merge_getLsbD_outside start raw hv hm, hi, decide_true, Bool.not_false, Bool.and_true,
        Bool.and_false, Bool.or_false]
    | true => simp only [merge_getLsbD_inside w start v raw hm, Bool.not_true, Bool.and_false, Bool.and_true,
        Bool.false_or]

/-- Settles O23: the merge is the masked formula, and a full mask leaves nothing of the old value. -/
theorem fullWidthMergeIsTheValue : Obligations.FullWidthMergeIsTheValue := by
  intro s h v raw hok hfull hv
  have hmask : trunc s.width (h.mask s.width) = h.mask s.width := trunc_trunc ..
  have hvalue := maskedInto_of_full hok hfull v raw
  rw [hv] at hvalue
  exact (mergeBitByBit s.width h.start (h.mask s.width) v raw hv hmask).2.trans hvalue

/-! ### The masked value and the field read back (R158, R161) -/

/-- The masked value fits the register. -/
theorem trunc_maskedInto (w : Width) (h : PortHandle) (v raw : Word) :
    trunc w (maskedInto w h (trunc w v) raw) = maskedInto w h (trunc w v) raw := by
  rw [← trunc_merge, trunc_trunc]

/-- The field of the masked value, shifted down, is the value cut to the handle's bits (R158, R162). -/
theorem field_maskedInto {w : Width} {h : PortHandle} (hfit : h.start + h.nbits ≤ w.bits) (v raw : Word) :
    (maskedInto w h v raw &&& h.mask w) >>> h.start = raw &&& ones h.nbits := by
  have hw := Width.bits_le w
  apply BitVec.eq_of_getLsbD_eq
  intro i hi
  rw [BitVec.getLsbD_and, ones_getLsbD _ _ (by omega), BitVec.getLsbD_ushiftRight, BitVec.getLsbD_and,
    mask_getLsbD w h hfit]
  by_cases hn : i < h.nbits
  · have hin : h.start + i < w.bits := by omega
    have h32 : h.start + i < 32 := by omega
    have hbit : (maskedInto w h v raw).getLsbD (h.start + i) = raw.getLsbD i := by
      simp [maskedInto, -BitVec.getLsbD_eq_getElem, mask_getLsbD w h hfit, hn, hin, h32]
    simp only [hbit, hn, Nat.le_add_right, Nat.add_lt_add_iff_left, and_self]
  · simp only [hn, Nat.add_lt_add_iff_left, and_false, decide_false, Bool.and_false]

/-! ### Direction bits (R153, R155) -/

/-- A register's bits with those of a mask set, or cleared. -/
def maskedTo (m v : Word) (set : Bool) : Word := if set then v ||| m else v &&& ~~~m

theorem trunc_maskedTo (w : Width) (m v : Word) (set : Bool) :
    trunc w (maskedTo (trunc w m) (trunc w v) set) = maskedTo (trunc w m) (trunc w v) set := by
  apply BitVec.eq_of_getLsbD_eq
  intro i _
  cases set <;> cases hin : decide (i < w.bits) <;> simp [maskedTo, hin]

/-- A full mask leaves nothing of the old bits. -/
theorem maskedTo_ones (w : Width) (v : Word) (set : Bool) :
    maskedTo (ones w.bits) (trunc w v) set = trunc w (if set then ones w.bits else 0) := by
  apply BitVec.eq_of_getLsbD_eq
  intro i _
  cases set <;> cases hin : decide (i < w.bits) <;> simp [maskedTo, ones_getLsbD _ _ (Width.bits_le w), hin]

/-- `enable_as_outputs` and `enable_as_inputs`, apart from their sequence, are one `RegWrite` of DIR (R65, R153, R155). -/
theorem directed_eq_regWrite (s : State) (h : PortHandle) (outputs : Bool) :
    s.directed h outputs = s.regWrite h.port .direction (maskedTo (h.mask s.width) (s.dirReg h.port) outputs) := by
  simp only [State.regWrite, State.dirReg, PortHandle.mask, trunc_maskedTo]
  rfl

end Sys2Proof.Machine
end

