-- ==== Sys2Proof/Proofs/PortCommands.lean ====
section
/-!
PROOFS. The Port Handle commands (R150 to R165) at calm states: what each one answers, and that it changes nothing but what
its rule says.
-/

namespace Sys2Proof.Machine

open Sys2Proof

/-- What a valid handle keeps (R30). -/
theorem portHandleOk_iff (s : State) (h : PortHandle) :
    s.portHandleOk h = true ↔ h.port < s.nports ∧ 1 ≤ h.nbits ∧ h.start + h.nbits ≤ s.width.bits := by
  simp [State.portHandleOk, and_assoc]

/-! ### The direction update (R153 to R156) -/

/-- The direction update of PORT.ENOUT and of PORT.ENIN. -/
def directionActs (w : Width) (h : PortHandle) (outputs : Bool) : List Act :=
  if outputs then enoutActs w h else eninActs w h

theorem directionActs_of_full {w : Width} {h : PortHandle} (hfull : h.full w = true) (outputs : Bool) :
    directionActs w h outputs = [.uop (.regWrite h.port .direction (.const (if outputs then ones w.bits else 0)))] := by
  cases outputs <;> simp [directionActs, enoutActs, eninActs, hfull]

theorem directionActs_of_not_full {w : Width} {h : PortHandle} (hfull : h.full w = false) (outputs : Bool) :
    directionActs w h outputs =
      lockedRMW h.port .direction (if outputs then .tmpOr (h.mask w) else .tmpAndNot (h.mask w)) := by
  cases outputs <;> simp [directionActs, enoutActs, eninActs, hfull]

/-- One store or a locked read-modify-write, the direction bits stand as `directed` says. -/
theorem actsApart_directionActs {a : State} {q : Seq} {h : PortHandle} (hq : a.mainSeq = some q)
    (hok : a.portHandleOk h = true) (outputs : Bool) :
    ∃ q', actsApart (directionActs a.width h outputs) a = (a.directed h outputs).setSeq .main (some q') := by
  rw [directed_eq_regWrite]
  cases hfull : h.full a.width with
  | true =>
    obtain ⟨-, -, hwhole⟩ := maskOfAHandle a h hok
    obtain ⟨-, hmask⟩ := hwhole hfull
    refine ⟨{ q with pos := q.pos + 1 }, ?_⟩
    rw [directionActs_of_full hfull, hmask, State.dirReg, maskedTo_ones]
    simp [actsApart, uopApart, applyUop, Src.eval, State.updSeq, State.setSeq, State.seq, State.regWrite, hq, trunc_trunc]
  | false =>
    refine ⟨afterRMW (a.dirReg h.port) a.ie q, ?_⟩
    rw [directionActs_of_not_full hfull, actsApart_lockedRMW _ _ _ _ _ hq]
    cases outputs <;> rfl

/-- At a calm state the foreign context is silent, or `IE = 0` holds it off. -/
theorem silent_or_masked {s : State} (hs : s.calm = true) :
    (s.foreign.all fun ws => ws.isEmpty) = true ∨ s.ie = false := by
  simpa [State.undisturbed, or_comm] using calm_undisturbed hs

theorem heldOff_directionActs {silent : Bool} {a : State} (ha : silent = true ∨ a.ie = false) (w : Width) (h : PortHandle)
    (outputs : Bool) : heldOff silent (directionActs w h outputs) a = true := by
  cases hfull : h.full w with
  | true => rw [directionActs_of_full hfull]; simpa [heldOff, Uop.readsPad] using ha
  | false => rw [directionActs_of_not_full hfull]; exact heldOff_lockedRMW _ _ _ _ _ (by decide) ha

/-! What acceptance leaves of what a direction update depends on. -/

@[simp] theorem acceptApart_width (i : Instr) (b : Bind) (s : State) : (acceptApart i b s).width = s.width := by
  cases b <;> rfl
@[simp] theorem acceptApart_ie (i : Instr) (b : Bind) (s : State) : (acceptApart i b s).ie = s.ie := by
  cases b <;> rfl
@[simp] theorem acceptApart_portHandleOk (i : Instr) (b : Bind) (s : State) (h : PortHandle) :
    (acceptApart i b s).portHandleOk h = s.portHandleOk h := by
  cases b <;> rfl

/-- A command that binds a descriptor or none and then updates a handle's direction does that and responds. -/
theorem exec_of_directionActs {i : Instr} {s : State} {b : Bind} {h : PortHandle} {outputs : Bool} (hs : s.calm = true)
    (hok : s.portHandleOk h = true) (hp : planOf i s = .run { bind := b, acts := directionActs s.width h outputs }) :
    ∃ t, exec i s = .next t ∧ t.apart = ((applyBind b s.apart).directed h outputs).doneWith 0 := by
  have hoff : heldOff (s.foreign.all fun ws => ws.isEmpty) (directionActs s.width h outputs) (acceptApart i b s) = true :=
    heldOff_directionActs (by rw [acceptApart_ie]; exact silent_or_masked hs) ..
  obtain ⟨t, ht, hapart⟩ := exec_calm i s _ hp hs hoff
  obtain ⟨q', hacts⟩ := actsApart_directionActs (a := acceptApart i b s) (q := Seq.accepted s.now i) rfl
    (by rw [acceptApart_portHandleOk, hok]) outputs
  rw [acceptApart_width] at hacts
  refine ⟨t, ht, ?_⟩
  rw [hapart, hacts, finish_setSeq]
  rfl

/-! ### PORT.BIND (R151) -/

/-- A slot that exists and holds nothing is free (R35). -/
theorem freeSlot_of_join {α : Type} {table : List (Option α)} {k : Nat} (hk : k < table.length)
    (hj : (table[k]?).join = none) : freeSlot table k = true := by
  rw [List.getElem?_eq_getElem hk, Option.join_some] at hj
  simp [freeSlot, List.getElem?_eq_getElem hk, hj]

theorem planOf_portBind {s : State} {k port : Nat} {dirn : Dirn} {start nbits : Nat} (hk : k < s.ph.length)
    (hslot : s.portSlot k = none) (hport : port < s.nports) (hn : 1 ≤ nbits) (hfit : start + nbits ≤ s.width.bits) :
    planOf (.portBind k port dirn start nbits) s =
      .run
        { bind := .ph k { port := port, dirn := dirn, start := start, nbits := nbits }
          acts := directionActs s.width { port := port, dirn := dirn, start := start, nbits := nbits }
            (decide (dirn = .writing)) } := by
  have hfree := freeSlot_of_join hk hslot
  cases dirn <;> simp [planOf, planPortBind, checked, hfree, hport, hn, hfit, directionActs]

/-- Settles O17. -/
theorem portBindBindsAndDirects : Obligations.PortBindBindsAndDirects := by
  intro s k port dirn start nbits hs hk hslot hport hn hfit h
  have hok : s.portHandleOk h = true := (portHandleOk_iff s h).mpr ⟨hport, hn, hfit⟩
  exact exec_of_directionActs hs hok (planOf_portBind hk hslot hport hn hfit)

/-! ### PORT.ENOUT and PORT.ENIN (R153 to R156) -/

theorem planOf_portEnout {s : State} {k : Nat} {h : PortHandle} (hslot : s.portSlot k = some h) :
    planOf (.portEnout k) s = .run { acts := directionActs s.width h true } := by
  simp [planOf, planPortEnout, hslot, directionActs]

theorem planOf_portEnin {s : State} {k : Nat} {h : PortHandle} (hslot : s.portSlot k = some h) :
    planOf (.portEnin k) s = .run { acts := directionActs s.width h false } := by
  simp [planOf, planPortEnin, hslot, directionActs]

/-- Settles O18. -/
theorem portDirectionFollowsTheMask : Obligations.PortDirectionFollowsTheMask :=
  fun _ _ _ hs hslot hok =>
    ⟨exec_of_directionActs hs hok (planOf_portEnout hslot), exec_of_directionActs hs hok (planOf_portEnin hslot)⟩

/-! ### PORT.READ (R157, R158) -/

/-- The register PORT.READ reads (R158). -/
def readReg (dirn : Dirn) : Reg :=
  match dirn with
  | .writing => .output
  | .reading => .input

theorem planOf_portRead {s : State} {k : Nat} {h : PortHandle} (hslot : s.portSlot k = some h) :
    planOf (.portRead k) s =
      .run { acts := [.uop (.regRead h.port (readReg h.dirn))], result := .tmpField (h.mask s.width) h.start } := by
  cases hd : h.dirn <;> simp [planOf, planPortRead, hslot, hd, readReg]

theorem apart_finish_regRead_field (p : Nat) (r : Reg) (mask : Word) (start : Nat) (s : State) :
    (finish .main (.tmpField mask start) (doUop .main (.regRead p r) s)).apart =
      s.apart.doneWith ((s.regRead p r &&& mask) >>> start) := rfl

/-- PORT.READ answers the field of what its one read gives, behind its one boundary. -/
theorem exec_portRead {s : State} {k : Nat} {h : PortHandle} (hs : s.calm = true) (hslot : s.portSlot k = some h) :
    ∃ t, exec (.portRead k) s = .next t ∧
      t.apart = s.apart.doneWith
        (((calmBoundary (accept .main (.portRead k) .nothing s)).regRead h.port (readReg h.dirn) &&& h.mask s.width)
          >>> h.start) := by
  refine ⟨_, exec_of_uop hs (planOf_portRead hslot), ?_⟩
  rw [apart_finish_regRead_field, apart_calmBoundary_accept, doneWith_setSeq]

/-- Settles O19: the read stands behind the command's one boundary, which leaves `OUT`. -/
theorem portReadAnswersTheField : Obligations.PortReadAnswersTheField := by
  intro s k h hs hidle hslot
  obtain ⟨t, ht, hapart⟩ := exec_portRead hs hslot
  rw [regRead_calmBoundary_accept hidle rfl] at hapart
  refine ⟨t, ht, hapart.trans ?_⟩
  cases h.dirn with
  | writing => rw [readReg, State.regRead, outReg_calmBoundary]
  | reading => rfl

/-! ### PORT.WRITE (R160 to R163) -/

/-- Settles O20: a calm boundary is the one at which a foreign schedule leaves all as it was. -/
theorem portWriteMergesTheValue : Obligations.PortWriteMergesTheValue := by
  intro s k value h hs hslot hok hw
  have hcalm := boundary_calm _ (calm_accept (.portWrite k value) .nothing hs)
  obtain ⟨t, ht, hapart⟩ := portWriteLosesNoForeignWrite s _ k value h (calm_noReset hs) hslot hok hw hcalm
  refine ⟨t, ht, ?_⟩
  rw [hapart, ← apart_ports, ← outReg_apart, apart_calmBoundary_accept]
  rfl

/-! ### What was written is read back (R162) -/

/-- A command whose actions leave a calm state calm leaves one. -/
theorem calm_exec {i : Instr} {s t : State} (hs : s.calm = true) (h : (planOf i s).meets fun p => KeepsDir p.acts)
    (ht : exec i s = .next t) : t.calm = true := by
  cases hp : planOf i s with
  | refuse f =>
    obtain rfl := Host.Outcome.next.inj ((exec_refuse i s f hp).symm.trans ht)
    exact calm_of hs (by simp) (by simp) (by simp)
  | run p =>
    rw [hp] at h
    obtain ⟨u, hrun, hu, -⟩ := h _ (calm_accept i p.bind hs)
    obtain rfl := Host.Outcome.next.inj ((exec_of_live hp hrun).symm.trans ht)
    exact calm_of hu (by simp) (by simp [finish]) (by simp)

/-- `OUT` behind PORT.WRITE holds the value inside the mask; the handles and the width are as before. -/
theorem portWrite_leaves {s t : State} {k : Nat} {value : Word} {h : PortHandle} (hs : s.calm = true)
    (hslot : s.portSlot k = some h) (hok : s.portHandleOk h = true) (hw : h.dirn = .writing)
    (ht : exec (.portWrite k value) s = .next t) :
    t.portSlot k = some h ∧ t.width = s.width ∧ t.outReg h.port = maskedInto s.width h (s.outReg h.port) value := by
  obtain ⟨t', ht', hapart⟩ := portWriteMergesTheValue s k value h hs hslot hok hw
  obtain rfl := Host.Outcome.next.inj (ht'.symm.trans ht)
  obtain ⟨hport, -, -⟩ := (portHandleOk_iff s h).mp hok
  have hwrite : t'.apart =
      (s.apart.regWrite h.port .output (maskedInto s.width h (s.outReg h.port) value)).doneWith 0 := by
    rw [hapart, State.regWrite, apart_width, State.outReg, trunc_maskedInto]; rfl
  refine ⟨?_, ?_, ?_⟩
  · rw [← portSlot_apart, hapart]; exact hslot
  · rw [← apart_width, hapart]; rfl
  · calc t'.outReg h.port
        = (s.apart.regWrite h.port .output (maskedInto s.width h (s.outReg h.port) value)).outReg h.port := by
          rw [← outReg_apart, hwrite]; rfl
      _ = trunc s.width (maskedInto s.width h (s.outReg h.port) value) := by
          rw [outReg_regWrite, if_pos ⟨rfl, hport, rfl⟩, apart_width]
      _ = maskedInto s.width h (s.outReg h.port) value := trunc_maskedInto ..

/-- A read of `OUT` behind a command's boundary: acceptance and a calm boundary leave it. -/
theorem outReg_calmBoundary_accept (i : Instr) (s : State) (p : Nat) :
    (calmBoundary (accept .main i .nothing s)).outReg p = s.outReg p := by
  rw [← outReg_apart, apart_calmBoundary_accept]; rfl

/-- Settles O24: the read finds a calm state and the masked value in `OUT`. -/
theorem portReadGivesWhatWasWritten : Obligations.PortReadGivesWhatWasWritten := by
  intro s t k value h hs hslot hok hw ht
  have hcalm := calm_exec (i := .portWrite k value) hs (planPortWrite_keepsDir k s) ht
  obtain ⟨hslot', hwidth, hout⟩ := portWrite_leaves hs hslot hok hw ht
  obtain ⟨u, hu, hapart⟩ := exec_portRead hcalm hslot'
  obtain ⟨-, -, hfit⟩ := (portHandleOk_iff s h).mp hok
  rw [hw, readReg, State.regRead, outReg_calmBoundary_accept, hout, hwidth, field_maskedInto hfit] at hapart
  exact ⟨u, hu, by rw [State.answered, ← apart_mainResp, hapart]; rfl⟩

end Sys2Proof.Machine
end

