-- ==== Sys2Proof/Proofs/PinSequences.lean ====
section
/-!
PROOFS. The sequences the Pin Handle commands are made of (R172 to R180), apart from the world: what a write, a read and a
direction write do to the block, and that a command made of them responds with just that at a calm state.
-/

namespace Sys2Proof.Machine

open Sys2Proof

/-! ### Calm commands that read no pad (R75) -/

/-- Actions none of which reads a pad. -/
def ReadsNoPad (acts : List Act) : Prop := ∀ u, .uop u ∈ acts → u.readsPad = false

theorem readsNoPad_append {xs ys : List Act} (hx : ReadsNoPad xs) (hy : ReadsNoPad ys) : ReadsNoPad (xs ++ ys) :=
  fun u hu => (List.mem_append.mp hu).elim (hx u) (hy u)

/-- A critical section gives `IE` back (R70, R71), here with no boundary on the way. -/
theorem actsApart_ie {acts : List Act} (h : Sectioned acts) (a : State) : (actsApart acts a).ie = a.ie := by
  induction h generalizing a with
  | nil => rfl
  | int n => exact doInternal_ie ..
  | uop u hu => exact doUop_ie hu a
  | locked p r f => cases r <;> rfl
  | append _ _ ihx ihy => rw [actsApart_append, ihy, ihx]

/-- Where the foreign context has nothing to do, or `IE` is 0 to begin with, it is held off at every boundary. -/
theorem heldOff_of_sectioned {silent : Bool} {acts : List Act} (h : Sectioned acts) (hpads : ReadsNoPad acts) {a : State}
    (ha : silent = true ∨ a.ie = false) : heldOff silent acts a = true := by
  induction h generalizing a with
  | nil => rfl
  | int n => rfl
  | uop u hu => simpa [heldOff, hpads u (by simp)] using ha
  | locked p r f =>
    refine heldOff_lockedRMW _ _ _ _ _ ?_ ha
    rintro rfl
    cases hpads (.regRead p .input) (by simp [lockedRMW])
  | append hx _ ihx ihy =>
    have hxs := ihx (fun u hu => hpads u (List.mem_append_left _ hu)) ha
    have hys := ihy (fun u hu => hpads u (List.mem_append_right _ hu)) (by rwa [actsApart_ie hx])
    rw [heldOff_append, hxs, hys, Bool.and_self]

/-- A response ends whatever the main context's sequencer held (R37, R84). -/
theorem finish_zero (a : State) : finish .main .zero a = a.doneWith 0 := rfl

/-- A calm command that reads no pad responds with 0 and leaves what its actions alone leave. -/
theorem exec_of_actsApart {i : Instr} {s x : State} {b : Bind} {acts : List Act} {q : Option Seq} (hs : s.calm = true)
    (hp : planOf i s = .run { bind := b, acts := acts }) (hsec : Sectioned acts) (hpads : ReadsNoPad acts)
    (hacts : actsApart acts (acceptApart i b s) = x.setSeq .main q) :
    ∃ t, exec i s = .next t ∧ t.apart = x.doneWith 0 := by
  have hoff := heldOff_of_sectioned (a := acceptApart i b s) hsec hpads (by rw [acceptApart_ie]; exact silent_or_masked hs)
  obtain ⟨t, ht, hapart⟩ := exec_calm i s _ hp hs hoff
  exact ⟨t, ht, by rw [hapart, hacts, finish_zero, doneWith_setSeq]⟩

@[simp] theorem pinOk_apart (s : State) (pin : PinId) : s.apart.pinOk pin = s.pinOk pin := rfl
@[simp] theorem applyBind_pinOk (b : Bind) (s : State) (pin : PinId) : (applyBind b s).pinOk pin = s.pinOk pin := by
  cases b <;> rfl
@[simp] theorem acceptApart_pinOk (i : Instr) (b : Bind) (s : State) (pin : PinId) :
    (acceptApart i b s).pinOk pin = s.pinOk pin := by
  rw [acceptApart, setSeq_pinOk, applyBind_pinOk, pinOk_apart]
@[simp] theorem acceptApart_lineOk (i : Instr) (b : Bind) (s : State) (h : PinHandle) :
    (acceptApart i b s).lineOk h = s.lineOk h := by
  simp [State.lineOk]

/-- A pin exists where its port and its bit do (R108). -/
theorem pinOk_pin_iff (s : State) (p b : Nat) : s.pinOk (.pin p b) = true ↔ p < s.nports ∧ b < s.width.bits := by
  simp [State.pinOk]

theorem pinOk_congr {s t : State} (hw : t.width = s.width) (hn : t.nports = s.nports) (pin : PinId) :
    t.pinOk pin = s.pinOk pin := by
  cases pin <;> simp [State.pinOk, hw, hn]

theorem lineOk_congr {s t : State} (hw : t.width = s.width) (hn : t.nports = s.nports) (h : PinHandle) :
    t.lineOk h = s.lineOk h := by
  rw [State.lineOk, State.lineOk, pinOk_congr hw hn]

/-! ### The write through a handle (R175) -/

/-- Nothing is written through a no-pin handle (R178). -/
theorem writeThrough_of_noPin {h : PinHandle} (hn : h.pin = .noPin) (v : Level) : writeThrough h v = [] := by
  unfold writeThrough; simp [hn]

/-- Each micro-operation of a write through a handle is a store of `OUT`, a read of it, or one end of the critical
section (R73, R175). -/
theorem uop_mem_writeThrough {h : PinHandle} {v : Level} {u : Uop} (hu : .uop u ∈ writeThrough h v) :
    u.readsPad = false ∧ u.sparesDir = true := by
  unfold writeThrough at hu
  split at hu
  · cases hu
  · cases hu
  · obtain rfl : u = _ := by simpa using hu
    exact ⟨rfl, rfl⟩
  · simp only [lockedRMW, List.mem_cons, Act.uop.injEq, List.not_mem_nil, or_false] at hu
    rcases hu with rfl | rfl | rfl | rfl <;> exact ⟨rfl, rfl⟩

theorem readsNoPad_writeThrough (h : PinHandle) (v : Level) : ReadsNoPad (writeThrough h v) :=
  fun _ hu => (uop_mem_writeThrough hu).1

theorem readsNoPad_pulseThrough (h : PinHandle) (v : Bool) : ReadsNoPad (pulseThrough h v) :=
  readsNoPad_append (readsNoPad_writeThrough _ _) (readsNoPad_writeThrough _ _)

/-- A write through a valid Output handle puts its value on the line and changes nothing else of the block (R175), from any
state: outside a command its first micro-operation finds an unspecified sequencer (R37). -/
theorem actsApart_writeThrough_any (h : PinHandle) (v : Level) {a : State} (ho : a.lineOk h = true) :
    ∃ q, actsApart (writeThrough h v) a = (a.driven h (v.eval (a.seq .main))).setSeq .main q := by
  rcases lineOk_cases a h ho with ⟨hn, hd⟩ | ⟨p, b, dyn, inv, rfl, -, -⟩
  · exact ⟨a.mainSeq, by rw [writeThrough_of_noPin hn, hd]; rfl⟩
  · have hlive : actsApart (writeThrough { kind := .output dyn inv, pin := .pin p b } v) a =
        actsApart (writeThrough { kind := .output dyn inv, pin := .pin p b } v) (a.setSeq .main (some (a.seq .main))) := by
      cases dyn <;> rfl
    obtain ⟨q, -, hacts⟩ := actsApart_writeThrough { kind := .output dyn inv, pin := .pin p b } v
      (a.setSeq .main (some (a.seq .main))) (a.seq .main) rfl (by simpa using ho)
    exact ⟨some q, by rw [hlive, hacts, setSeq_driven, setSeq_setSeq]⟩

/-- A pulse from any state leaves the complement of its value on the line (R180). -/
theorem actsApart_pulseThrough_any (h : PinHandle) (v : Bool) {a : State} (ho : a.lineOk h = true) :
    ∃ q, actsApart (pulseThrough h v) a = (a.driven h (!v)).setSeq .main q := by
  obtain ⟨q, hfirst⟩ := actsApart_writeThrough_any h (.const v) ho
  obtain ⟨q', hsecond⟩ := actsApart_writeThrough_any h (.const !v) (a := (a.driven h v).setSeq .main q)
    (by simpa using ho)
  refine ⟨q', ?_⟩
  rw [pulseThrough, actsApart_append, hfirst, Level.eval, hsecond, Level.eval, setSeq_driven, setSeq_setSeq,
    driven_driven _ _ _ _ ho]

/-- The same with no boundary between the actions, the devices looking on. -/
theorem apart_performed_writeThrough (h : PinHandle) (v : Bool) {a : State} (ho : a.lineOk h = true) :
    ∃ q, (performed (writeThrough h (.const v)) a).apart = (a.apart.driven h v).setSeq .main q := by
  rw [apart_performed _ _ (readsNoPad_writeThrough _ _)]
  exact actsApart_writeThrough_any h (.const v) ho

theorem apart_performed_pulseThrough (h : PinHandle) (v : Bool) {a : State} (ho : a.lineOk h = true) :
    ∃ q, (performed (pulseThrough h v) a).apart = (a.apart.driven h (!v)).setSeq .main q := by
  rw [apart_performed _ _ (readsNoPad_pulseThrough _ _)]
  exact actsApart_pulseThrough_any h v ho

/-- All but the sequencer is known, and that is its own. -/
theorem apart_eq_of_setSeq {t x : State} {q : Option Seq} (h : t.apart = x.setSeq .main q) :
    t.apart = { x with mainSeq := t.mainSeq } := by
  have hq : t.mainSeq = q := congrArg State.mainSeq h
  rw [h, hq]; rfl

/-- With the foreign context at its boundaries, a write through a handle on a pin puts its value on the line of what the
first of them leaves: the critical section of a dynamic handle holds the foreign context off at the others (R79). -/
theorem apart_writeThrough_of_boundary {s u t : State} {p b : Nat} {dyn inv : Bool} {v : Level} (hu : boundary s = .live u)
    (hrun : runActs .main boundary (writeThrough { kind := .output dyn inv, pin := .pin p b } v) s = .live t) :
    t.apart = actsApart (writeThrough { kind := .output dyn inv, pin := .pin p b } v) u.apart := by
  cases dyn with
  | false =>
    obtain ⟨x, hx, hrun⟩ := runActs_uop_eq_live.mp hrun
    obtain rfl := Flow.live.inj (hu.symm.trans hx)
    rw [← Flow.live.inj hrun, apart_doUop _ _ rfl]; rfl
  | true =>
    obtain ⟨x, hx, rfl⟩ := lockedRMW_eq_live hrun
    obtain rfl := Flow.live.inj (hu.symm.trans hx)
    exact apart_underLock p (by decide) _ u

/-! ### The direction write (R172, R174) -/

/-- A pin's construction, apart from its sequence, is one `BitWrite` of DIR (R66). -/
theorem pinDirected_eq_bitWrite (s : State) {p b : Nat} (hb : b < s.width.bits) (output : Bool) :
    s.pinDirected (.pin p b) output = s.bitWrite p .direction b output := by
  simp only [State.pinDirected, State.bitWrite, State.regWrite, State.regRead, State.dirReg]
  rw [trunc_withBit_trunc _ _ _ _ hb]

@[simp] theorem setSeq_pinDirected (s : State) (c : Ctx) (q : Option Seq) (pin : PinId) (output : Bool) :
    (s.setSeq c q).pinDirected pin output = (s.pinDirected pin output).setSeq c q := by
  cases pin <;> cases c <;> rfl

theorem readsNoPad_configurePin (pin : PinId) (output : Bool) : ReadsNoPad (configurePin pin output) := by
  cases pin with
  | noPin => intro u hu; cases hu
  | pin p b =>
    intro u hu
    obtain rfl : u = _ := by simpa only [configurePin, List.mem_singleton, Act.uop.injEq] using hu
    rfl

/-- `configure_pin` leaves the pin's direction bit and changes nothing else of the block; a no-pin handle has none. -/
theorem actsApart_configurePin {a : State} {pin : PinId} (hok : a.pinOk pin = true) (output : Bool) :
    ∃ q, actsApart (configurePin pin output) a = (a.pinDirected pin output).setSeq .main q := by
  cases pin with
  | noPin => exact ⟨a.mainSeq, rfl⟩
  | pin p b =>
    obtain ⟨-, hb⟩ := (pinOk_pin_iff a p b).mp hok
    rw [pinDirected_eq_bitWrite a hb]
    exact ⟨some { a.seq .main with pos := (a.seq .main).pos + 1 }, by cases output <;> rfl⟩

/-! ### The read through an Output handle (R177) -/

/-- The logical value of an Output, read into the sequencer. -/
theorem actsApart_sample_output (p b : Nat) (inv : Bool) (a : State) :
    actsApart [.uop (.sample p .output b inv)] a =
      a.setSeq .main
        (some { a.seq .main with samp := Bool.xor ((a.outReg p).getLsbD b) inv, pos := (a.seq .main).pos + 1 }) := by
  simp [actsApart, uopApart, applyUop, sample, State.updSeq, State.regRead]

theorem readsNoPad_readThrough_output (dyn inv : Bool) (pin : PinId) :
    ReadsNoPad (readThrough { kind := .output dyn inv, pin := pin }) := by
  intro u hu
  cases pin with
  | noPin => simp [readThrough] at hu
  | pin p b =>
    obtain rfl : u = _ := by simpa only [readThrough, List.mem_singleton, Act.uop.injEq] using hu
    rfl

/-- A toggle's two sub-operations: the write finds in the sequencer the value the read left there (R179). -/
theorem actsApart_toggle {a : State} {p b : Nat} (dyn inv : Bool) (hok : a.pinOk (.pin p b) = true) :
    ∃ q, actsApart (readThrough { kind := .output dyn inv, pin := .pin p b }
        ++ writeThrough { kind := .output dyn inv, pin := .pin p b } .notSample) a =
      (a.driven { kind := .output dyn inv, pin := .pin p b } (!(Bool.xor ((a.outReg p).getLsbD b) inv))).setSeq .main q := by
  have hread := actsApart_sample_output p b inv a
  obtain ⟨q, hwrite⟩ := actsApart_writeThrough_any { kind := .output dyn inv, pin := .pin p b } .notSample
    (a := actsApart [.uop (.sample p .output b inv)] a) (by rw [hread, setSeq_lineOk]; exact hok)
  refine ⟨q, ?_⟩
  rw [actsApart_append, readThrough, hwrite, hread, seq_setSeq_some, setSeq_driven, setSeq_setSeq, Level.eval]

end Sys2Proof.Machine
end

