-- ==== Sys2Proof/Proofs/PinCommands.lean ====
section
/-!
PROOFS. The Pin Handle commands (R170 to R182): what each one answers, and that it changes nothing but what its rule says.
-/

namespace Sys2Proof.Machine

open Sys2Proof

/-! ### PIN.BINDIN (R172) -/

theorem planOf_pinBindin {s : State} {k : Nat} {pin : PinId} (pullup : Bool) (hk : k < s.pn.length)
    (hslot : s.pinSlot k = none) (hok : s.pinOk pin = true) :
    planOf (.pinBindin k pin pullup) s =
      .run { bind := .pn k { kind := .input pullup, pin := pin }, acts := configurePin pin false } := by
  simp [planOf, planPinBindin, checked, freeSlot_of_join hk hslot, hok]

/-- Settles O26: the descriptor, then one direction write. -/
theorem pinBindinMakesAnInput : Obligations.PinBindinMakesAnInput := by
  intro s k pin pullup hs hk hslot hok
  obtain ⟨q, hacts⟩ := actsApart_configurePin
    (a := acceptApart (.pinBindin k pin pullup) (.pn k { kind := .input pullup, pin := pin }) s) (by simpa using hok) false
  rw [acceptApart, setSeq_pinDirected, setSeq_setSeq] at hacts
  exact exec_of_actsApart hs (planOf_pinBindin pullup hk hslot hok) (sectioned_configurePin ..)
    (readsNoPad_configurePin _ _) hacts

/-! ### PIN.BINDOUT (R173, R174) -/

theorem planOf_pinBindout {s : State} {k : Nat} {pin : PinId} (init dyn inv : Bool) (hk : k < s.pn.length)
    (hslot : s.pinSlot k = none) (hok : s.pinOk pin = true) :
    planOf (.pinBindout k pin init dyn inv) s =
      .run
        { bind := .pn k { kind := .output dyn inv, pin := pin }
          acts := writeThrough { kind := .output dyn inv, pin := pin } (.const init) ++ configurePin pin true } := by
  simp [planOf, planPinBindout, checked, freeSlot_of_join hk hslot, hok]

/-- Settles O27: the descriptor, the initial value through the new handle, then one direction write. -/
theorem pinBindoutDrivesTheInitialValue : Obligations.PinBindoutDrivesTheInitialValue := by
  intro s k pin init dyn inv hs hk hslot hok h
  have hline : s.lineOk h = true := hok
  obtain ⟨q, hwrite⟩ := actsApart_writeThrough_any h (.const init)
    (a := acceptApart (.pinBindout k pin init dyn inv) (.pn k h) s) (by simpa using hline)
  obtain ⟨q', hdir⟩ := actsApart_configurePin (pin := pin) (output := true)
    (a := ((applyBind (.pn k h) s.apart).driven h init).setSeq .main q) (by simpa using hok)
  rw [acceptApart, setSeq_driven, setSeq_setSeq, Level.eval] at hwrite
  rw [setSeq_pinDirected, setSeq_setSeq] at hdir
  refine exec_of_actsApart hs (planOf_pinBindout init dyn inv hk hslot hok)
    (.append (sectioned_writeThrough ..) (sectioned_configurePin ..))
    (readsNoPad_append (readsNoPad_writeThrough _ _) (readsNoPad_configurePin _ _)) (q := q') ?_
  rw [actsApart_append, acceptApart, hwrite, hdir]; rfl

/-- What PIN.BINDOUT's checks have found where it is not refused (R174, R231). -/
theorem pinBindout_of_not_refused {s : State} {k : Nat} {pin : PinId} {init dyn inv : Bool}
    (h : refusalCause (.pinBindout k pin init dyn inv) s = none) :
    k < s.pn.length ∧ s.pinSlot k = none ∧ s.pinOk pin = true := by
  simpa [refusalCause, and_assoc] using h

/-- A write through a handle on a pin leaves `OUT` as one store of its bit does, and `DIR` and the parameters as they
were. -/
theorem registers_of_driven {a m : State} {p b : Nat} {dyn inv v : Bool} {q : Option Seq} (hb : b < a.width.bits)
    (hm : m.apart = (a.apart.driven { kind := .output dyn inv, pin := .pin p b } v).setSeq .main q) :
    m.width = a.width ∧ m.nports = a.nports ∧ m.dirReg = a.dirReg ∧
      m.outReg = (a.bitWrite p .output b (electrical v inv)).outReg := by
  rw [driven_eq_bitWrite a.apart p b dyn inv v hb, ← apart_bitWrite] at hm
  have hw : m.width = (a.bitWrite p .output b (electrical v inv)).width := by rw [← apart_width m, hm]; rfl
  have hp : m.ports = (a.bitWrite p .output b (electrical v inv)).ports := by rw [← apart_ports m, hm]; rfl
  refine ⟨hw, ?_, ?_, ?_⟩
  · rw [State.nports, hp]; exact nports_bitWrite ..
  · rw [dirReg_of_ports hw hp]; exact dirReg_regWrite_spared _ _ _ _ (by decide)
  · funext x; simp only [State.outReg, State.triple, hw, hp]

/-- The direction write, PIN.BINDOUT's last action: the block drives the pad, at the level of its `OUT` bit (R62, R174). -/
theorem pad_of_directionWrite {m : State} {p b : Nat} (hok : m.pinOk (.pin p b) = true) :
    (doUop .main (.bitWrite p .direction b (.const true) false) m).padOe { port := p, bit := b } = true ∧
      (doUop .main (.bitWrite p .direction b (.const true) false) m).padLevel { port := p, bit := b } =
        (m.outReg p).getLsbD b := by
  obtain ⟨hp, hb⟩ := (pinOk_pin_iff m p b).mp hok
  have hoe : (doUop .main (.bitWrite p .direction b (.const true) false) m).padOe { port := p, bit := b } = true := by
    have hbit := dirReg_bitWrite_getLsbD m p p .direction b b true
    rw [if_pos ⟨rfl, hp, rfl, rfl, hb⟩] at hbit
    exact hbit
  refine ⟨hoe, ?_⟩
  rw [padLevel_driven _ _ hoe]
  exact congrArg (·.getLsbD b) (outReg_regWrite_direction m p p _)

/-- Settles O28: the initial value stands in `OUT` before the one action that writes DIR. -/
theorem initialValueBeforeDirection : Obligations.InitialValueBeforeDirection := by
  intro s k p b init dyn inv hcause
  obtain ⟨hk, hslot, hok⟩ := pinBindout_of_not_refused hcause
  refine ⟨_, by rw [planOf_pinBindout init dyn inv hk hslot hok]; rfl, rfl, fun u hu a q => ?_, fun a hw hn => ?_⟩
  · exact congrFun (dirReg_doUop .main (uop_mem_writeThrough hu).2 a) q
  · have hoka : a.pinOk (.pin p b) = true := (pinOk_congr hw hn _).trans hok
    obtain ⟨hp, hb⟩ := (pinOk_pin_iff a p b).mp hoka
    obtain ⟨q', hm⟩ := apart_performed_writeThrough { kind := .output dyn inv, pin := .pin p b } init (a := a) hoka
    obtain ⟨hmw, hmn, hdir, hout⟩ := registers_of_driven hb hm
    have hbits (q i : Nat) : ((a.bitWrite p .output b (electrical init inv)).outReg q).getLsbD i =
        if q = p ∧ i = b then Bool.xor init inv else (a.outReg q).getLsbD i := by
      rw [outReg_bitWrite_getLsbD]; simp only [hp, hb, true_and, and_true, electrical]
    obtain ⟨hoe, hlevel⟩ := pad_of_directionWrite ((pinOk_congr hmw hmn _).trans hoka)
    rw [performed_append, hout]
    rw [hout, hbits, if_pos ⟨rfl, rfl⟩] at hlevel
    exact ⟨congrFun hdir, hbits, hoe, hlevel⟩

/-! ### PIN.READ (R177, R178) -/

theorem planOf_pinRead {s : State} {k : Nat} {h : PinHandle} (hslot : s.pinSlot k = some h) :
    planOf (.pinRead k) s = .run { acts := readThrough h, result := .sample } := by
  simp [planOf, planPinRead, hslot]

theorem apart_finish_sample (p : Nat) (r : Reg) (b : Nat) (inv : Bool) (s : State) :
    (finish .main .sample (doUop .main (.sample p r b inv) s)).apart =
      s.apart.doneWith (if Bool.xor ((s.regRead p r).getLsbD b) inv then 1 else 0) := by
  simp only [doUop, applyUop, sample]
  split <;> rfl

/-- A command of one read through a handle on a pin answers what that read gives, behind its one boundary. -/
theorem exec_of_sample {i : Instr} {s : State} {p b : Nat} {r : Reg} {inv : Bool} (hs : s.calm = true)
    (hidle : s.idle = true) (hi : isShift i = false)
    (hp : planOf i s = .run { acts := [.uop (.sample p r b inv)], result := .sample }) :
    ∃ t, exec i s = .next t ∧
      t.apart = s.apart.doneWith (if Bool.xor (((calmBoundary s).regRead p r).getLsbD b) inv then 1 else 0) := by
  refine ⟨_, exec_of_uop hs hp, ?_⟩
  rw [apart_finish_sample, apart_calmBoundary_accept, doneWith_setSeq, regRead_calmBoundary_accept hidle hi]

/-- A command that only reads through a no-pin handle answers false, whatever the schedule (R178). -/
theorem exec_of_noSample {i : Instr} {s : State} {sel : ResultSel}
    (hp : planOf i s = .run { acts := [.int .noSample], result := sel }) (hi : isShift i = false) :
    exec i s = .next (finish .main sel (doInternal .main .noSample (s.setSeq .main (some (Seq.accepted s.now i))))) := by
  have hacc := accept_of_not_isShift .main .nothing s hi
  rw [exec_of_live hp rfl, hacc]; rfl

/-- Settles O29: a pad is read behind the command's one boundary, which leaves `OUT`. -/
theorem pinReadAnswersTheLevel : Obligations.PinReadAnswersTheLevel := by
  intro s k h hs hidle hslot
  have hplan := planOf_pinRead hslot
  obtain ⟨kind, pin⟩ := h
  cases pin with
  | noPin => exact ⟨_, exec_of_noSample hplan rfl, rfl⟩
  | pin p b =>
    cases kind with
    | input pullup =>
      have hread := exec_of_sample hs hidle rfl hplan
      rwa [State.regRead, Bool.xor_false] at hread
    | output dyn inv =>
      have hread := exec_of_sample hs hidle rfl hplan
      rwa [State.regRead, outReg_calmBoundary] at hread

/-! ### PIN.WRITE (R175, R176) -/

theorem planOf_pinWrite {s : State} {k : Nat} {h : PinHandle} (value : Bool) (hslot : s.pinSlot k = some h)
    (ho : h.isOutput = true) : planOf (.pinWrite k value) s = .run { acts := writeThrough h (.const value) } := by
  simp [planOf, planPinWrite, hslot, checked, ho]

/-- A valid Output handle is one whose line can be written (R175). -/
theorem lineOk_of_isOutput {s : State} {h : PinHandle} (ho : h.isOutput = true) (hok : s.pinOk h.pin = true) :
    s.lineOk h = true := by
  rw [State.lineOk, ho, hok]; rfl

/-- Settles O30. -/
theorem pinWriteDrivesTheLine : Obligations.PinWriteDrivesTheLine := by
  intro s k value h hs hslot ho hok
  obtain ⟨q, hacts⟩ := actsApart_writeThrough_any h (.const value) (a := acceptApart (.pinWrite k value) .nothing s)
    (by simpa using lineOk_of_isOutput ho hok)
  rw [acceptApart, setSeq_driven, setSeq_setSeq] at hacts
  exact exec_of_actsApart hs (planOf_pinWrite value hslot ho) (sectioned_writeThrough ..) (readsNoPad_writeThrough _ _) hacts

/-- Settles O33: the foreign context acts at the first boundary only, and the write changes one bit of what it left. -/
theorem pinWriteLosesNoForeignWrite : Obligations.PinWriteLosesNoForeignWrite := by
  intro s u k p b value dyn inv hs hslot hok hu
  have hplan := planOf_pinWrite value hslot rfl
  have hparams : u.params = s.params := by
    have hends := boundary_ends params_kept (accept .main (.pinWrite k value) .nothing s)
    rw [hu] at hends
    exact Eq.trans hends (params_accept ..)
  have hline : u.apart.lineOk { kind := .output dyn inv, pin := .pin p b } = true :=
    (lineOk_congr (congrArg Params.width hparams) (congrArg Params.nports hparams) _).trans (lineOk_of_isOutput rfl hok)
  rcases exec_of_noReset (.pinWrite k value) hs with ⟨f, hp, -⟩ | ⟨plan, t, hp, hrun, hexec⟩
  · rw [hplan] at hp; cases hp
  · obtain rfl := Verdict.run.inj (hplan.symm.trans hp)
    obtain ⟨q, hacts⟩ := actsApart_writeThrough_any _ (.const value) hline
    refine ⟨_, hexec, ?_⟩
    rw [apart_finish, apart_writeThrough_of_boundary hu hrun, hacts, finish_zero, doneWith_setSeq, Level.eval]

/-! ### PIN.TOGGLE (R179) -/

theorem planOf_pinToggle {s : State} {k : Nat} {h : PinHandle} (hslot : s.pinSlot k = some h) (ho : h.isOutput = true) :
    planOf (.pinToggle k) s = .run { acts := readThrough h ++ writeThrough h .notSample } := by
  simp [planOf, planPinToggle, hslot, checked, ho]

/-- Settles O31. -/
theorem pinToggleComplementsTheLine : Obligations.PinToggleComplementsTheLine := by
  intro s k p b dyn inv hs hslot hok
  obtain ⟨q, hacts⟩ := actsApart_toggle dyn inv (a := acceptApart (.pinToggle k) .nothing s) (by rwa [acceptApart_pinOk])
  rw [acceptApart, setSeq_driven, setSeq_setSeq] at hacts
  exact exec_of_actsApart hs (planOf_pinToggle hslot rfl) (.append (sectioned_readThrough _) (sectioned_writeThrough ..))
    (readsNoPad_append (readsNoPad_readThrough_output _ _ _) (readsNoPad_writeThrough _ _)) hacts

/-! ### PIN.PULSE (R180) -/

theorem planOf_pinPulse {s : State} {k : Nat} {h : PinHandle} (value : Bool) (hslot : s.pinSlot k = some h)
    (ho : h.isOutput = true) : planOf (.pinPulse k value) s = .run { acts := pulseThrough h value } := by
  simp [planOf, planPinPulse, hslot, checked, ho]

/-- At a calm state PIN.PULSE leaves the complement of its value on the line. -/
theorem exec_pinPulse {s : State} {k : Nat} {h : PinHandle} (value : Bool) (hs : s.calm = true)
    (hslot : s.pinSlot k = some h) (ho : h.isOutput = true) (hok : s.pinOk h.pin = true) :
    ∃ t, exec (.pinPulse k value) s = .next t ∧ t.apart = (s.apart.driven h (!value)).doneWith 0 := by
  obtain ⟨q, hacts⟩ := actsApart_pulseThrough_any h value (a := acceptApart (.pinPulse k value) .nothing s)
    (by simpa using lineOk_of_isOutput ho hok)
  rw [acceptApart, setSeq_driven, setSeq_setSeq] at hacts
  exact exec_of_actsApart hs (planOf_pinPulse value hslot ho) (sectioned_pulseThrough ..) (readsNoPad_pulseThrough _ _) hacts

/-- PIN.PULSE of a no-pin handle has no action (R178). -/
theorem exec_pinPulse_of_noPin {s : State} {k : Nat} {h : PinHandle} (value : Bool) (hslot : s.pinSlot k = some h)
    (ho : h.isOutput = true) (hn : h.pin = .noPin) : exec (.pinPulse k value) s = .next (s.doneWith 0) := by
  have hplan := planOf_pinPulse value hslot ho
  rw [pulseThrough, writeThrough_of_noPin hn, writeThrough_of_noPin hn] at hplan
  exact exec_of_noActs hplan rfl

/-- PIN.TOGGLE of a no-pin handle reads false, and writes nothing (R178). -/
theorem exec_pinToggle_of_noPin {s : State} {k : Nat} {h : PinHandle} (hslot : s.pinSlot k = some h)
    (ho : h.isOutput = true) (hn : h.pin = .noPin) : exec (.pinToggle k) s = .next (s.doneWith 0) := by
  have hplan := planOf_pinToggle hslot ho
  have hread : readThrough h = [.int .noSample] := by unfold readThrough; simp [hn]
  rw [hread, writeThrough_of_noPin hn] at hplan
  exact exec_of_noSample hplan rfl

/-- Settles O32: two writes through the handle, of which the second counts. -/
theorem pinPulseLeavesTheComplement : Obligations.PinPulseLeavesTheComplement := by
  intro s k value h hslot ho hok
  refine ⟨⟨_, _, by rw [planOf_pinPulse value hslot ho]; rfl, rfl, rfl, fun a hw hn => ?_⟩,
    fun hs => exec_pinPulse value hs hslot ho hok,
    fun hn => ⟨exec_pinPulse_of_noPin value hslot ho hn, exec_pinToggle_of_noPin hslot ho hn⟩⟩
  have hline : a.lineOk h = true := (lineOk_congr hw hn h).trans (lineOk_of_isOutput ho hok)
  obtain ⟨q, hfirst⟩ := apart_performed_writeThrough h value hline
  obtain ⟨q', hboth⟩ := apart_performed_pulseThrough h value hline
  exact ⟨apart_eq_of_setSeq hfirst, apart_eq_of_setSeq hboth⟩

end Sys2Proof.Machine
end

