-- ==== Sys2Proof/Proofs/ShiftBits.lean ====
section
/-!
PROOFS. The arithmetic of the Shifter (R12, R193 to R197): the positions the mask visits, the bit of VAL it selects, and the
word its samples are gathered in.
-/

namespace Sys2Proof.Machine

open Sys2Proof

/-! ### Positions (R193) -/

theorem bitPos_lt (order : BitOrder) {nbits i : Nat} (hi : i < nbits) : bitPos order nbits i < nbits := by
  cases order with
  | lsbFirst => exact hi
  | msbFirst => simp only [bitPos]; omega

/-- Each order visits position `pos(j)` in iteration `j`, and position `j` in iteration `pos(j)`. -/
theorem bitPos_bitPos (order : BitOrder) {nbits j : Nat} (hj : j < nbits) :
    bitPos order nbits (bitPos order nbits j) = j := by
  cases order with
  | lsbFirst => rfl
  | msbFirst => simp only [bitPos]; omega

/-- Different iterations visit different positions. -/
theorem bitPos_inj (order : BitOrder) {nbits i j : Nat} (hi : i < nbits) (hj : j < nbits) :
    bitPos order nbits i = bitPos order nbits j ↔ i = j := by
  refine ⟨fun h => ?_, fun h => h ▸ rfl⟩
  rw [← bitPos_bitPos order hi, h, bitPos_bitPos order hj]

/-- Units of different orders visit mirrored positions (R202). -/
theorem bitPos_of_ne {order order' : BitOrder} (hne : order ≠ order') (nbits j : Nat) :
    bitPos order' nbits (bitPos order nbits j) = nbits - 1 - j := by
  cases order <;> cases order' <;> simp_all [bitPos]

/-! ### The mask (R12, R193) -/

/-- The accumulator holds every bit of a shift (R12). -/
theorem le_accWidth {nbits : Nat} (hn : nbits ≤ 32) : nbits ≤ accWidth nbits := by
  unfold accWidth; split
  · assumption
  · split <;> omega

theorem accWidth_le (nbits : Nat) : accWidth nbits ≤ 32 := by
  unfold accWidth; split
  · omega
  · split <;> omega

theorem truncAcc_getLsbD (nbits : Nat) (v : Word) (i : Nat) :
    (truncAcc nbits v).getLsbD i = (v.getLsbD i && decide (i < accWidth nbits)) := by
  rw [truncAcc, BitVec.getLsbD_and, ones_getLsbD _ _ (accWidth_le nbits)]

/-- The mask moves from one position to the next one. -/
theorem nextMask_bitMask (order : BitOrder) {nbits i : Nat} (hn : nbits ≤ 32) (hi : i + 1 < nbits) :
    nextMask order nbits (bitMask (bitPos order nbits i)) = bitMask (bitPos order nbits (i + 1)) := by
  have hacc := le_accWidth hn
  apply BitVec.eq_of_getLsbD_eq
  intro j hj
  cases order with
  | lsbFirst =>
    rw [Bool.eq_iff_iff]
    simp only [nextMask, bitPos, truncAcc_getLsbD, BitVec.getLsbD_shiftLeft, bitMask_getLsbD,
      Bool.and_eq_true, Bool.not_eq_true', decide_eq_true_eq, decide_eq_false_iff_not]
    omega
  | msbFirst =>
    simp only [nextMask, bitPos, BitVec.getLsbD_ushiftRight, bitMask_getLsbD, decide_eq_decide]
    omega

/-- In iteration `i` the mask is `1 << pos(i)` (R193). -/
theorem iterate_nextMask (order : BitOrder) {nbits i : Nat} (hn : nbits ≤ 32) (hi : i < nbits) :
    (nextMask order nbits)^[i] (initialMask order nbits) = bitMask (bitPos order nbits i) := by
  induction i with
  | zero => cases order <;> rfl
  | succ i ih => rw [Function.iterate_succ_apply', ih (by omega), nextMask_bitMask order hn hi]

/-- Settles O35. -/
theorem maskVisitsItsPositions : Obligations.MaskVisitsItsPositions :=
  fun _ _ hn hi =>
    ⟨⟨rfl, rfl⟩, fun _ => ⟨rfl, rfl⟩, iterate_nextMask .lsbFirst hn hi, iterate_nextMask .msbFirst hn hi, rfl, rfl⟩

theorem maskAfter_eq_iterate (order : BitOrder) (nbits i : Nat) (m : Word) :
    maskAfter order nbits i m = (nextMask order nbits)^[i] m := by
  induction i generalizing m with
  | zero => rfl
  | succ i ih => exact ih _

/-! ### The bit a mask selects (R197) -/

theorem and_bitMask_ne_zero (v : Word) {b : Nat} (hb : b < 32) : ((v &&& bitMask b) != 0) = v.getLsbD b := by
  cases hv : v.getLsbD b with
  | true =>
    have hbit : (v &&& bitMask b).getLsbD b = true := by simp [-BitVec.getLsbD_eq_getElem, BitVec.getLsbD_and, hv, hb]
    have hne : v &&& bitMask b ≠ 0 := by
      intro h0
      rw [h0] at hbit
      simp at hbit
    simpa using hne
  | false =>
    have hzero : v &&& bitMask b = 0 := by
      apply BitVec.eq_of_getLsbD_eq
      intro i _
      simp only [BitVec.getLsbD_and, bitMask_getLsbD, BitVec.ofNat_eq_ofNat, BitVec.getLsbD_zero, Bool.and_eq_false_iff,
        decide_eq_false_iff_not]
      by_cases h : i = b
      · exact .inl (h ▸ hv)
      · exact .inr fun hh => h hh.1
    simp [hzero]

/-- VAL cut to the accumulator keeps every bit the mask selects (R197, R199). -/
theorem truncAcc_and_bitMask (order : BitOrder) {nbits i : Nat} (hn : nbits ≤ 32) (hi : i < nbits) (v : Word) :
    ((truncAcc nbits v &&& bitMask (bitPos order nbits i)) != 0) = v.getLsbD (bitPos order nbits i) := by
  have hpos := bitPos_lt order hi
  have hacc := le_accWidth hn
  rw [and_bitMask_ne_zero _ (by omega), truncAcc_getLsbD, decide_eq_true (by omega), Bool.and_true]

/-! ### The word the samples are gathered in (R195) -/

/-- ACC after `i` iterations that sampled `v 0`, `v 1` and so on. -/
def gathered (order : BitOrder) (nbits : Nat) (v : Nat → Bool) : Nat → Word
  | 0 => 0
  | i + 1 =>
      if v i then gathered order nbits v i ||| bitMask (bitPos order nbits i) else gathered order nbits v i

theorem gathered_getLsbD_iff (order : BitOrder) {nbits : Nat} (hn : nbits ≤ 32) (v : Nat → Bool) {i : Nat}
    (hi : i ≤ nbits) (j : Nat) :
    (gathered order nbits v i).getLsbD j = true ↔ ∃ k, k < i ∧ bitPos order nbits k = j ∧ v k = true := by
  induction i with
  | zero => simp [gathered]
  | succ i ih =>
    have hpos := bitPos_lt order (show i < nbits by omega)
    have hstep : (gathered order nbits v (i + 1)).getLsbD j = true ↔
        (gathered order nbits v i).getLsbD j = true ∨ bitPos order nbits i = j ∧ v i = true := by
      have h32 : bitPos order nbits i < 32 := by omega
      rw [gathered]
      cases v i <;> simp [-BitVec.getLsbD_eq_getElem, h32, eq_comm (a := j)]
    rw [hstep, ih (by omega)]
    simp only [Nat.lt_succ_iff_lt_or_eq, or_and_right, exists_or, exists_eq_left]

/-- Sample `k` stands in bit `pos(k)`. -/
theorem gathered_bitPos (order : BitOrder) {nbits : Nat} (hn : nbits ≤ 32) (v : Nat → Bool) {k : Nat} (hk : k < nbits) :
    (gathered order nbits v nbits).getLsbD (bitPos order nbits k) = v k := by
  rw [Bool.eq_iff_iff, gathered_getLsbD_iff order hn v le_rfl]
  constructor
  · rintro ⟨i, hi, hpos, hv⟩
    rwa [← (bitPos_inj order hi hk).mp hpos]
  · exact fun hv => ⟨k, hk, rfl, hv⟩

/-- Bit `j` is the sample of the iteration that visits it. -/
theorem gathered_getLsbD_of_lt (order : BitOrder) {nbits : Nat} (hn : nbits ≤ 32) (v : Nat → Bool) {j : Nat}
    (hj : j < nbits) : (gathered order nbits v nbits).getLsbD j = v (bitPos order nbits j) := by
  rw [← gathered_bitPos order hn v (bitPos_lt order hj), bitPos_bitPos order hj]

/-- No bit stands at `nbits` or above. -/
theorem gathered_and_ones (order : BitOrder) {nbits : Nat} (hn : nbits ≤ 32) (v : Nat → Bool) :
    gathered order nbits v nbits &&& ones nbits = gathered order nbits v nbits := by
  apply BitVec.eq_of_getLsbD_eq
  intro j _
  rw [BitVec.getLsbD_and, ones_getLsbD _ _ hn]
  by_cases hj : j < nbits
  · simp [hj]
  · have hnone : (gathered order nbits v nbits).getLsbD j = false := by
      rw [Bool.eq_false_iff, ne_eq, gathered_getLsbD_iff order hn v le_rfl]
      rintro ⟨k, hk, rfl, -⟩
      exact hj (bitPos_lt order hk)
    rw [hnone, Bool.false_and]

/-! ### Bits sent in one order and gathered in another (R202) -/

/-- Gathered in the order they were sent in, the bits of a value are the value cut to `nbits` bits. -/
theorem gathered_of_same_order {order : BitOrder} {nbits : Nat} (hn : nbits ≤ 32) {value : Word} {v : Nat → Bool}
    (hv : ∀ i, i < nbits → v i = value.getLsbD (bitPos order nbits i)) :
    gathered order nbits v nbits = value &&& ones nbits := by
  apply BitVec.eq_of_getLsbD_eq
  intro j _
  rw [← gathered_and_ones order hn v, BitVec.getLsbD_and, BitVec.getLsbD_and, ones_getLsbD _ _ hn]
  by_cases hj : j < nbits
  · rw [gathered_getLsbD_of_lt order hn v hj, hv _ (bitPos_lt order hj), bitPos_bitPos order hj]
  · simp [hj]

/-- Gathered in the other order they are mirrored. -/
theorem gathered_of_other_order {order order' : BitOrder} (hne : order ≠ order') {nbits : Nat} (hn : nbits ≤ 32)
    {value : Word} {v : Nat → Bool} (hv : ∀ i, i < nbits → v i = value.getLsbD (bitPos order nbits i)) {j : Nat}
    (hj : j < nbits) :
    (gathered order' nbits v nbits).getLsbD (nbits - 1 - j) = value.getLsbD j := by
  have hpos := bitPos_lt order hj
  rw [← bitPos_of_ne hne, gathered_bitPos order' hn v hpos, hv _ hpos, bitPos_bitPos order hj]

end Sys2Proof.Machine
end

