-- ==== Sys2Proof/Proofs/CalmRun.lean ====
section
/-!
PROOFS. A run of actions that neither reset nor the foreign context disturbs, as a function of the state it starts from: the
actions in order, a calm boundary before each micro-operation (R75). Unlike `actsApart` it keeps the world, so it tells what
the pads show a command that reads them.
-/

namespace Sys2Proof.Machine

open Sys2Proof

/-- The actions of a command, a calm boundary before each micro-operation. -/
def calmRun : List Act → State → State
  | [], s => s
  | .uop u :: acts, s => calmRun acts (doUop .main u (calmBoundary s))
  | .int n :: acts, s => calmRun acts (doInternal .main n s)

@[simp] theorem calmRun_append (xs ys : List Act) (s : State) : calmRun (xs ++ ys) s = calmRun ys (calmRun xs s) := by
  induction xs generalizing s with
  | nil => rfl
  | cons x xs ih => cases x <;> exact ih _

/-- From a calm state a command's actions run to their end as `calmRun` says, and leave what is to come calm. -/
theorem runActs_eq_calmRun {acts : List Act} (h : Sectioned acts) {s : State} (hs : s.calm = true) :
    runActs .main boundary acts s = .live (calmRun acts s) ∧ (calmRun acts s).calm = true := by
  induction h generalizing s with
  | nil => exact ⟨rfl, hs⟩
  | int n => exact ⟨rfl, calm_doInternal n hs⟩
  | uop u hu => exact ⟨runActs_uop_of_calm hs u [], calm_doUop hu (calm_calmBoundary s hs)⟩
  | locked p r f =>
    have hacq := locked_acq (calm_calmBoundary s hs)
    have hread := locked_doUop (u := .regRead p r) rfl (locked_calmBoundary hacq)
    have hwrite := locked_doUop (u := .regWrite p r f) rfl (locked_calmBoundary hread)
    refine ⟨?_, calm_rel (locked_calmBoundary hwrite)⟩
    rw [lockedRMW, runActs_uop_of_calm hs, runActs_uop_of_calm (calm_of_locked hacq),
      runActs_uop_of_calm (calm_of_locked hread), runActs_uop_of_calm (calm_of_locked hwrite)]
    rfl
  | append _ _ ihx ihy =>
    obtain ⟨hx, hcalm⟩ := ihx hs
    obtain ⟨hy, hcalm'⟩ := ihy hcalm
    rw [runActs_append, hx, Flow.bind, calmRun_append]
    exact ⟨hy, hcalm'⟩

/-- A command at a calm state runs calmly from its acceptance and responds (R74). -/
theorem exec_eq_calmRun {i : Instr} {s : State} {p : Plan} (hs : s.calm = true) (hp : planOf i s = .run p)
    (hsec : Sectioned p.acts) : exec i s = .next (finish .main p.result (calmRun p.acts (accept .main i p.bind s))) :=
  exec_of_live hp (runActs_eq_calmRun hsec (calm_accept i p.bind hs)).1

/-- Apart from the world, actions that read no pad do what they do alone. -/
theorem apart_calmRun {acts : List Act} (h : ReadsNoPad acts) (s : State) :
    (calmRun acts s).apart = actsApart acts s.apart := by
  induction acts generalizing s with
  | nil => rfl
  | cons x acts ih =>
    have hrest : ReadsNoPad acts := fun u hu => h u (List.mem_cons_of_mem _ hu)
    cases x with
    | int n => rw [calmRun, actsApart, ih hrest, apart_doInternal]
    | uop u => rw [calmRun, actsApart, ih hrest, apart_doUop u _ (h u List.mem_cons_self), apart_calmBoundary]

@[simp] theorem lineOk_apart (s : State) (h : PinHandle) : s.apart.lineOk h = s.lineOk h := rfl

/-- A write through a valid Output handle puts its value on the line and changes nothing else of the block (R175). -/
theorem apart_calmRun_writeThrough {h : PinHandle} (v : Level) {s : State} {q : Seq} (hq : s.mainSeq = some q)
    (ho : s.lineOk h = true) :
    ∃ q', q.moved q' ∧ (calmRun (writeThrough h v) s).apart = (s.apart.driven h (v.eval q)).setSeq .main (some q') := by
  rw [apart_calmRun (readsNoPad_writeThrough _ _)]
  exact actsApart_writeThrough h v s.apart q hq ho

@[simp] theorem calmBoundary_foreignSeq (s : State) : (calmBoundary s).foreignSeq = s.foreignSeq := by
  unfold calmBoundary; split <;> rfl
@[simp] theorem calmBoundary_width (s : State) : (calmBoundary s).width = s.width := by
  unfold calmBoundary; split <;> rfl

/-- No action changes a parameter (R265). -/
theorem calmRun_width (acts : List Act) (s : State) : (calmRun acts s).width = s.width := by
  induction acts generalizing s with
  | nil => rfl
  | cons x acts ih =>
    cases x with
    | int n => rw [calmRun, ih, doInternal, updSeq_width]
    | uop u => rw [calmRun, ih, doUop_width, calmBoundary_width]

theorem calmRun_lineOk (acts : List Act) (s : State) (h : PinHandle) : (calmRun acts s).lineOk h = s.lineOk h := by
  have hcalm (x : State) : (calmBoundary x).lineOk h = x.lineOk h := by
    rw [← lineOk_apart, apart_calmBoundary, lineOk_apart]
  induction acts generalizing s with
  | nil => rfl
  | cons x acts ih =>
    cases x with
    | int n => rw [calmRun, ih]; exact lineOk_congr (by simp [doInternal]) (by simp [doInternal, State.nports]) h
    | uop u => rw [calmRun, ih, lineOk_congr (doUop_width ..) (nports_doUop ..), hcalm]

/-! ### The world along a calm run (R63) -/

@[simp] theorem doUop_ext (c : Ctx) (u : Uop) (s : State) : (doUop c u s).ext = s.ext := by
  cases u with
  | sample p r b inv =>
    simp only [doUop, applyUop, sample, observe_ext, updSeq_ext]
    split <;> simp
  | _ => simp [doUop, applyUop]

@[simp] theorem doUop_now (c : Ctx) (u : Uop) (s : State) : (doUop c u s).now = s.now := by
  cases u with
  | sample p r b inv =>
    simp only [doUop, applyUop, sample, observe_now, updSeq_now]
    split <;> simp
  | _ => simp [doUop, applyUop]

/-- A boundary passes before each micro-operation, and none otherwise (R75). -/
theorem calmRun_ext (acts : List Act) (s : State) : (calmRun acts s).ext = s.ext.drop (uopCount acts) := by
  induction acts generalizing s with
  | nil => rfl
  | cons x acts ih =>
    cases x with
    | int n => rw [calmRun, ih, uopCount, doInternal, updSeq_ext]
    | uop u => rw [calmRun, ih, uopCount, doUop_ext, calmBoundary_ext, List.drop_tail]

theorem calmRun_now (acts : List Act) (s : State) : (calmRun acts s).now = s.now + uopCount acts := by
  induction acts generalizing s with
  | nil => rfl
  | cons x acts ih =>
    cases x with
    | int n => rw [calmRun, ih, uopCount, doInternal, updSeq_now]
    | uop u => rw [calmRun, ih, uopCount, doUop_now, calmBoundary_now]; omega

/-- At a calm boundary the devices see the pads (R69). -/
theorem calmBoundary_devices (s : State) : (calmBoundary s).devices = (elapse s).devices := by
  unfold calmBoundary; split <;> rfl

/-- No device comes to the pads. -/
theorem calmBoundary_devices_nil {s : State} (hs : s.devices = []) : (calmBoundary s).devices = [] := by
  rw [calmBoundary_devices, elapse, State.observe, hs]; rfl

theorem calmRun_devices_nil (acts : List Act) {s : State} (hs : s.devices = []) : (calmRun acts s).devices = [] := by
  induction acts generalizing s with
  | nil => exact hs
  | cons x acts ih =>
    cases x with
    | int n => exact ih (by simp [doInternal, hs])
    | uop u =>
      have hnone := calmBoundary_devices_nil hs
      have happly := applyUop_devices .main u (s := calmBoundary s) (by simp [State.noEcho, hnone])
      exact ih (by simp [doUop, State.observe, happly, hnone])

/-- The other context stands still. -/
theorem calmRun_foreignSeq (acts : List Act) (s : State) : (calmRun acts s).foreignSeq = s.foreignSeq := by
  induction acts generalizing s with
  | nil => rfl
  | cons x acts ih =>
    cases x with
    | int n => rw [calmRun, ih]; exact doInternal_otherSeq s .main n
    | uop u =>
      rw [calmRun, ih]
      calc (doUop .main u (calmBoundary s)).foreignSeq
          = (calmBoundary s).foreignSeq := doUop_otherSeq _ .main u
        _ = s.foreignSeq := calmBoundary_foreignSeq s

/-! ### How many micro-operations a sequence has (R203) -/

theorem uopCount_append (xs ys : List Act) : uopCount (xs ++ ys) = uopCount xs + uopCount ys := by
  induction xs with
  | nil => simp [uopCount]
  | cons x xs ih =>
    cases x with
    | int n => exact ih
    | uop u => simp only [List.cons_append, uopCount, ih]; omega

theorem uopCount_repeatActs (n : Nat) (acts : List Act) : uopCount (repeatActs n acts) = n * uopCount acts := by
  induction n with
  | zero => simp [repeatActs, uopCount]
  | succ n ih => rw [repeatActs, uopCount_append, ih]; ring

theorem uopCount_writeThrough {h : PinHandle} (ho : h.isOutput = true) (v : Level) :
    uopCount (writeThrough h v) = writeCost h := by
  obtain ⟨kind, pin⟩ := h
  cases kind with
  | input pullup => cases ho
  | output dyn inv => cases pin <;> cases dyn <;> rfl

theorem uopCount_readThrough (h : PinHandle) : uopCount (readThrough h) = readCost h := by
  obtain ⟨kind, pin⟩ := h
  cases kind <;> cases pin <;> rfl

/-- The last of the repetitions split off. -/
theorem repeatActs_succ_right (n : Nat) (acts : List Act) : repeatActs (n + 1) acts = repeatActs n acts ++ acts := by
  induction n with
  | zero => simp [repeatActs]
  | succ n ih =>
    calc repeatActs (n + 1 + 1) acts
        = acts ++ (repeatActs n acts ++ acts) := by rw [repeatActs, ih]
      _ = repeatActs (n + 1) acts ++ acts := by rw [repeatActs, List.append_assoc]

theorem readsNoPad_repeatActs {acts : List Act} (h : ReadsNoPad acts) (n : Nat) : ReadsNoPad (repeatActs n acts) := by
  induction n with
  | zero => exact fun u hu => nomatch hu
  | succ n ih => exact readsNoPad_append h ih

end Sys2Proof.Machine
end

