-- ==== Sys2Proof/Proofs/ShiftCommands.lean ====
section
/-!
PROOFS. The Shifter commands (R190 to R203): SHIFT.CFG, what a SHIFT.OUT leaves on its lines, and what a SHIFT.IN gathers,
round by round.
-/

namespace Sys2Proof.Machine

open Sys2Proof

/-! ### SHIFT.CFG (R191) -/

theorem planOf_shiftCfg {s : State} {k : Nat} {mode : ShiftMode} {datah clkh nbits : Nat} (order : BitOrder)
    {d c : PinHandle} (hk : k < s.sh.length) (hslot : s.shiftSlot k = none) (hdata : s.pinSlot datah = some d)
    (hkind : d.isOutput = decide (mode = .shiftOut)) (hclk : s.pinSlot clkh = some c) (hc : c.isOutput = true)
    (hone : 1 ≤ nbits) (hn : nbits ≤ 32) :
    planOf (.shiftCfg k mode datah clkh nbits order) s =
      .run { bind := .sh k { mode := mode, data := datah, clk := clkh, nbits := nbits, order := order } } := by
  have hfree := freeSlot_of_join hk hslot
  cases mode <;>
    simp_all [planOf, planShiftCfg, checked, State.inputSlot, State.outputSlot]

/-- Settles O34: a command without micro-operations has no boundary at which another agent could act. -/
theorem shiftCfgBindsTheSlot : Obligations.ShiftCfgBindsTheSlot := by
  intro s k mode datah clkh nbits order d c hk hslot hdata hkind hclk hc hone hn
  have hplan := planOf_shiftCfg order hk hslot hdata hkind hclk hc hone hn
  rw [exec_of_live hplan rfl, accept_of_not_isShift .main _ s rfl]
  rfl

/-! ### A Shifter's unit and its handles (R191, R192) -/

/-- What a valid Shifter slot of a well-formed state names. -/
structure State.unit (s : State) (h : Shifter) (d c : PinHandle) : Prop where
  data : d.isOutput = decide (h.mode = .shiftOut)
  dataPin : s.pinOk d.pin = true
  clock : s.lineOk c = true
  one_le : 1 ≤ h.nbits
  le : h.nbits ≤ 32

theorem unit_of_wf {s : State} {k : Nat} {h : Shifter} {d c : PinHandle} (hwf : s.wf = true)
    (hslot : s.shiftSlot k = some h) (hdata : s.pinSlot h.data = some d) (hclk : s.pinSlot h.clk = some c) :
    s.unit h d c := by
  obtain ⟨-, hv⟩ := (wf_iff s).mp hwf
  have hok := hv.shift k h hslot
  simp only [State.shifterOk, State.outputSlot, State.inputSlot, hdata, hclk, Bool.and_eq_true, decide_eq_true_eq] at hok
  obtain ⟨⟨hmode, hc⟩, hone, hle⟩ := hok
  refine ⟨?_, hv.pin _ _ hdata, lineOk_of_isOutput hc (hv.pin _ _ hclk), hone, hle⟩
  cases hm : h.mode <;> simpa [hm] using hmode

theorem planOf_shiftIn {s : State} {k : Nat} {h : Shifter} {d c : PinHandle} (hslot : s.shiftSlot k = some h)
    (hmode : h.mode = .shiftIn) (hdata : s.pinSlot h.data = some d) (hclk : s.pinSlot h.clk = some c) :
    planOf (.shiftIn k) s = .run { acts := shiftInActs d c h.nbits h.order, result := .acc } := by
  simp [planOf, planShiftIn, withShifter, checked, hslot, hmode, hdata, hclk]

theorem planOf_shiftOut {s : State} {k : Nat} {h : Shifter} {d c : PinHandle} (value : Word)
    (hslot : s.shiftSlot k = some h) (hmode : h.mode = .shiftOut) (hdata : s.pinSlot h.data = some d)
    (hclk : s.pinSlot h.clk = some c) :
    planOf (.shiftOut k value) s = .run { acts := shiftOutActs d c h.nbits h.order } := by
  simp [planOf, planShiftOut, withShifter, checked, hslot, hmode, hdata, hclk]

/-! ### SHIFT.OUT (R197) -/

theorem readsNoPad_shiftOutActs (d c : PinHandle) (nbits : Nat) (order : BitOrder) :
    ReadsNoPad (shiftOutActs d c nbits order) := by
  have hround : ReadsNoPad (shiftOutRound d c nbits order) :=
    readsNoPad_append (readsNoPad_append (readsNoPad_writeThrough _ _) (readsNoPad_pulseThrough _ _)) (by simp [ReadsNoPad])
  exact readsNoPad_append (by simp [ReadsNoPad]) (readsNoPad_repeatActs hround nbits)

/-- The sequencer of a SHIFT.OUT as its first round finds it (R193, R197). -/
def Seq.loaded (nbits : Nat) (order : BitOrder) (q : Seq) : Seq :=
  { q with val := truncAcc nbits q.val, smask := initialMask order nbits, idx := 0 }

/-- SHIFT.OUT leaves the last bit it sends on the data line and the clock line low. -/
theorem actsApart_shiftOutActs {d c : PinHandle} {nbits : Nat} (order : BitOrder) {a : State} {q : Seq}
    (hq : a.mainSeq = some q) (hd : a.lineOk d = true) (hc : a.lineOk c = true) (hone : 1 ≤ nbits) (hn : nbits ≤ 32) :
    ∃ q', actsApart (shiftOutActs d c nbits order) a =
      ((a.driven d (q.val.getLsbD (bitPos order nbits (nbits - 1)))).driven c false).setSeq .main (some q') := by
  obtain ⟨n, rfl⟩ : ∃ n, nbits = n + 1 := ⟨nbits - 1, by omega⟩
  have hload : actsApart [.int (.loadVal (n + 1)), .int (.initMask order (n + 1))] a =
      a.setSeq .main (some (q.loaded (n + 1) order)) := by
    simp only [actsApart, doInternal, State.updSeq, setSeq_setSeq, State.seq, hq]
    rfl
  obtain ⟨q', -, hrounds⟩ := actsApart_shiftOutRounds d c (n + 1) order n (a.setSeq .main (some (q.loaded (n + 1) order)))
    (q.loaded (n + 1) order) rfl (by simpa using hd) (by simpa using hc)
  have hlast : (((q.loaded (n + 1) order).val &&& maskAfter order (n + 1) n (q.loaded (n + 1) order).smask) != 0) =
      q.val.getLsbD (bitPos order (n + 1) n) := by
    rw [maskAfter_eq_iterate]
    exact (congrArg (fun m => (truncAcc (n + 1) q.val &&& m) != 0) (iterate_nextMask order hn (by omega))).trans
      (truncAcc_and_bitMask order hn (by omega) _)
  refine ⟨q', ?_⟩
  rw [shiftOutActs, actsApart_append, hload, hrounds, hlast, setSeq_driven, setSeq_driven, setSeq_setSeq,
    Nat.add_sub_cancel]

/-- Settles O37. -/
theorem shiftOutLeavesItsLines : Obligations.ShiftOutLeavesItsLines := by
  intro s k value h d c hwf hs hslot hmode hdata hclk
  have hunit := unit_of_wf hwf hslot hdata hclk
  have hd : s.lineOk d = true := lineOk_of_isOutput (by rw [hunit.data, hmode]; rfl) hunit.dataPin
  obtain ⟨q, hacts⟩ := actsApart_shiftOutActs h.order (a := acceptApart (.shiftOut k value) .nothing s)
    (q := Seq.accepted s.now (.shiftOut k value)) rfl (by simpa using hd) (by simpa using hunit.clock) hunit.one_le hunit.le
  rw [acceptApart, setSeq_driven, setSeq_driven, setSeq_setSeq] at hacts
  exact exec_of_actsApart hs (planOf_shiftOut value hslot hmode hdata hclk) (sectioned_shiftOutActs ..)
    (readsNoPad_shiftOutActs _ _ _ _) hacts

end Sys2Proof.Machine
end

