-- ==== Sys2Proof/Proofs/ShiftIn.lean ====
section
/-!
PROOFS. SHIFT.IN round by round (R195): what it gathers from the pads, whatever stands on them, and its samples where no
device does.
-/

namespace Sys2Proof.Machine

open Sys2Proof

/-! ### One round (R195) -/

/-- The logical value a read through an Input handle gives behind the next calm boundary (R177): the pad's level, false
through a no-pin handle (R178). -/
def State.sensed (s : State) (d : PinHandle) : Bool :=
  match d.pin with
  | .noPin => false
  | .pin p b => (calmBoundary s).padLevel { port := p, bit := b }

/-- A sequencer that has moved on but for the value last read. -/
def Seq.sampled (q q' : Seq) (v : Bool) : Prop :=
  q'.cmd = q.cmd ∧ q'.acc = q.acc ∧ q'.smask = q.smask ∧ q'.samp = v

/-- A read through an Input handle leaves the value read in the sequencer and changes nothing else of the block. -/
theorem apart_calmRun_readThrough {d : PinHandle} (hd : d.isOutput = false) {s : State} {q : Seq}
    (hq : s.mainSeq = some q) :
    ∃ q', q.sampled q' (s.sensed d) ∧ (calmRun (readThrough d) s).apart = s.apart.setSeq .main (some q') := by
  obtain ⟨kind, pin⟩ := d
  cases kind with
  | output dyn inv => cases hd
  | input pullup =>
    cases pin with
    | noPin =>
      refine ⟨{ q with samp := false }, ⟨rfl, rfl, rfl, rfl⟩, ?_⟩
      rw [readThrough, calmRun, calmRun, apart_doInternal]
      simp [doInternal, State.updSeq, State.seq, hq]
    | pin p b =>
      refine ⟨{ q with samp := (calmBoundary s).padLevel { port := p, bit := b }, pos := q.pos + 1 },
        ⟨rfl, rfl, rfl, rfl⟩, ?_⟩
      have hseq : (calmBoundary s).seq .main = q := by rw [calmBoundary_seq, State.seq, hq]; rfl
      rw [readThrough, calmRun, calmRun, ← apart_calmBoundary s]
      generalize calmBoundary s = x at hseq
      simp only [doUop, applyUop, sample, Bool.xor_false]
      split <;> subst hseq <;> rfl

/-- The sequencer after step (c) of a round (R195). -/
def Seq.accumulated (q : Seq) : Seq := if q.samp then { q with acc := q.acc ||| q.smask } else q

theorem accumulated_spec (q : Seq) :
    q.accumulated.cmd = q.cmd ∧ q.accumulated.acc = (if q.samp then q.acc ||| q.smask else q.acc) ∧
      q.accumulated.smask = q.smask := by
  unfold Seq.accumulated; split <;> exact ⟨rfl, rfl, rfl⟩

/-- The sequencer after step (e) of a round (R195). -/
def Seq.advanced (order : BitOrder) (nbits : Nat) (q : Seq) : Seq :=
  { q with smask := nextMask order nbits q.smask, idx := q.idx + 1 }

/-- What one round of SHIFT.IN leaves: what it has sampled in ACC, the mask moved on, the clock line low. -/
theorem apart_calmRun_shiftInRound {d c : PinHandle} {nbits : Nat} {order : BitOrder} {s : State} {q : Seq}
    (hd : d.isOutput = false) (hc : s.lineOk c = true) (hq : s.mainSeq = some q) :
    ∃ q', q'.cmd = q.cmd ∧ q'.smask = nextMask order nbits q.smask ∧
      q'.acc = (if (calmRun (writeThrough c (.const true)) s).sensed d then q.acc ||| q.smask else q.acc) ∧
      (calmRun (shiftInRound d c nbits order) s).apart = (s.apart.driven c false).setSeq .main (some q') := by
  obtain ⟨q1, ⟨hcmd1, hacc1, hmask1, -⟩, hhigh⟩ := apart_calmRun_writeThrough (.const true) hq hc
  obtain ⟨q2, ⟨hcmd2, hacc2, hmask2, hsamp⟩, hread⟩ := apart_calmRun_readThrough hd
    (s := calmRun (writeThrough c (.const true)) s) (q := q1) (by rw [← apart_mainSeq, hhigh]; rfl)
  obtain ⟨hcmd3, hacc3, hmask3⟩ := accumulated_spec q2
  obtain ⟨q4, ⟨hcmd4, hacc4, hmask4, -⟩, hlow⟩ := actsApart_writeThrough c (.const false)
    ((s.apart.driven c true).setSeq .main (some q2.accumulated)) q2.accumulated rfl (by simpa using hc)
  refine ⟨q4.advanced order nbits, ?_, ?_, ?_, ?_⟩
  · rw [Seq.advanced, hcmd4, hcmd3, hcmd2, hcmd1]
  · rw [Seq.advanced, hmask4, hmask3, hmask2, hmask1]
  · rw [Seq.advanced, hacc4, hacc3, hsamp, hacc2, hmask2, hacc1, hmask1]
  · have hacc : (doInternal .main .accumulate (calmRun (readThrough d) (calmRun (writeThrough c (.const true)) s))).apart =
        (s.apart.driven c true).setSeq .main (some q2.accumulated) := by
      rw [apart_doInternal, hread, hhigh, setSeq_setSeq]; rfl
    calc (calmRun (shiftInRound d c nbits order) s).apart
        = doInternal .main (.advance order nbits) (actsApart (writeThrough c (.const false))
            ((s.apart.driven c true).setSeq .main (some q2.accumulated))) := by
          simp only [shiftInRound, calmRun_append, calmRun]
          rw [apart_doInternal, apart_calmRun (readsNoPad_writeThrough _ _), hacc]
      _ = (s.apart.driven c false).setSeq .main (some (q4.advanced order nbits)) := by
          rw [hlow, setSeq_driven, setSeq_setSeq, Level.eval, driven_driven s.apart _ _ _ hc]; rfl

/-! ### The rounds (R194, R195) -/

section Rounds

variable (d c : PinHandle) (nbits : Nat) (order : BitOrder)

/-- The state before round `i` of a SHIFT.IN whose first round starts from `s`. -/
def State.atRound (s : State) (i : Nat) : State := calmRun (repeatActs i (shiftInRound d c nbits order)) s

/-- The state before sample `i`, the clock line high. -/
def State.atSample (s : State) (i : Nat) : State := calmRun (writeThrough c (.const true)) (s.atRound d c nbits order i)

/-- Sample `i`. -/
def State.sampleOf (s : State) (i : Nat) : Bool := (s.atSample d c nbits order i).sensed d

theorem atRound_succ (s : State) (i : Nat) :
    s.atRound d c nbits order (i + 1) = calmRun (shiftInRound d c nbits order) (s.atRound d c nbits order i) := by
  rw [State.atRound, repeatActs_succ_right, calmRun_append]; rfl

variable {d c nbits order}

/-- The first round of a SHIFT.IN is about to start, `q` in the sequencer. -/
structure State.readyToShiftIn (s : State) (d c : PinHandle) (nbits : Nat) (order : BitOrder) (q : Seq) : Prop where
  data : d.isOutput = false
  clock : s.lineOk c = true
  seq : s.mainSeq = some q
  acc : q.acc = 0
  mask : q.smask = initialMask order nbits
  le : nbits ≤ 32

/-- The block `i` rounds on, but for the sequencer: every round leaves the clock line low. -/
def State.clocked (a : State) (c : PinHandle) (i : Nat) : State := if i = 0 then a else a.driven c false

theorem setSeq_clocked (a : State) (q : Option Seq) (c : PinHandle) (i : Nat) :
    (a.setSeq .main q).clocked c i = (a.clocked c i).setSeq .main q := by
  unfold State.clocked; split
  · rfl
  · exact setSeq_driven ..

theorem driven_clocked {a : State} {c : PinHandle} (hc : a.lineOk c = true) (i : Nat) (v : Bool) :
    (a.clocked c i).driven c v = a.driven c v := by
  unfold State.clocked; split
  · rfl
  · exact driven_driven a c _ _ hc

/-- The rounds of SHIFT.IN: ACC holds what they sampled, the mask has moved on, and of the block only the clock line has
changed. -/
theorem apart_atRound {s : State} {q : Seq} (hs : s.readyToShiftIn d c nbits order q) {i : Nat} (hi : i ≤ nbits) :
    ∃ q', q'.cmd = q.cmd ∧ q'.acc = gathered order nbits (s.sampleOf d c nbits order) i ∧
      q'.smask = (nextMask order nbits)^[i] (initialMask order nbits) ∧
      (s.atRound d c nbits order i).apart = (s.apart.clocked c i).setSeq .main (some q') := by
  induction i with
  | zero => exact ⟨q, rfl, hs.acc, hs.mask, by rw [← hs.seq]; rfl⟩
  | succ i ih =>
    obtain ⟨q', hcmd, hacc, hmask, hapart⟩ := ih (by omega)
    have hc : (s.atRound d c nbits order i).lineOk c = true := (calmRun_lineOk ..).trans hs.clock
    obtain ⟨q'', hcmd', hmask', hacc', hround⟩ := apart_calmRun_shiftInRound (nbits := nbits) (order := order)
      hs.data hc (q := q') (by rw [← apart_mainSeq, hapart]; rfl)
    rw [hmask, iterate_nextMask order hs.le hi, hacc] at hacc'
    refine ⟨q'', hcmd'.trans hcmd, hacc', ?_, ?_⟩
    · rw [hmask', hmask, Function.iterate_succ_apply']
    · rw [atRound_succ, hround, hapart, setSeq_driven, setSeq_setSeq, driven_clocked (a := s.apart) hs.clock]
      rfl

/-- The block before a sample: SHIFT.IN in progress, the clock line high. -/
theorem apart_atSample {s : State} {q : Seq} (hs : s.readyToShiftIn d c nbits order q) {i : Nat} (hi : i ≤ nbits) :
    ∃ q', q'.cmd = q.cmd ∧ (s.atSample d c nbits order i).apart = (s.apart.driven c true).setSeq .main (some q') := by
  obtain ⟨q', hcmd, -, -, hapart⟩ := apart_atRound hs hi
  obtain ⟨q'', ⟨hcmd', -⟩, hhigh⟩ := apart_calmRun_writeThrough (.const true)
    (s := s.atRound d c nbits order i) (q := q') (by rw [← apart_mainSeq, hapart]; rfl) ((calmRun_lineOk ..).trans hs.clock)
  refine ⟨q'', hcmd'.trans hcmd, ?_⟩
  rw [State.atSample, hhigh, hapart, setSeq_driven, setSeq_setSeq, driven_clocked (a := s.apart) hs.clock]
  rfl

end Rounds

/-! ### The command (R195) -/

/-- A SHIFT.IN just accepted, as its first round finds it. -/
def State.shiftInStart (s : State) (k : Nat) (h : Shifter) : State :=
  calmRun [.int .clearAcc, .int (.initMask h.order h.nbits)] (accept .main (.shiftIn k) .nothing s)

/-- The sequencer of a SHIFT.IN as its first round finds it (R193, R195). -/
def Seq.cleared (h : Shifter) (q : Seq) : Seq := { q with acc := 0, smask := initialMask h.order h.nbits, idx := 0 }

theorem accept_lineOk (c : Ctx) (i : Instr) (s : State) (h : PinHandle) :
    (accept c i .nothing s).lineOk h = s.lineOk h := by
  rw [← lineOk_apart, apart_accept, setSeq_lineOk, applyBind, lineOk_apart]

theorem lineOk_shiftInStart (s : State) (k : Nat) (h : Shifter) (g : PinHandle) :
    (s.shiftInStart k h).lineOk g = s.lineOk g :=
  (calmRun_lineOk ..).trans (accept_lineOk ..)

theorem readyToShiftIn_start {s : State} {h : Shifter} {d c : PinHandle} (hunit : s.unit h d c) (hmode : h.mode = .shiftIn)
    (k : Nat) :
    (s.shiftInStart k h).readyToShiftIn d c h.nbits h.order ((Seq.accepted s.now (.shiftIn k)).cleared h) where
  data := by rw [hunit.data, hmode]; rfl
  clock := (lineOk_shiftInStart ..).trans hunit.clock
  seq := rfl
  acc := rfl
  mask := rfl
  le := hunit.le

theorem apart_shiftInStart (s : State) (k : Nat) (h : Shifter) :
    (s.shiftInStart k h).apart = s.apart.setSeq .main (some ((Seq.accepted s.now (.shiftIn k)).cleared h)) := by
  rw [State.shiftInStart, apart_calmRun (fun u hu => by simp at hu), apart_accept]
  rfl

/-- SHIFT.IN answers the word its samples gather, leaves the clock line low and changes nothing else of the block, whatever
stands on the pads. -/
theorem exec_shiftIn {s : State} {k : Nat} {h : Shifter} {d c : PinHandle} (hs : s.calm = true) (hunit : s.unit h d c)
    (hslot : s.shiftSlot k = some h) (hmode : h.mode = .shiftIn) (hdata : s.pinSlot h.data = some d)
    (hclk : s.pinSlot h.clk = some c) :
    ∃ t, exec (.shiftIn k) s = .next t ∧
      t.apart = (s.apart.driven c false).doneWith
        (gathered h.order h.nbits ((s.shiftInStart k h).sampleOf d c h.nbits h.order) h.nbits) := by
  refine ⟨_, exec_eq_calmRun hs (planOf_shiftIn hslot hmode hdata hclk) (sectioned_shiftInActs ..), ?_⟩
  obtain ⟨q, -, hacc, -, hapart⟩ := apart_atRound (readyToShiftIn_start hunit hmode k) le_rfl
  have hlow : s.apart.clocked c h.nbits = s.apart.driven c false := if_neg (Nat.one_le_iff_ne_zero.mp hunit.one_le)
  have hrun : (calmRun (shiftInActs d c h.nbits h.order) (accept .main (.shiftIn k) .nothing s)).apart =
      (s.apart.driven c false).setSeq .main (some q) := by
    rw [apart_shiftInStart, setSeq_clocked, setSeq_setSeq, hlow] at hapart
    rw [shiftInActs, calmRun_append]
    exact hapart
  rw [apart_finish, hrun, ← hacc]
  rfl

/-! ### The samples where no device stands on the pads (R62, R63) -/

theorem uopCount_shiftInRound {d c : PinHandle} (hc : c.isOutput = true) (nbits : Nat) (order : BitOrder) :
    uopCount (shiftInRound d c nbits order) = 2 * writeCost c + readCost d := by
  simp only [shiftInRound, uopCount_append, uopCount_writeThrough hc, uopCount_readThrough, uopCount]
  omega

/-- The level of an undriven pad with no device on it is the one the environment states, or a free value. -/
theorem extWord_of_devices_nil {s : State} (hs : s.devices = []) (p : Nat) : s.extWord p = s.extStated p := by
  rw [State.extWord, hs, List.foldl_nil, State.extStated, trunc_trunc]

theorem isOutput_of_lineOk {s : State} {h : PinHandle} (ho : s.lineOk h = true) : h.isOutput = true := by
  rw [State.lineOk, Bool.and_eq_true] at ho
  exact ho.1

theorem dirReg_driven {s : State} {h : PinHandle} (ho : s.lineOk h = true) (v : Bool) :
    (s.driven h v).dirReg = s.dirReg := by
  rcases lineOk_cases s h ho with ⟨-, hn⟩ | ⟨p, b, dyn, inv, rfl, -, hd⟩
  · rw [hn]
  · rw [hd _ _ rfl]
    exact dirReg_regWrite_spared _ _ _ _ (by decide)

/-- What a pad without devices shows behind the next calm boundary (R62, R63). -/
theorem padLevel_calmBoundary_of_devices_nil {s : State} (hs : s.devices = []) (pad : Pad) :
    (calmBoundary s).padLevel pad = if s.padOe pad then s.padOut pad else s.extLevelAt 1 pad := by
  rw [padLevel_eq, extWord_of_devices_nil (calmBoundary_devices_nil hs)]
  simp only [State.padOe, State.padOut, dirReg_calmBoundary, outReg_calmBoundary, State.extStated, State.extLevelAt,
    calmBoundary_width, calmBoundary_ext, calmBoundary_now, List.drop_one]

/-- The levels of `EXT` seen from `n` boundaries on. -/
theorem extLevelAt_of_later {s t : State} {n : Nat} (hw : t.width = s.width) (hext : t.ext = s.ext.drop n)
    (hnow : t.now = s.now + n) (m : Nat) (pad : Pad) : t.extLevelAt m pad = s.extLevelAt (n + m) pad := by
  simp only [State.extLevelAt, hw, hext, hnow, List.drop_drop, Nat.add_assoc]

/-- The boundaries that have passed before sample `i` but for the one right before it (R203). -/
theorem atSample_world {d c : PinHandle} (hc : c.isOutput = true) (nbits : Nat) (order : BitOrder) (s : State) (i : Nat) :
    (s.atSample d c nbits order i).ext = s.ext.drop (i * (2 * writeCost c + readCost d) + writeCost c) ∧
      (s.atSample d c nbits order i).now = s.now + (i * (2 * writeCost c + readCost d) + writeCost c) := by
  simp only [State.atSample, State.atRound, calmRun_ext, calmRun_now, uopCount_repeatActs, uopCount_shiftInRound hc,
    uopCount_writeThrough hc, List.drop_drop, Nat.add_assoc, and_self]

/-- The registers before a sample (R195). -/
theorem atSample_registers {s : State} {d c : PinHandle} {nbits : Nat} {order : BitOrder} {q : Seq}
    (hs : s.readyToShiftIn d c nbits order q) {i : Nat} (hi : i ≤ nbits) :
    (s.atSample d c nbits order i).width = s.width ∧ (s.atSample d c nbits order i).dirReg = s.dirReg ∧
      (s.atSample d c nbits order i).outReg = (s.driven c true).outReg := by
  obtain ⟨q', -, hapart⟩ := apart_atSample hs hi
  rw [← apart_driven] at hapart
  have hwidth : (s.atSample d c nbits order i).width = (s.driven c true).width := by rw [← apart_width, hapart]; rfl
  have hdir : (s.atSample d c nbits order i).dirReg = (s.driven c true).dirReg := by
    funext p; rw [← dirReg_apart, hapart]; rfl
  have hout : (s.atSample d c nbits order i).outReg = (s.driven c true).outReg := by
    funext p; rw [← outReg_apart, hapart]; rfl
  exact ⟨hwidth.trans (driven_width ..), hdir.trans (dirReg_driven hs.clock true), hout⟩

/-- Sample `i` where no device stands on the pads. -/
theorem sampleOf_of_devices_nil {s : State} {d c : PinHandle} {nbits : Nat} {order : BitOrder} {q : Seq}
    (hs : s.readyToShiftIn d c nbits order q) (hdev : s.devices = []) {i : Nat} (hi : i ≤ nbits) :
    s.sampleOf d c nbits order i = s.sampleLevel d c i := by
  rw [State.sampleOf, State.sensed, State.sampleLevel]
  cases hpin : d.pin with
  | noPin => rfl
  | pin p b =>
    obtain ⟨hwidth, hdir, hout⟩ := atSample_registers hs hi
    obtain ⟨hext, hnow⟩ := atSample_world (d := d) (isOutput_of_lineOk hs.clock) nbits order s i
    have hdev' : (s.atSample d c nbits order i).devices = [] := calmRun_devices_nil _ (calmRun_devices_nil _ hdev)
    have hlevel := padLevel_calmBoundary_of_devices_nil hdev' { port := p, bit := b }
    rw [extLevelAt_of_later hwidth hext hnow, State.padOe, State.padOut, hdir, hout, readCost, hpin] at hlevel
    exact hlevel

theorem sampleLevel_setSeq (s : State) (q : Option Seq) (d c : PinHandle) (i : Nat) :
    (s.setSeq .main q).sampleLevel d c i = s.sampleLevel d c i := by
  rw [State.sampleLevel, setSeq_driven]; rfl

/-- Settles O36. -/
theorem shiftInGathersItsSamples : Obligations.ShiftInGathersItsSamples := by
  intro s k h d c hwf hs hdev hslot hmode hdata hclk
  have hunit := unit_of_wf hwf hslot hdata hclk
  obtain ⟨t, ht, hapart⟩ := exec_shiftIn hs hunit hslot hmode hdata hclk
  have hstart : s.shiftInStart k h = s.setSeq .main (some ((Seq.accepted s.now (.shiftIn k)).cleared h)) := by
    rw [State.shiftInStart, accept_of_noEcho .main _ _ (by simp [State.noEcho, hdev])]; rfl
  refine ⟨t, _, ht, hapart, fun i hi => ?_, gathered_and_ones h.order hunit.le _⟩
  rw [gathered_bitPos h.order hunit.le _ hi,
    sampleOf_of_devices_nil (readyToShiftIn_start hunit hmode k) (by rw [hstart]; simpa using hdev) (Nat.le_of_lt hi),
    hstart, sampleLevel_setSeq]

end Sys2Proof.Machine
end

