-- ==== Sys2Proof/Proofs/EchoShifts.lean ====
section
/-!
PROOFS. The echo on the lines of a Shifter (R90): what it sees of a write through a handle, the bits a SHIFT.OUT appends to
it, and the bits it answers to a SHIFT.IN.
-/

namespace Sys2Proof.Machine

open Sys2Proof

/-! ### What an echo sees (R90) -/

@[simp] theorem see_dout (e : Echo) (x : Option Ctx) (dout clk : Bool) : (e.see x dout clk).dout = e.dout := by
  rw [echo_see]; rcases x with _ | _ | _ <;> dsimp only <;> split <;> rfl
@[simp] theorem see_clk (e : Echo) (x : Option Ctx) (dout clk : Bool) : (e.see x dout clk).clk = e.clk := by
  rw [echo_see]; rcases x with _ | _ | _ <;> dsimp only <;> split <;> rfl
@[simp] theorem see_din (e : Echo) (x : Option Ctx) (dout clk : Bool) : (e.see x dout clk).din = e.din := by
  rw [echo_see]; rcases x with _ | _ | _ <;> dsimp only <;> split <;> rfl
@[simp] theorem see_lastClk (e : Echo) (x : Option Ctx) (dout clk : Bool) : (e.see x dout clk).lastClk = clk := by
  rw [echo_see]

/-- A clock line that stays where it is tells the echo nothing. -/
theorem see_of_lastClk {e : Echo} {clk : Bool} (h : e.lastClk = clk) (x : Option Ctx) (dout : Bool) :
    e.see x dout clk = e := by
  subst h; rw [echo_see, Bool.and_not_self]; rfl

/-- A rising clock edge that a SHIFT.OUT causes appends the data line's level. -/
theorem see_rising {e : Echo} (h : e.lastClk = false) (c : Ctx) (dout : Bool) :
    e.see (some c) dout true = { e.append c dout with lastClk := true } := by
  rw [echo_see, h]; rfl

/-- A clock line that is low appends nothing. -/
theorem see_falling (e : Echo) (x : Option Ctx) (dout : Bool) : e.see x dout false = { e with lastClk := false } := by
  rw [echo_see]; rfl

/-- The echo alone on the pads and up to date with its clock line; the block drives the echo's two lines and not its data-in
line. -/
structure State.echoes (s : State) (e : Echo) : Prop where
  devices : s.devices = [.echo e]
  dout : s.padOe e.dout = true
  clk : s.padOe e.clk = true
  din : s.padOe e.din = false
  lastClk : e.lastClk = s.padOut e.clk

theorem padOe_of_dirReg {s t : State} (h : t.dirReg = s.dirReg) : t.padOe = s.padOe := by
  funext pad; rw [State.padOe, State.padOe, h]

theorem padOut_of_ports {s t : State} (hw : t.width = s.width) (hp : t.ports = s.ports) : t.padOut = s.padOut := by
  funext pad; simp only [State.padOut, State.outReg, State.triple, hw, hp]

theorem padOut_calmBoundary (s : State) : (calmBoundary s).padOut = s.padOut := by
  funext pad; rw [State.padOut, State.padOut, outReg_calmBoundary]

/-- Registers that stay leave the echo's lines where they are, whatever becomes of the bits it keeps. -/
theorem echoes_setSide {s t : State} {e : Echo} (hs : s.echoes e) (hw : t.width = s.width) (hp : t.ports = s.ports)
    {c : Ctx} {x : EchoSide} (hd : t.devices = [.echo (e.setSide c x)]) : t.echoes (e.setSide c x) where
  devices := hd
  dout := by rw [setSide_dout, padOe_of_dirReg (dirReg_of_ports hw hp)]; exact hs.dout
  clk := by rw [setSide_clk, padOe_of_dirReg (dirReg_of_ports hw hp)]; exact hs.clk
  din := by rw [setSide_din, padOe_of_dirReg (dirReg_of_ports hw hp)]; exact hs.din
  lastClk := by rw [setSide_lastClk, setSide_clk, padOut_of_ports hw hp]; exact hs.lastClk

theorem echoes_of_ports {s t : State} {e : Echo} (hs : s.echoes e) (hw : t.width = s.width) (hp : t.ports = s.ports)
    (hd : t.devices = s.devices) : t.echoes e :=
  echoes_setSide (c := .main) (x := e.main) hs hw hp (hd.trans hs.devices)

theorem echoes_doInternal {s : State} {e : Echo} (hs : s.echoes e) (n : Internal) : (doInternal .main n s).echoes e :=
  echoes_of_ports hs (by simp [doInternal]) (by simp [doInternal]) (by simp [doInternal])

/-- The echo sees its two lines at the levels of their `OUT` bits (R62). -/
theorem echoes_observe {s : State} {e : Echo} (hd : s.devices = [.echo e]) (hdout : s.padOe e.dout = true)
    (hclk : s.padOe e.clk = true) (hdin : s.padOe e.din = false) (x : Option Ctx) :
    (s.observe x).echoes (e.see x (s.padOut e.dout) (s.padOut e.clk)) where
  devices := by
    rw [State.observe, hd, List.map_cons, List.map_nil, Device.see, padLevel_driven s _ hdout, padLevel_driven s _ hclk]
  dout := by rw [see_dout]; exact hdout
  clk := by rw [see_clk]; exact hclk
  din := by rw [see_din]; exact hdin
  lastClk := by rw [see_lastClk, see_clk]; rfl

/-- An echo that is up to date sees nothing new. -/
theorem echoes_observe_again {s : State} {e : Echo} (hs : s.echoes e) (x : Option Ctx) : (s.observe x).echoes e := by
  have hseen := echoes_observe hs.devices hs.dout hs.clk hs.din x
  rwa [see_of_lastClk hs.lastClk] at hseen

theorem echoes_calmBoundary {s : State} {e : Echo} (hs : s.echoes e) : (calmBoundary s).echoes e := by
  have hlater : (elapse s).echoes e :=
    echoes_observe_again (s := { s with now := s.now + 1, ext := s.ext.tail, resets := s.resets.tail })
      (echoes_of_ports hs rfl rfl rfl) none
  refine echoes_of_ports hlater (calmBoundary_width s) ?_ (calmBoundary_devices s)
  rw [← apart_ports, apart_calmBoundary]; rfl

/-! ### The context at work (R37, R76) -/

/-- The context whose SHIFT.OUT a micro-operation of the main context is part of, if it is part of one. -/
def State.shifter (s : State) : Option Ctx := if Seq.shiftingOut (some (s.seq .main)) then some .main else none

theorem shifter_of_shiftOut {s : State} {k : Nat} {v : Word} (h : (s.seq .main).cmd = .shiftOut k v) :
    s.shifter = some .main := by
  simp [State.shifter, Seq.shiftingOut, h]

theorem shifter_of_shiftIn {s : State} {k : Nat} (h : (s.seq .main).cmd = .shiftIn k) : s.shifter = none := by
  simp [State.shifter, Seq.shiftingOut, h]

/-- What a sequencer holds of the progress of a SHIFT.OUT (R37). -/
def Seq.progress (q : Seq) : Instr × Word × Word := (q.cmd, q.val, q.smask)

theorem progress_applyUop (u : Uop) (s : State) : ((applyUop .main u s).seq .main).progress = (s.seq .main).progress := by
  cases u with
  | sample p r b inv => simp only [applyUop, sample]; split <;> rfl
  | regWrite p r v => cases r <;> rfl
  | bitWrite p r b level inv => cases r <;> rfl
  | _ => rfl

/-- No micro-operation moves a SHIFT.OUT on: the mask moves between them (R194). -/
theorem progress_doUop (u : Uop) (s : State) : ((doUop .main u s).seq .main).progress = (s.seq .main).progress :=
  progress_applyUop u s

theorem progress_calmRun {acts : List Act} (h : ∀ n, .int n ∉ acts) (s : State) :
    ((calmRun acts s).seq .main).progress = (s.seq .main).progress := by
  induction acts generalizing s with
  | nil => rfl
  | cons x acts ih =>
    cases x with
    | int n => exact absurd List.mem_cons_self (h n)
    | uop u => rw [calmRun, ih fun n hn => h n (List.mem_cons_of_mem _ hn), progress_doUop, calmBoundary_seq]

theorem int_notMem_writeThrough (h : PinHandle) (v : Level) (n : Internal) : .int n ∉ writeThrough h v := by
  unfold writeThrough; split <;> simp [lockedRMW]

theorem cmd_doUop (u : Uop) (s : State) : ((doUop .main u s).seq .main).cmd = (s.seq .main).cmd :=
  congrArg Prod.fst (progress_doUop u s)

theorem cmd_doInternal (n : Internal) (s : State) : ((doInternal .main n s).seq .main).cmd = (s.seq .main).cmd := by
  rw [doInternal, seq_updSeq]
  cases n with
  | accumulate => dsimp only; split <;> rfl
  | _ => rfl

/-- A command stays in progress along its actions. -/
theorem cmd_calmRun (acts : List Act) (s : State) : ((calmRun acts s).seq .main).cmd = (s.seq .main).cmd := by
  induction acts generalizing s with
  | nil => rfl
  | cons x acts ih =>
    cases x with
    | int n => rw [calmRun, ih, cmd_doInternal]
    | uop u => rw [calmRun, ih, cmd_doUop, calmBoundary_seq]

theorem shifter_of_cmd {s t : State} (h : (t.seq .main).cmd = (s.seq .main).cmd) : t.shifter = s.shifter := by
  have hout : Seq.shiftingOut (some (t.seq .main)) = Seq.shiftingOut (some (s.seq .main)) := by
    simp only [Seq.shiftingOut, h]
  rw [State.shifter, hout]; rfl

/-! ### What the echo sees of a write through a handle (R69, R175) -/

theorem applyUop_devices_of_readsPad {u : Uop} (hu : u.readsPad = false) (s : State) :
    (applyUop .main u s).devices = s.devices := by
  cases u with
  | sample p r b inv =>
    have hr : r ≠ .input := by rintro rfl; cases hu
    simp [applyUop, sample, hr]
  | _ => simp [applyUop]

/-- A micro-operation that neither reads a pad nor writes `DIR` shows the echo the lines it leaves. -/
theorem echoes_doUop {s : State} {e : Echo} (hs : s.echoes e) {u : Uop} (hpad : u.readsPad = false)
    (hdir : u.sparesDir = true) :
    (doUop .main u s).echoes
      (e.see s.shifter ((doUop .main u s).padOut e.dout) ((doUop .main u s).padOut e.clk)) := by
  have hoe := padOe_of_dirReg (dirReg_doUop .main hdir s)
  have hseen := echoes_observe (s := (applyUop .main u s).updSeq .main fun q => { q with pos := q.pos + 1 }) (e := e)
    (by rw [updSeq_devices, applyUop_devices_of_readsPad hpad, hs.devices]) ((congrFun hoe _).trans hs.dout)
    ((congrFun hoe _).trans hs.clk) ((congrFun hoe _).trans hs.din) (doUop .main u s).shifter
  rw [shifter_of_cmd (cmd_doUop u s)] at hseen
  have hobserve : doUop .main u s =
      ((applyUop .main u s).updSeq .main fun q => { q with pos := q.pos + 1 }).observe s.shifter := by
    rw [← shifter_of_cmd (cmd_doUop u s)]; rfl
  rw [← hobserve] at hseen
  exact hseen

/-- One that leaves the clock line shows it nothing new. -/
theorem echoes_doUop_of_ports {s : State} {e : Echo} (hs : s.echoes e) {u : Uop} (hpad : u.readsPad = false)
    (hdir : u.sparesDir = true) (hp : (doUop .main u s).ports = s.ports) : (doUop .main u s).echoes e := by
  have hseen := echoes_doUop hs hpad hdir
  rwa [padOut_of_ports (doUop_width ..) hp, see_of_lastClk hs.lastClk] at hseen

/-- The echo sees a write through a handle once: the lines as the write leaves them. -/
theorem echoes_writeThrough {s : State} {e : Echo} (hs : s.echoes e) {h : PinHandle} (ho : s.lineOk h = true) (v : Level) :
    (calmRun (writeThrough h v) s).echoes
      (e.see s.shifter ((calmRun (writeThrough h v) s).padOut e.dout) ((calmRun (writeThrough h v) s).padOut e.clk)) := by
  have hshifter {x : State} (hx : (x.seq .main).cmd = (s.seq .main).cmd) : (calmBoundary x).shifter = s.shifter :=
    shifter_of_cmd (by rw [calmBoundary_seq, hx])
  rcases lineOk_cases s h ho with ⟨hn, -⟩ | ⟨p, b, dyn, inv, rfl, -, -⟩
  · rw [writeThrough_of_noPin hn, calmRun, see_of_lastClk hs.lastClk]
    exact hs
  · cases dyn with
    | false =>
      have hwrite := echoes_doUop (echoes_calmBoundary hs) (u := .bitWrite p .output b v inv) rfl rfl
      rwa [hshifter rfl] at hwrite
    | true =>
      have hacq := echoes_doUop_of_ports (echoes_calmBoundary hs) (u := .acq) rfl rfl (by simp [doUop, applyUop])
      have hread := echoes_doUop_of_ports (echoes_calmBoundary hacq) (u := .regRead p .output) rfl rfl
        (by simp [doUop, applyUop])
      have hwrite := echoes_doUop (echoes_calmBoundary hread) (u := .regWrite p .output (.tmpBit b v inv)) rfl rfl
      rw [hshifter (by simp only [cmd_doUop, calmBoundary_seq])] at hwrite
      have hports (x : State) : (doUop .main .rel x).ports = x.ports := by simp [doUop, applyUop]
      have hrel := echoes_doUop_of_ports (echoes_calmBoundary hwrite) (u := .rel) rfl rfl (hports _)
      rwa [← padOut_calmBoundary (doUop .main (.regWrite p .output (.tmpBit b v inv)) _),
        ← padOut_of_ports (doUop_width .main .rel _) (hports _)] at hrel

/-! ### The levels of plain lines (R175, R217) -/

/-- A write through a plain handle sets its pad and no other. -/
theorem padOut_driven_of_plain {s : State} {h : PinHandle} {line : Pad} (hp : h.plainOn line) (ho : s.lineOk h = true)
    (v : Bool) (pad : Pad) : (s.driven h v).padOut pad = if pad = line then v else s.padOut pad := by
  obtain ⟨hpin, hkind⟩ := hp
  obtain ⟨dyn, rfl⟩ : ∃ dyn, h = { kind := .output dyn false, pin := .pin line.port line.bit } := by
    obtain ⟨kind, pin⟩ := h
    obtain rfl : pin = _ := hpin
    rcases hkind with rfl | rfl
    · exact ⟨false, rfl⟩
    · exact ⟨true, rfl⟩
  obtain ⟨hport, hbit⟩ := (pinOk_pin_iff s line.port line.bit).mp ho
  have hiff : pad = line ↔ pad.port = line.port ∧ pad.bit = line.bit := by
    cases pad; cases line; simp
  rw [driven_eq_bitWrite s _ _ _ _ _ hbit, State.padOut, outReg_bitWrite_getLsbD, electrical, Bool.xor_false]
  simp only [hiff, hport, hbit, true_and, and_true, State.padOut]

theorem padOut_calmRun_writeThrough {s : State} {h : PinHandle} {line : Pad} (hp : h.plainOn line) (ho : s.lineOk h = true)
    (v : Level) (pad : Pad) :
    (calmRun (writeThrough h v) s).padOut pad = if pad = line then v.eval (s.seq .main) else s.padOut pad := by
  obtain ⟨q, hacts⟩ := actsApart_writeThrough_any h v (a := s.apart) ho
  rw [← apart_calmRun (readsNoPad_writeThrough _ _), seq_apart, ← apart_driven] at hacts
  rw [← padOut_driven_of_plain hp ho]
  exact congrArg (·.padOut pad) hacts

/-- A write to the echo's data line tells it nothing yet. -/
theorem echoes_write_dout {s : State} {e : Echo} (hs : s.echoes e) {d : PinHandle} (hd : d.plainOn e.dout)
    (ho : s.lineOk d = true) (hne : e.dout ≠ e.clk) (v : Level) :
    (calmRun (writeThrough d v) s).echoes e ∧ (calmRun (writeThrough d v) s).padOut e.dout = v.eval (s.seq .main) := by
  have hlevel := padOut_calmRun_writeThrough hd ho v
  have hseen := echoes_writeThrough hs ho v
  rw [hlevel e.clk, if_neg (Ne.symm hne), see_of_lastClk hs.lastClk] at hseen
  exact ⟨hseen, by rw [hlevel, if_pos rfl]⟩

/-- A write to its clock line shows it the data line as that stands. -/
theorem echoes_write_clk {s : State} {e : Echo} (hs : s.echoes e) {c : PinHandle} (hc : c.plainOn e.clk)
    (ho : s.lineOk c = true) (hne : e.dout ≠ e.clk) (v : Level) :
    (calmRun (writeThrough c v) s).echoes (e.see s.shifter (s.padOut e.dout) (v.eval (s.seq .main))) := by
  have hlevel := padOut_calmRun_writeThrough hc ho v
  have hseen := echoes_writeThrough hs ho v
  rwa [hlevel e.dout, if_neg hne, hlevel e.clk, if_pos rfl] at hseen

/-! ### The bits a SHIFT.OUT appends (R90, R197) -/

/-- The main context's SHIFT.OUT appends bits, one after the other. -/
def Echo.appended (e : Echo) (bits : List Bool) : Echo := bits.foldl (fun e b => e.append .main b) e

theorem appended_concat (e : Echo) (bits : List Bool) (b : Bool) :
    e.appended (bits ++ [b]) = (e.appended bits).append .main b := by
  rw [Echo.appended, List.foldl_append]; rfl

/-- Bits appended leave the lines and what was last seen of them. -/
theorem appended_lines (e : Echo) (bits : List Bool) :
    (e.appended bits).dout = e.dout ∧ (e.appended bits).clk = e.clk ∧ (e.appended bits).din = e.din ∧
      (e.appended bits).lastClk = e.lastClk := by
  induction bits generalizing e with
  | nil => exact ⟨rfl, rfl, rfl, rfl⟩
  | cons b bits ih => exact ih (e.append .main b)

/-- The bits of a SHIFT.OUT that appended some are those it appended, and the newest of all. -/
theorem appended_sent (e : Echo) {bits : List Bool} (hbits : bits ≠ []) :
    (e.appended bits).newest = .main ∧
      (e.appended bits).main.sent = (if e.main.fresh then [] else e.main.sent) ++ bits := by
  obtain ⟨b, bits, rfl⟩ := List.exists_cons_of_ne_nil hbits
  clear hbits
  induction bits generalizing e b with
  | nil => exact ⟨rfl, rfl⟩
  | cons b' bits ih =>
    obtain ⟨hnew, hsent⟩ := ih (e.append .main b) b'
    exact ⟨hnew, hsent.trans (List.append_assoc _ [b] _)⟩

/-- The first `i` bits a SHIFT.OUT of `nbits` bits of `value` sends (R197). -/
def sentBits (order : BitOrder) (nbits : Nat) (value : Word) (i : Nat) : List Bool :=
  (List.range i).map fun j => value.getLsbD (bitPos order nbits j)

theorem sentBits_succ (order : BitOrder) (nbits : Nat) (value : Word) (i : Nat) :
    sentBits order nbits value (i + 1) = sentBits order nbits value i ++ [value.getLsbD (bitPos order nbits i)] := by
  rw [sentBits, List.range_succ, List.map_append]; rfl

theorem sentBits_getElem? (order : BitOrder) (nbits : Nat) (value : Word) {i j : Nat} (hj : j < i) :
    (sentBits order nbits value i)[j]? = some (value.getLsbD (bitPos order nbits j)) := by
  simp [-BitVec.getLsbD_eq_getElem, sentBits, hj]

/-- One round of SHIFT.OUT on an echo's lines appends the bit it sends: the data line is set before the clock rises
(R198). -/
theorem echoes_shiftOutRound {s : State} {e : Echo} {d c : PinHandle} {nbits : Nat} {order : BitOrder} {k : Nat}
    {value : Word} (hs : s.echoes e) (hd : d.plainOn e.dout) (hc : c.plainOn e.clk) (hdo : s.lineOk d = true)
    (hco : s.lineOk c = true) (hne : e.dout ≠ e.clk) (hlow : e.lastClk = false)
    (hcmd : (s.seq .main).cmd = .shiftOut k value) :
    (calmRun (shiftOutRound d c nbits order) s).echoes (e.append .main (Level.dataBit.eval (s.seq .main))) := by
  have hshifter (acts : List Act) : (calmRun acts s).shifter = some .main :=
    shifter_of_shiftOut ((cmd_calmRun acts s).trans hcmd)
  obtain ⟨hdata, hbit⟩ := echoes_write_dout hs hd hdo hne .dataBit
  have hrise := echoes_write_clk hdata hc ((calmRun_lineOk ..).trans hco) hne (.const true)
  rw [hshifter, hbit, Level.eval, see_rising hlow] at hrise
  have hfall := echoes_write_clk hrise hc (by simpa only [calmRun_lineOk] using hco) hne (.const false)
  rw [Level.eval, see_falling] at hfall
  have hround : calmRun (shiftOutRound d c nbits order) s =
      doInternal .main (.advance order nbits) (calmRun (writeThrough c (.const false)) (calmRun (writeThrough c (.const true))
        (calmRun (writeThrough d .dataBit) s))) := by
    simp only [shiftOutRound, pulseThrough, calmRun_append, Bool.not_true, calmRun]
  rw [hround]
  have hlast : ({ e.append .main (Level.dataBit.eval (s.seq .main)) with lastClk := false } : Echo) =
      e.append .main (Level.dataBit.eval (s.seq .main)) := by
    rw [← hlow]; rfl
  rw [← hlast]
  exact echoes_doInternal hfall _

theorem progress_advance (order : BitOrder) (nbits : Nat) (s : State) :
    ((doInternal .main (.advance order nbits) s).seq .main).progress =
      ((s.seq .main).progress.1, (s.seq .main).progress.2.1, nextMask order nbits (s.seq .main).progress.2.2) := by
  rw [doInternal, seq_updSeq]; rfl

/-- The sequencer one round of SHIFT.OUT on. -/
theorem progress_shiftOutRound (d c : PinHandle) (nbits : Nat) (order : BitOrder) (s : State) :
    ((calmRun (shiftOutRound d c nbits order) s).seq .main).progress =
      ((s.seq .main).cmd, (s.seq .main).val, nextMask order nbits (s.seq .main).smask) := by
  have huops (n : Internal) : .int n ∉ writeThrough d .dataBit ++ pulseThrough c true := by
    simp only [pulseThrough, List.mem_append, not_or]
    exact ⟨int_notMem_writeThrough _ _ n, int_notMem_writeThrough _ _ n, int_notMem_writeThrough _ _ n⟩
  rw [shiftOutRound, calmRun_append, calmRun, calmRun, progress_advance, progress_calmRun huops]
  rfl

/-- The rounds of SHIFT.OUT append the bits of VAL in the order they are sent. -/
theorem echoes_shiftOutRounds {s : State} {e : Echo} {d c : PinHandle} {nbits : Nat} {order : BitOrder} {k : Nat}
    {value : Word} (hs : s.echoes e) (hd : d.plainOn e.dout) (hc : c.plainOn e.clk) (hdo : s.lineOk d = true)
    (hco : s.lineOk c = true) (hne : e.dout ≠ e.clk) (hlow : e.lastClk = false)
    (hq : (s.seq .main).progress = (.shiftOut k value, truncAcc nbits value, initialMask order nbits)) (hn : nbits ≤ 32)
    {i : Nat} (hi : i ≤ nbits) :
    ((calmRun (repeatActs i (shiftOutRound d c nbits order)) s).seq .main).progress =
        (.shiftOut k value, truncAcc nbits value, (nextMask order nbits)^[i] (initialMask order nbits)) ∧
      (calmRun (repeatActs i (shiftOutRound d c nbits order)) s).echoes
        (e.appended (sentBits order nbits value i)) := by
  induction i with
  | zero => exact ⟨hq, hs⟩
  | succ i ih =>
    obtain ⟨hprogress, hechoes⟩ := ih (by omega)
    have hcmd := congrArg Prod.fst hprogress
    have hval := congrArg (·.2.1) hprogress
    have hmask := congrArg (·.2.2) hprogress
    dsimp only [Seq.progress] at hcmd hval hmask
    obtain ⟨hdout, hclk, -, hlast⟩ := appended_lines e (sentBits order nbits value i)
    have hround := echoes_shiftOutRound (nbits := nbits) (order := order) hechoes (by rwa [hdout]) (by rwa [hclk])
      ((calmRun_lineOk ..).trans hdo) ((calmRun_lineOk ..).trans hco) (by rwa [hdout, hclk]) (hlast.trans hlow) hcmd
    rw [Level.eval, hval, hmask, iterate_nextMask order hn hi, truncAcc_and_bitMask order hn hi, ← appended_concat]
      at hround
    rw [repeatActs_succ_right, calmRun_append, progress_shiftOutRound, hcmd, hval, hmask, Function.iterate_succ_apply',
      sentBits_succ]
    exact ⟨rfl, hround⟩

/-! ### The bits a SHIFT.IN is answered (R90, R195) -/

/-- The pad that an echo answers on shows the bit it answers. -/
theorem padLevel_din {s : State} {e : Echo} (hs : s.echoes e) (hf : s.foreignSeq = none) {k : Nat}
    (hcmd : (s.seq .main).cmd = .shiftIn k) (hbit : e.din.bit < s.width.bits) {b : Bool}
    (hb : e.main.toCome.head? = some b) : s.padLevel e.din = b := by
  have hshifting : Seq.shiftingIn s.mainSeq = true := by
    cases hm : s.mainSeq with
    | none => rw [State.seq, hm] at hcmd; cases hcmd
    | some q =>
      rw [State.seq, hm] at hcmd
      simp only [Option.getD_some] at hcmd
      simp [Seq.shiftingIn, hcmd]
  have hanswer : e.answer s = some b := by
    simp [Echo.answer, State.atWork, hf, hshifting, hb]
  have h32 : e.din.bit < 32 := lt_of_lt_of_le hbit (Width.bits_le _)
  rw [padLevel_undriven s _ hs.din, State.extWord, hs.devices]
  simp [-BitVec.getLsbD_eq_getElem, overlay, Device.drives, hanswer, withBit_getLsbD, h32, hbit]

/-- The main context's SHIFT.IN has sampled the data-in line: the next sample returns the next bit (R90). -/
def Echo.popped (e : Echo) : Echo := e.setSide .main { e.main with toCome := e.main.toCome.tail }

/-- A sample of the data-in line takes the bit answered off the echo. -/
theorem echoes_sample {s : State} {e : Echo} (hs : s.echoes e) {k : Nat} (hcmd : (s.seq .main).cmd = .shiftIn k) :
    (doUop .main (.sample e.din.port .input e.din.bit false) s).echoes e.popped := by
  have hshifting : Seq.shiftingIn (some (s.seq .main)) = true := by simp [Seq.shiftingIn, hcmd]
  have hdev : (applyUop .main (.sample e.din.port .input e.din.bit false) s).devices = [.echo e.popped] := by
    simp only [applyUop, sample, hshifting, decide_true, Bool.and_self, if_true, updSeq_devices, hs.devices]
    simp [Device.onSample, Echo.side, Echo.popped]
  exact echoes_observe_again (echoes_setSide hs (by simp [applyUop]) (by simp [applyUop]) ((updSeq_devices ..).trans hdev)) _

/-- A read through the Input handle on the data-in line takes the bit answered off the echo. -/
theorem echoes_readThrough {s : State} {e : Echo} (hs : s.echoes e) {k : Nat} (hcmd : (s.seq .main).cmd = .shiftIn k)
    {d : PinHandle} (hd : d.isOutput = false) (hpin : d.pin = .pin e.din.port e.din.bit) :
    (calmRun (readThrough d) s).echoes e.popped := by
  obtain ⟨kind, pin⟩ := d
  obtain rfl : pin = _ := hpin
  cases kind with
  | output dyn inv => cases hd
  | input pullup => exact echoes_sample (echoes_calmBoundary hs) (by rwa [calmBoundary_seq])

/-- Whatever lines a SHIFT.IN drives, it appends nothing and takes nothing off by that. -/
theorem echoes_writeThrough_of_shiftIn {s : State} {e : Echo} (hs : s.echoes e) {k : Nat}
    (hcmd : (s.seq .main).cmd = .shiftIn k) {h : PinHandle} (ho : s.lineOk h = true) (v : Level) :
    ∃ e', (calmRun (writeThrough h v) s).echoes e' ∧ e'.din = e.din ∧ e'.main = e.main := by
  have hseen := echoes_writeThrough hs ho v
  rw [shifter_of_shiftIn hcmd] at hseen
  exact ⟨_, hseen, rfl, rfl⟩

/-- One round of SHIFT.IN takes one bit off the echo. -/
theorem echoes_shiftInRound {s : State} {e : Echo} (hs : s.echoes e) {k : Nat} (hcmd : (s.seq .main).cmd = .shiftIn k)
    {d c : PinHandle} (hd : d.isOutput = false) (hpin : d.pin = .pin e.din.port e.din.bit) (hco : s.lineOk c = true)
    (nbits : Nat) (order : BitOrder) :
    ∃ e', (calmRun (shiftInRound d c nbits order) s).echoes e' ∧ e'.din = e.din ∧
      e'.main.toCome = e.main.toCome.tail := by
  obtain ⟨e1, hhigh, hdin1, hmain1⟩ := echoes_writeThrough_of_shiftIn hs hcmd hco (.const true)
  have hread := echoes_readThrough hhigh ((cmd_calmRun ..).trans hcmd) hd (by rw [hdin1]; exact hpin)
  have hacc := echoes_doInternal hread .accumulate
  rw [← calmRun_append] at hacc
  obtain ⟨e2, hlow, hdin2, hmain2⟩ := echoes_writeThrough_of_shiftIn
    (s := calmRun (writeThrough c (.const true) ++ readThrough d ++ [.int .accumulate]) s)
    (by rw [calmRun_append]; exact hacc) ((cmd_calmRun ..).trans hcmd) ((calmRun_lineOk ..).trans hco) (.const false)
  rw [← calmRun_append] at hlow
  refine ⟨e2, ?_, hdin2.trans hdin1, ?_⟩
  · rw [shiftInRound, calmRun_append]
    exact echoes_doInternal hlow (.advance order nbits)
  · rw [hmain2, ← hmain1]; rfl

/-- The rounds of SHIFT.IN leave to come what they have not taken. -/
theorem echoes_atRound {s : State} {e : Echo} (hs : s.echoes e) {k : Nat} (hcmd : (s.seq .main).cmd = .shiftIn k)
    {d c : PinHandle} (hd : d.isOutput = false) (hpin : d.pin = .pin e.din.port e.din.bit) (hco : s.lineOk c = true)
    (nbits : Nat) (order : BitOrder) (i : Nat) :
    ∃ e', (s.atRound d c nbits order i).echoes e' ∧ e'.din = e.din ∧ e'.main.toCome = e.main.toCome.drop i := by
  induction i with
  | zero => exact ⟨e, hs, rfl, rfl⟩
  | succ i ih =>
    obtain ⟨e', hechoes, hdin, hcome⟩ := ih
    obtain ⟨e'', hechoes', hdin', hcome'⟩ := echoes_shiftInRound hechoes ((cmd_calmRun ..).trans hcmd) hd
      (by rw [hdin]; exact hpin) ((calmRun_lineOk ..).trans hco) nbits order
    exact ⟨e'', by rwa [atRound_succ], hdin'.trans hdin, by rw [hcome', hcome, List.tail_drop]⟩

/-- Sample `i` of a SHIFT.IN on an echo is the bit it answers `i`-th. -/
theorem sampleOf_of_echoes {s : State} {e : Echo} (hs : s.echoes e) (hf : s.foreignSeq = none) {k : Nat}
    (hcmd : (s.seq .main).cmd = .shiftIn k) {d c : PinHandle} (hd : d.isOutput = false)
    (hpin : d.pin = .pin e.din.port e.din.bit) (hbit : e.din.bit < s.width.bits) (hco : s.lineOk c = true)
    (nbits : Nat) (order : BitOrder) {i : Nat} {b : Bool} (hb : e.main.toCome[i]? = some b) :
    s.sampleOf d c nbits order i = b := by
  obtain ⟨e', hechoes, hdin, hcome⟩ := echoes_atRound hs hcmd hd hpin hco nbits order i
  obtain ⟨e'', hsample, hdin', hmain⟩ := echoes_writeThrough_of_shiftIn hechoes ((cmd_calmRun ..).trans hcmd)
    ((calmRun_lineOk ..).trans hco) (.const true)
  have hlevel := padLevel_din (echoes_calmBoundary hsample) (k := k) (b := b)
    (by rw [calmBoundary_foreignSeq, calmRun_foreignSeq, State.atRound, calmRun_foreignSeq, hf])
    (by rw [calmBoundary_seq, cmd_calmRun, State.atRound, cmd_calmRun, hcmd])
    (by rwa [calmBoundary_width, calmRun_width, State.atRound, calmRun_width, hdin', hdin])
    (by rw [hmain, hcome, List.head?_drop, hb])
  rw [hdin', hdin] at hlevel
  rw [State.sampleOf, State.sensed, hpin]
  exact hlevel

end Sys2Proof.Machine
end

