-- ==== Sys2Proof/Proofs/EchoRoundTrip.lean ====
section
/-!
PROOFS. The echo round trip (R90, R202): what a whole SHIFT.OUT leaves in an echo on its lines, and what the SHIFT.IN after it
answers.
-/

namespace Sys2Proof.Machine

open Sys2Proof

/-! ### Acceptance (R90) -/

/-- The main context's SHIFT.OUT has yet to append its first bit. -/
def Echo.awaiting (e : Echo) : Echo := e.setSide .main { e.main with fresh := true }

/-- The main context's SHIFT.IN is to return the bits of the SHIFT.OUT that appended the newest one. -/
def Echo.answering (e : Echo) : Echo := e.setSide .main { e.main with toCome := (e.side e.newest).sent }

/-- The devices of a command just accepted have taken note of it. -/
theorem accept_devices (c : Ctx) (i : Instr) (s : State) :
    (accept c i .nothing s).devices = s.devices.map (Device.onAccept c i) := by
  rw [accept, applyBind]
  simp only [setSeq_devices]

theorem echoes_accept_shiftOut {s : State} {e : Echo} (hs : s.echoes e) (k : Nat) (value : Word) :
    (accept .main (.shiftOut k value) .nothing s).echoes e.awaiting :=
  echoes_setSide hs (by simp [accept, applyBind]) (by simp [accept, applyBind]) (by rw [accept_devices, hs.devices]; rfl)

theorem echoes_accept_shiftIn {s : State} {e : Echo} (hs : s.echoes e) (k : Nat) :
    (accept .main (.shiftIn k) .nothing s).echoes e.answering :=
  echoes_setSide hs (by simp [accept, applyBind]) (by simp [accept, applyBind]) (by rw [accept_devices, hs.devices]; rfl)

/-! ### SHIFT.OUT on an echo (R197) -/

/-- A SHIFT.OUT just accepted, as its first round finds it. -/
def State.shiftOutStart (s : State) (k : Nat) (value : Word) (h : Shifter) : State :=
  calmRun [.int (.loadVal h.nbits), .int (.initMask h.order h.nbits)] (accept .main (.shiftOut k value) .nothing s)

theorem progress_shiftOutStart (s : State) (k : Nat) (value : Word) (h : Shifter) :
    ((s.shiftOutStart k value h).seq .main).progress =
      (.shiftOut k value, truncAcc h.nbits value, initialMask h.order h.nbits) := rfl

/-- SHIFT.OUT on an echo's lines leaves the bits it sent in the echo, in the order it sent them. -/
theorem echoes_shiftOut {s : State} {e : Echo} {k : Nat} {value : Word} {h : Shifter} {d c : PinHandle}
    (hs : s.calm = true) (hechoes : s.echoes e) (hlow : e.lastClk = false) (hunit : s.unit h d c)
    (hslot : s.shiftSlot k = some h) (hmode : h.mode = .shiftOut) (hdata : s.pinSlot h.data = some d)
    (hclk : s.pinSlot h.clk = some c) (hd : d.plainOn e.dout) (hc : c.plainOn e.clk) (hne : e.dout ≠ e.clk) :
    ∃ t e', exec (.shiftOut k value) s = .next t ∧ t.echoes e' ∧ e'.din = e.din ∧ e'.newest = .main ∧
      e'.main.sent = sentBits h.order h.nbits value h.nbits := by
  have hdo : s.lineOk d = true := lineOk_of_isOutput (by rw [hunit.data, hmode]; rfl) hunit.dataPin
  have hbits : sentBits h.order h.nbits value h.nbits ≠ [] := by
    rw [sentBits, ne_eq, List.map_eq_nil_iff, List.range_eq_nil]
    exact Nat.one_le_iff_ne_zero.mp hunit.one_le
  have hstart : (s.shiftOutStart k value h).echoes e.awaiting :=
    echoes_doInternal (echoes_doInternal (echoes_accept_shiftOut hechoes k value) (.loadVal h.nbits))
      (.initMask h.order h.nbits)
  have hline (g : PinHandle) : (s.shiftOutStart k value h).lineOk g = s.lineOk g :=
    (calmRun_lineOk ..).trans (accept_lineOk ..)
  obtain ⟨-, hrounds⟩ := echoes_shiftOutRounds (nbits := h.nbits) (order := h.order) hstart hd hc
    ((hline d).trans hdo) ((hline c).trans hunit.clock) hne hlow (progress_shiftOutStart s k value h) hunit.le le_rfl
  obtain ⟨hnewest, hsent⟩ := appended_sent e.awaiting hbits
  rw [State.shiftOutStart, ← calmRun_append] at hrounds
  refine ⟨_, _, exec_eq_calmRun hs (planOf_shiftOut value hslot hmode hdata hclk) (sectioned_shiftOutActs ..),
    echoes_of_ports hrounds rfl rfl rfl, ?_, hnewest, hsent⟩
  obtain ⟨-, -, hdin, -⟩ := appended_lines e.awaiting (sentBits h.order h.nbits value h.nbits)
  exact hdin.trans (setSide_din ..)

/-! ### SHIFT.IN after it (R195) -/

theorem cmd_shiftInStart (s : State) (k : Nat) (h : Shifter) : ((s.shiftInStart k h).seq .main).cmd = .shiftIn k := rfl

/-- A SHIFT.IN of no more bits than the echo's latest SHIFT.OUT samples the bits that sent, in the order it sent them. -/
theorem sampleOf_shiftIn {s : State} {e : Echo} {k : Nat} {h : Shifter} {d c : PinHandle} (hechoes : s.echoes e)
    (hidle : s.idle = true) (hunit : s.unit h d c) (hmode : h.mode = .shiftIn)
    (hpin : d.pin = .pin e.din.port e.din.bit) (hnewest : e.newest = .main) {i : Nat} {b : Bool}
    (hb : e.main.sent[i]? = some b) : (s.shiftInStart k h).sampleOf d c h.nbits h.order i = b := by
  have hd : d.isOutput = false := by rw [hunit.data, hmode]; rfl
  have hwidth : (s.shiftInStart k h).width = s.width := by
    rw [← apart_width, apart_shiftInStart, setSeq_width, apart_width]
  obtain ⟨-, hforeign⟩ := (idle_iff s).mp hidle
  have hok := hunit.dataPin
  rw [hpin, pinOk_pin_iff] at hok
  obtain ⟨-, hbit⟩ := hok
  have hstart : (s.shiftInStart k h).echoes e.answering :=
    echoes_doInternal (echoes_doInternal (echoes_accept_shiftIn hechoes k) .clearAcc) (.initMask h.order h.nbits)
  refine sampleOf_of_echoes hstart ((calmRun_foreignSeq ..).trans hforeign) (cmd_shiftInStart s k h) hd hpin
    (by rw [hwidth]; exact hbit) ((lineOk_shiftInStart ..).trans hunit.clock) h.nbits h.order ?_
  rw [Echo.answering, hnewest]
  exact hb

/-- A SHIFT.OUT at a calm, well-formed state between two commands leaves one, with every valid slot as it was. -/
theorem shiftOut_keeps {s t : State} {k : Nat} {value : Word} (hwf : s.wf = true) (hs : s.calm = true)
    (hidle : s.idle = true) (ht : exec (.shiftOut k value) s = .next t) :
    t.wf = true ∧ t.calm = true ∧ t.idle = true ∧ s.slotsKept t := by
  obtain ⟨t1, ht1, hwf'⟩ := exec_kept_of_noReset wf_kept (.shiftOut k value) s (calm_noReset hs)
  obtain ⟨t2, ht2, hslots⟩ := exec_kept_of_noReset slotsKept_kept (.shiftOut k value) s (calm_noReset hs)
  obtain ⟨t3, ht3, hidle'⟩ := exec_idle (.shiftOut k value) ((idle_iff s).mp hidle)
  obtain rfl := Host.Outcome.next.inj (ht1.symm.trans ht)
  obtain rfl := Host.Outcome.next.inj (ht2.symm.trans ht)
  obtain rfl := Host.Outcome.next.inj (ht3.symm.trans ht)
  exact ⟨hwf' hwf, calm_exec hs (planOf_keepsDir (i := .shiftOut k value) s rfl (by simp)) ht, hidle', hslots⟩

/-- Settles O38: the SHIFT.IN gathers in the positions of its own order the bits the SHIFT.OUT sent in the order of its. -/
theorem echoRoundTrip : Obligations.EchoRoundTrip := by
  intro s t ko ki value ho hi d c di ci e hwf hs hidle hdev hoslot homode hodata hoclk hislot himode hidata hiclk hn
    hd hc hne hpin hdout hclk hdin hclkLow hlow ht
  have hechoes : s.echoes e := ⟨hdev, hdout, hclk, hdin, hlow.trans hclkLow.symm⟩
  obtain ⟨t', e', ht', hechoes', hdin', hnewest, hsent⟩ := echoes_shiftOut (value := value) hs hechoes hlow
    (unit_of_wf hwf hoslot hodata hoclk) hoslot homode hodata hoclk hd hc hne
  obtain rfl := Host.Outcome.next.inj (ht'.symm.trans ht)
  obtain ⟨hwf', hs', hidle', hslots⟩ := shiftOut_keeps hwf hs hidle ht
  have hunit := unit_of_wf hwf' (hslots.shift _ _ hislot) (hslots.pin _ _ hidata) (hslots.pin _ _ hiclk)
  obtain ⟨u, hu, hapart⟩ := exec_shiftIn hs' hunit (hslots.shift _ _ hislot) himode (hslots.pin _ _ hidata)
    (hslots.pin _ _ hiclk)
  have hsample (i : Nat) (hlt : i < hi.nbits) :
      (t'.shiftInStart ki hi).sampleOf di ci hi.nbits hi.order i = value.getLsbD (bitPos ho.order hi.nbits i) := by
    refine sampleOf_shiftIn hechoes' hidle' hunit himode (by rw [hdin', hpin]) hnewest ?_
    rw [hsent, hn]
    exact sentBits_getElem? _ _ _ hlt
  refine ⟨u, _, hu, by rw [State.answered, ← apart_mainResp, hapart]; rfl, gathered_and_ones hi.order hunit.le _,
    fun heq => ?_, fun hord j hj => gathered_of_other_order hord hunit.le hsample hj⟩
  rw [heq] at hsample
  exact gathered_of_same_order hunit.le hsample

end Sys2Proof.Machine
end

