-- ==== Sys2Proof/Proofs/ChipCommands.lean ====
section
/-!
PROOFS. The Chip Driver commands (R210 to R218): what each one leaves on its lines, and that it changes nothing but what its
rule says.
-/

namespace Sys2Proof.Machine

open Sys2Proof

/-! ### A Chip Driver's unit and its handles (R211, R212) -/

/-- A valid Chip Driver slot of a well-formed state names a shift-out unit and two Outputs (R211). -/
theorem chipOk_of_wf {s : State} {k : Nat} {g : ChipDriver} (hwf : s.wf = true) (hslot : s.chipSlot k = some g) :
    s.shiftOutSlot g.sh = true ∧ s.outputSlot g.latch = true ∧ s.outputSlot g.oe = true := by
  obtain ⟨-, hv⟩ := (wf_iff s).mp hwf
  simpa [State.chipOk, and_assoc] using hv.chip k g hslot

theorem isOutput_of_outputSlot {s : State} {k : Nat} {h : PinHandle} (hok : s.outputSlot k = true)
    (hslot : s.pinSlot k = some h) : h.isOutput = true := by
  simpa [State.outputSlot, hslot] using hok

theorem mode_of_shiftOutSlot {s : State} {k : Nat} {h : Shifter} (hok : s.shiftOutSlot k = true)
    (hslot : s.shiftSlot k = some h) : h.mode = .shiftOut := by
  simpa [State.shiftOutSlot, hslot] using hok

/-- A valid Output handle of a well-formed state has a line, or is a no-pin handle (R172, R175). -/
theorem lineOk_of_pinSlot {s : State} {k : Nat} {h : PinHandle} (hwf : s.wf = true) (hslot : s.pinSlot k = some h)
    (ho : h.isOutput = true) : s.lineOk h = true := by
  obtain ⟨-, hv⟩ := (wf_iff s).mp hwf
  exact lineOk_of_isOutput ho (hv.pin k h hslot)

/-- What a valid Chip Driver slot of a well-formed state names. -/
structure State.driver (s : State) (h : Shifter) (d c l : PinHandle) : Prop where
  mode : h.mode = .shiftOut
  data : s.lineOk d = true
  clock : s.lineOk c = true
  latch : s.lineOk l = true
  one_le : 1 ≤ h.nbits
  le : h.nbits ≤ 32

theorem driver_of_wf {s : State} {k : Nat} {g : ChipDriver} {h : Shifter} {d c l : PinHandle} (hwf : s.wf = true)
    (hchip : s.chipSlot k = some g) (hslot : s.shiftSlot g.sh = some h) (hdata : s.pinSlot h.data = some d)
    (hclk : s.pinSlot h.clk = some c) (hlatch : s.pinSlot g.latch = some l) : s.driver h d c l := by
  have hunit := unit_of_wf hwf hslot hdata hclk
  obtain ⟨hsh, hl, -⟩ := chipOk_of_wf hwf hchip
  have hmode := mode_of_shiftOutSlot hsh hslot
  have hd : d.isOutput = true := by rw [hunit.data, hmode]; rfl
  exact ⟨hmode, lineOk_of_isOutput hd hunit.dataPin, hunit.clock,
    lineOk_of_pinSlot hwf hlatch (isOutput_of_outputSlot hl hlatch), hunit.one_le, hunit.le⟩

/-! ### The commands that write through the output-enable handle (R211, R214, R215) -/

/-- A calm command that binds what it binds and then writes one value through a valid Output handle. -/
theorem exec_of_writeThrough {i : Instr} {s : State} {b : Bind} {h : PinHandle} {v : Bool} (hs : s.calm = true)
    (hp : planOf i s = .run { bind := b, acts := writeThrough h (.const v) }) (ho : s.lineOk h = true) :
    ∃ t, exec i s = .next t ∧ t.apart = ((applyBind b s.apart).driven h v).doneWith 0 := by
  obtain ⟨q, hacts⟩ := actsApart_writeThrough_any h (.const v) (a := acceptApart i b s) (by simpa using ho)
  rw [acceptApart, setSeq_driven, setSeq_setSeq] at hacts
  exact exec_of_actsApart hs hp (sectioned_writeThrough ..) (readsNoPad_writeThrough _ _) hacts

theorem planOf_chipCfg {s : State} {k shifter latchh oeh : Nat} (initEn : Bool) {sh : Shifter} {l oe : PinHandle}
    (hk : k < s.ch.length) (hfree : s.chipSlot k = none) (hslot : s.shiftSlot shifter = some sh)
    (hmode : sh.mode = .shiftOut) (hlatch : s.pinSlot latchh = some l) (hl : l.isOutput = true)
    (hoe : s.pinSlot oeh = some oe) (ho : oe.isOutput = true) :
    planOf (.chipCfg k shifter latchh oeh initEn) s =
      .run
        { bind := .ch k { sh := shifter, latch := latchh, oe := oeh }
          acts := writeThrough oe (.const initEn) } := by
  simp [planOf, planChipCfg, checked, State.shiftOutSlot, State.outputSlot, freeSlot_of_join hk hfree, hslot, hmode,
    hlatch, hl, hoe, ho]

/-- Settles O40. -/
theorem chipCfgAppliesTheEnableState : Obligations.ChipCfgAppliesTheEnableState := by
  intro s k shifter latchh oeh initEn sh l oe hwf hs hk hfree hslot hmode hlatch hl hoe ho
  exact exec_of_writeThrough hs (planOf_chipCfg initEn hk hfree hslot hmode hlatch hl hoe ho)
    (lineOk_of_pinSlot hwf hoe ho)

theorem chipEnableTo_of_slot {s : State} {k : Nat} {g : ChipDriver} {oe : PinHandle} (v : Bool)
    (hchip : s.chipSlot k = some g) (hoe : s.pinSlot g.oe = some oe) :
    chipEnableTo k v s = .run { acts := writeThrough oe (.const v) } := by
  simp [chipEnableTo, hchip, hoe]

/-- Settles O43. -/
theorem chipEnableDrivesItsLine : Obligations.ChipEnableDrivesItsLine := by
  intro s k g oe hwf hs hchip hoe
  obtain ⟨-, -, hout⟩ := chipOk_of_wf hwf hchip
  have hline := lineOk_of_pinSlot hwf hoe (isOutput_of_outputSlot hout hoe)
  exact ⟨exec_of_writeThrough (b := .nothing) hs (chipEnableTo_of_slot true hchip hoe) hline,
    exec_of_writeThrough (b := .nothing) hs (chipEnableTo_of_slot false hchip hoe) hline⟩

/-! ### CHIP.WRITE (R213) -/

theorem planOf_chipWrite {s : State} {k : Nat} {g : ChipDriver} {h : Shifter} {d c l : PinHandle} (value : Word)
    (hmode : h.mode = .shiftOut) (hchip : s.chipSlot k = some g) (hslot : s.shiftSlot g.sh = some h)
    (hdata : s.pinSlot h.data = some d) (hclk : s.pinSlot h.clk = some c) (hlatch : s.pinSlot g.latch = some l) :
    planOf (.chipWrite k value) s = .run { acts := shiftOutActs d c h.nbits h.order ++ pulseThrough l true } := by
  simp [planOf, planChipWrite, withShifter, checked, hchip, hslot, hmode, hdata, hclk, hlatch]

theorem sectioned_chipWrite (d c l : PinHandle) (nbits : Nat) (order : BitOrder) :
    Sectioned (shiftOutActs d c nbits order ++ pulseThrough l true) :=
  (sectioned_shiftOutActs ..).append (sectioned_pulseThrough ..)

/-- Settles O41: the lines of a whole SHIFT.OUT, then the pulse of the latch line. -/
theorem chipWriteLeavesItsLines : Obligations.ChipWriteLeavesItsLines := by
  intro s k value g h d c l hwf hs hchip hslot hdata hclk hlatch
  have hdriver := driver_of_wf hwf hchip hslot hdata hclk hlatch
  obtain ⟨q, hshift⟩ := actsApart_shiftOutActs h.order (a := acceptApart (.chipWrite k value) .nothing s)
    (q := Seq.accepted s.now (.chipWrite k value)) rfl (by simpa using hdriver.data) (by simpa using hdriver.clock)
    hdriver.one_le hdriver.le
  obtain ⟨q', hpulse⟩ := actsApart_pulseThrough_any l true (a := actsApart (shiftOutActs d c h.nbits h.order) _)
    (by rw [hshift]; simpa using hdriver.latch)
  rw [← actsApart_append, hshift] at hpulse
  simp only [acceptApart, setSeq_driven, setSeq_setSeq] at hpulse
  exact exec_of_actsApart hs (planOf_chipWrite value hdriver.mode hchip hslot hdata hclk hlatch) (sectioned_chipWrite ..)
    (readsNoPad_append (readsNoPad_shiftOutActs _ _ _ _) (readsNoPad_pulseThrough _ _)) hpulse

/-! ### A driver without lines (R178, R201, R218) -/

/-- Actions none of which is a micro-operation. -/
def NoUop (acts : List Act) : Prop := ∀ u, .uop u ∉ acts

theorem noUop_append {xs ys : List Act} (hx : NoUop xs) (hy : NoUop ys) : NoUop (xs ++ ys) := fun u hu =>
  (List.mem_append.mp hu).elim (hx u) (hy u)

theorem noUop_repeatActs {acts : List Act} (h : NoUop acts) (n : Nat) : NoUop (repeatActs n acts) := by
  induction n with
  | zero => exact fun u hu => nomatch hu
  | succ n ih => exact noUop_append h ih

/-- A CHIP.WRITE on no-pin handles only moves its mask. -/
theorem noUop_chipWrite {d c l : PinHandle} (hd : d.pin = .noPin) (hc : c.pin = .noPin) (hl : l.pin = .noPin) (nbits : Nat)
    (order : BitOrder) : NoUop (shiftOutActs d c nbits order ++ pulseThrough l true) := by
  have hround : NoUop (shiftOutRound d c nbits order) := by
    simp [shiftOutRound, pulseThrough, writeThrough_of_noPin hd, writeThrough_of_noPin hc, NoUop]
  have hlatch : NoUop (pulseThrough l true) := by simp [pulseThrough, writeThrough_of_noPin hl, NoUop]
  exact noUop_append (noUop_append (by simp [NoUop]) (noUop_repeatActs hround nbits)) hlatch

/-- Without a micro-operation there is no boundary, and nothing but the sequencer changes (R75). -/
theorem runActs_of_noUop {acts : List Act} (h : NoUop acts) (c : Ctx) (hook : State → Flow) (s : State) (q : Seq) :
    ∃ q', runActs c hook acts (s.setSeq c (some q)) = .live (s.setSeq c (some q')) := by
  induction acts generalizing q with
  | nil => exact ⟨q, rfl⟩
  | cons x acts ih =>
    cases x with
    | uop u => exact absurd List.mem_cons_self (h u)
    | int n =>
      rw [runActs, doInternal, State.updSeq, setSeq_setSeq]
      exact ih (fun u hu => h u (List.mem_cons_of_mem _ hu)) _

/-- A command without a micro-operation that binds nothing only responds, whatever the schedule (R74). -/
theorem exec_of_noUop {i : Instr} {s : State} {acts : List Act} (hp : planOf i s = .run { acts := acts })
    (hi : isShift i = false) (hacts : NoUop acts) : exec i s = .next (s.doneWith 0) := by
  obtain ⟨q, hrun⟩ := runActs_of_noUop hacts .main boundary s (Seq.accepted s.now i)
  have hacc : accept .main i .nothing s = s.setSeq .main (some (Seq.accepted s.now i)) :=
    accept_of_not_isShift .main .nothing s hi
  rw [← hacc] at hrun
  rw [exec_of_live hp hrun, finish_zero, doneWith_setSeq]

/-- Settles O44. -/
theorem noPinChipDoesNothing : Obligations.NoPinChipDoesNothing := by
  intro s k g h d c l oe hwf hchip hslot hdata hclk hlatch hoe hd hc hl hnone
  have hdriver := driver_of_wf hwf hchip hslot hdata hclk hlatch
  have henable (v : Bool) : NoUop (writeThrough oe (.const v)) := by simp [writeThrough_of_noPin hnone, NoUop]
  exact ⟨fun value => exec_of_noUop (planOf_chipWrite value hdriver.mode hchip hslot hdata hclk hlatch) rfl
      (noUop_chipWrite hd hc hl _ _),
    exec_of_noUop (chipEnableTo_of_slot true hchip hoe) rfl (henable true),
    exec_of_noUop (chipEnableTo_of_slot false hchip hoe) rfl (henable false)⟩

end Sys2Proof.Machine
end

