-- ==== Sys2Proof/Proofs/ChipLines.lean ====
section
/-!
PROOFS. The chip on the lines of a Chip Driver (R86 to R88, R213): what it sees of a write through a handle, the bits a shift
puts in its shift register, and the latch pulse after them.
-/

namespace Sys2Proof.Machine

open Sys2Proof

/-! ### What a chip sees (R87, R88) -/

/-- A chip's lines come to the levels `level`. -/
def Chip.seeing (x : Chip) (level : Pad → Bool) : Chip := x.see (level x.ser) (level x.srclk) (level x.rclk)

@[simp] theorem see_ser (x : Chip) (ser srclk rclk : Bool) : (x.see ser srclk rclk).ser = x.ser := by
  simp only [Chip.see, Chip.latch, Chip.shift]; split <;> split <;> split <;> rfl
@[simp] theorem see_srclk (x : Chip) (ser srclk rclk : Bool) : (x.see ser srclk rclk).srclk = x.srclk := by
  simp only [Chip.see, Chip.latch, Chip.shift]; split <;> split <;> split <;> rfl
@[simp] theorem see_rclk (x : Chip) (ser srclk rclk : Bool) : (x.see ser srclk rclk).rclk = x.rclk := by
  simp only [Chip.see, Chip.latch, Chip.shift]; split <;> split <;> split <;> rfl

/-- The chip `x` with its registers at `r` and `t` and its lines last seen at these levels. -/
def Chip.standing (x : Chip) (r t : List Bool) (ser srclk rclk : Bool) : Chip :=
  { x with sr := r, st := t, lastSer := ser, lastSrclk := srclk, lastRclk := rclk }

/-- The shift register behind one more shift (R87). -/
def Chip.shifted (x : Chip) (r : List Bool) (b : Bool) : List Bool := (b :: r).take x.stages

theorem eq_standing (x : Chip) : x = x.standing x.sr x.st x.lastSer x.lastSrclk x.lastRclk := rfl

theorem seeing_standing (x : Chip) (r t : List Bool) (ser srclk rclk : Bool) (level : Pad → Bool) :
    (x.standing r t ser srclk rclk).seeing level =
      (x.standing r t ser srclk rclk).see (level x.ser) (level x.srclk) (level x.rclk) := rfl

section Standing

variable (x : Chip) (r t : List Bool) (ser srclk rclk : Bool)

/-- Clock lines that stay where they are tell the chip only the level of its data line. -/
theorem see_still (ser' : Bool) :
    (x.standing r t ser srclk rclk).see ser' srclk rclk = x.standing r t ser' srclk rclk := by
  simp [Chip.see, Chip.standing]

/-- The rising shift clock takes in the level of a data line that stays, whichever level the chip takes where it moves
(R87). -/
theorem see_shift :
    (x.standing r t ser false rclk).see ser true rclk = x.standing (x.shifted r ser) t ser true rclk := by
  cases htakes : x.takesNewSer <;> simp [Chip.see, Chip.standing, Chip.shift, Chip.shifted, htakes]

/-- The rising storage clock copies the shift register (R88). -/
theorem see_latch : (x.standing r t ser srclk false).see ser srclk true = x.standing r r ser srclk true := by
  simp [Chip.see, Chip.standing, Chip.latch]

/-- Falling clocks do nothing (R87, R88). -/
theorem see_low : (x.standing r t ser srclk rclk).see ser false false = x.standing r t ser false false := by
  simp [Chip.see, Chip.standing]

end Standing

/-- A chip that sees the same levels again is told nothing. -/
theorem seeing_seeing (x : Chip) (level : Pad → Bool) : (x.seeing level).seeing level = x.seeing level := by
  simp only [Chip.seeing, see_ser, see_srclk, see_rclk]
  exact see_still (x.see (level x.ser) (level x.srclk) (level x.rclk)) _ _ _ _ _ _

/-! ### A pulse of one of its clocks -/

/-- A pulse of the line `clk`, the other lines at `level`. -/
def Chip.pulsed (x : Chip) (level : Pad → Bool) (clk : Pad) : Chip :=
  ((x.seeing level).seeing (Function.update level clk true)).seeing level

/-- A pulse of the shift clock shifts the level of the data line in (R87). -/
theorem pulsed_srclk {x : Chip} {level : Pad → Bool} (hs : level x.srclk = false) (hr : level x.rclk = false)
    (hser : x.ser ≠ x.srclk) (hclks : x.srclk ≠ x.rclk) (r t : List Bool) (b : Bool) :
    (x.standing r t b false false).pulsed level x.srclk =
      x.standing (x.shifted r (level x.ser)) t (level x.ser) false false := by
  simp only [Chip.pulsed, seeing_standing, hs, hr, see_still, Function.update_self, Function.update_of_ne hser,
    Function.update_of_ne hclks.symm, see_shift, see_low]

/-- A pulse of the storage clock copies the shift register (R88). -/
theorem pulsed_rclk {x : Chip} {level : Pad → Bool} (hs : level x.srclk = false) (hr : level x.rclk = false)
    (hser : x.ser ≠ x.rclk) (hclks : x.srclk ≠ x.rclk) (r t : List Bool) (b : Bool) :
    (x.standing r t b false false).pulsed level x.rclk = x.standing r r (level x.ser) false false := by
  simp only [Chip.pulsed, seeing_standing, hs, hr, see_still, Function.update_self, Function.update_of_ne hser,
    Function.update_of_ne hclks, see_latch, see_low]

/-! ### The bits shifted in (R87, R217) -/

/-- The shift register behind the shifts of `bits`, the first one first. -/
def Chip.filled (x : Chip) (r bits : List Bool) : List Bool := bits.foldl x.shifted r

theorem filled_concat (x : Chip) (r bits : List Bool) (b : Bool) :
    x.filled r (bits ++ [b]) = x.shifted (x.filled r bits) b := by
  rw [Chip.filled, List.foldl_append]; rfl

/-- What the stages have dropped does not come back. -/
theorem shifted_take (x : Chip) (r : List Bool) (b : Bool) : x.shifted (r.take x.stages) b = x.shifted r b := by
  rw [Chip.shifted, Chip.shifted]
  cases x.stages with
  | zero => rfl
  | succ n => rw [List.take_succ_cons, List.take_succ_cons, List.take_take, Nat.min_eq_left (Nat.le_succ n)]

/-- Once a bit is in, the register holds the bits, the last one in stage 0, before its former contents, cut to its stages. -/
theorem filled_eq (x : Chip) (r : List Bool) {bits : List Bool} (h : bits ≠ []) :
    x.filled r bits = (bits.reverse ++ r).take x.stages := by
  induction bits using List.reverseRecOn with
  | nil => exact absurd rfl h
  | append_singleton bits b ih =>
    have hcut : x.shifted (x.filled r bits) b = x.shifted (bits.reverse ++ r) b := by
      by_cases hbits : bits = []
      · rw [hbits]; rfl
      · rw [ih hbits, shifted_take]
    rw [filled_concat, hcut, List.reverse_append]
    rfl

/-- The bits of a shift, the last one sent first (R217). -/
theorem shiftedBits_eq_reverse (order : BitOrder) (nbits : Nat) (value : Word) :
    shiftedBits order nbits value = (sentBits order nbits value nbits).reverse := by
  apply List.ext_getElem
  · simp [shiftedBits, sentBits]
  · intro i _ _
    simp [-BitVec.getLsbD_eq_getElem, shiftedBits, sentBits]

/-! ### A chip on driven lines (R69, R86) -/

/-- Device `j` is the chip `x`, and the block drives the chip's lines. -/
structure State.attached (s : State) (j : Nat) (x : Chip) : Prop where
  device : s.devices[j]? = some (.chip x)
  ser : s.padOe x.ser = true
  srclk : s.padOe x.srclk = true
  rclk : s.padOe x.rclk = true

/-- Registers that stay leave the chip where it is. -/
theorem attached_of_ports {s t : State} {j : Nat} {x : Chip} (hs : s.attached j x) (hw : t.width = s.width)
    (hp : t.ports = s.ports) (hd : t.devices = s.devices) : t.attached j x where
  device := by rw [hd, hs.device]
  ser := by rw [padOe_of_dirReg (dirReg_of_ports hw hp), hs.ser]
  srclk := by rw [padOe_of_dirReg (dirReg_of_ports hw hp), hs.srclk]
  rclk := by rw [padOe_of_dirReg (dirReg_of_ports hw hp), hs.rclk]

/-- The chip sees its lines at the levels of their `OUT` bits (R62). -/
theorem attached_observe {s : State} {j : Nat} {x : Chip} (hs : s.attached j x) (c : Option Ctx) :
    (s.observe c).attached j (x.seeing s.padOut) where
  device := by
    rw [State.observe, List.getElem?_map, hs.device, Option.map_some, Device.see, padLevel_driven s _ hs.ser,
      padLevel_driven s _ hs.srclk, padLevel_driven s _ hs.rclk, Chip.seeing]
  ser := by rw [Chip.seeing, see_ser]; exact hs.ser
  srclk := by rw [Chip.seeing, see_srclk]; exact hs.srclk
  rclk := by rw [Chip.seeing, see_rclk]; exact hs.rclk

theorem attached_calmBoundary {s : State} {j : Nat} {x : Chip} (hs : s.attached j x) :
    (calmBoundary s).attached j (x.seeing s.padOut) := by
  have hlater : (elapse s).attached j (x.seeing s.padOut) :=
    attached_observe (s := { s with now := s.now + 1, ext := s.ext.tail, resets := s.resets.tail })
      (attached_of_ports hs rfl rfl rfl) none
  refine attached_of_ports hlater (calmBoundary_width s) ?_ (calmBoundary_devices s)
  rw [← apart_ports, apart_calmBoundary]; rfl

/-- A micro-operation that neither reads a pad nor writes `DIR` shows the chip the lines it leaves. -/
theorem attached_doUop {s : State} {j : Nat} {x : Chip} (hs : s.attached j x) {u : Uop} (hpad : u.readsPad = false)
    (hdir : u.sparesDir = true) : (doUop .main u s).attached j (x.seeing (doUop .main u s).padOut) := by
  have hoe := padOe_of_dirReg (dirReg_doUop .main hdir s)
  have hbefore : ((applyUop .main u s).updSeq .main fun q => { q with pos := q.pos + 1 }).attached j x :=
    ⟨by rw [updSeq_devices, applyUop_devices_of_readsPad hpad, hs.device], (congrFun hoe _).trans hs.ser,
      (congrFun hoe _).trans hs.srclk, (congrFun hoe _).trans hs.rclk⟩
  exact attached_observe hbefore _

/-- A micro-operation that leaves the lines, with the boundary before it, shows the chip where its lines stand. -/
theorem attached_doUop_of_ports {s : State} {j : Nat} {x : Chip} (hs : s.attached j x) {u : Uop} (hpad : u.readsPad = false)
    (hdir : u.sparesDir = true) (hp : (doUop .main u (calmBoundary s)).ports = (calmBoundary s).ports) :
    (doUop .main u (calmBoundary s)).attached j (x.seeing s.padOut) ∧
      (doUop .main u (calmBoundary s)).padOut = s.padOut := by
  have hout : (doUop .main u (calmBoundary s)).padOut = s.padOut :=
    (padOut_of_ports (doUop_width ..) hp).trans (padOut_calmBoundary s)
  have hseen := attached_doUop (attached_calmBoundary hs) hpad hdir
  rw [hout, seeing_seeing] at hseen
  exact ⟨hseen, hout⟩

/-- A write through a handle on a pin shows the chip its lines twice: as they stood, and as the write leaves them. -/
theorem attached_writeThrough {s : State} {j : Nat} {x : Chip} (hs : s.attached j x) {h : PinHandle} {line : Pad}
    (hp : h.plainOn line) (v : Level) :
    (calmRun (writeThrough h v) s).attached j ((x.seeing s.padOut).seeing (calmRun (writeThrough h v) s).padOut) := by
  obtain ⟨kind, pin⟩ := h
  obtain ⟨rfl, hkind⟩ : pin = .pin line.port line.bit ∧ _ := hp
  rcases hkind with rfl | rfl
  · exact attached_doUop (attached_calmBoundary hs) rfl rfl
  · obtain ⟨hacq, houtAcq⟩ := attached_doUop_of_ports hs (u := .acq) rfl rfl (by simp [doUop, applyUop])
    obtain ⟨hread, houtRead⟩ := attached_doUop_of_ports hacq (u := .regRead line.port .output) rfl rfl
      (by simp [doUop, applyUop])
    have hwrite := attached_doUop (attached_calmBoundary hread) (u := .regWrite line.port .output (.tmpBit line.bit v false))
      rfl rfl
    obtain ⟨hrel, houtRel⟩ := attached_doUop_of_ports hwrite (u := .rel) rfl rfl (by simp [doUop, applyUop])
    rw [houtRead, houtAcq, seeing_seeing, seeing_seeing, seeing_seeing, ← houtRel] at hrel
    exact hrel

/-- The lines behind a write through a plain handle (R175). -/
theorem padOut_writeThrough {s : State} {h : PinHandle} {line : Pad} (hp : h.plainOn line) (ho : s.lineOk h = true)
    (v : Level) :
    (calmRun (writeThrough h v) s).padOut = Function.update s.padOut line (v.eval (s.seq .main)) := by
  funext pad
  rw [padOut_calmRun_writeThrough hp ho, Function.update_apply]

/-- A pulse of a plain line that is low leaves every line where it was (R180). -/
theorem attached_pulseThrough {s : State} {j : Nat} {x : Chip} (hs : s.attached j x) {h : PinHandle} {line : Pad}
    (hp : h.plainOn line) (ho : s.lineOk h = true) (hlow : s.padOut line = false) :
    (calmRun (pulseThrough h true) s).attached j (x.pulsed s.padOut line) ∧
      (calmRun (pulseThrough h true) s).padOut = s.padOut := by
  have hhigh := padOut_writeThrough hp ho (.const true)
  have hback := padOut_writeThrough hp ((calmRun_lineOk (writeThrough h (.const true)) s h).trans ho) (.const false)
  rw [hhigh, Function.update_idem, Level.eval, ← hlow, Function.update_eq_self, hlow] at hback
  have hrise := attached_writeThrough hs hp (.const true)
  have hfall := attached_writeThrough hrise hp (.const false)
  rw [hback, hhigh, seeing_seeing] at hfall
  rw [pulseThrough, calmRun_append]
  exact ⟨hfall, hback⟩

end Sys2Proof.Machine
end

