-- ==== Sys2Proof/Proofs/ChipWrite.lean ====
section
/-!
PROOFS. CHIP.WRITE on the lines of a chip (R213, R216, R217): round by round the bits sent enter its shift register, and the
latch pulse copies them.
-/

namespace Sys2Proof.Machine

open Sys2Proof

/-- A Chip Driver's handles stand on a chip's three lines (R85, R217). -/
structure Chip.wiredTo (x : Chip) (d c l : PinHandle) : Prop where
  data : d.plainOn x.ser
  clock : c.plainOn x.srclk
  latch : l.plainOn x.rclk
  ser_ne_srclk : x.ser ≠ x.srclk
  ser_ne_rclk : x.ser ≠ x.rclk
  srclk_ne_rclk : x.srclk ≠ x.rclk

/-- Device `j` is the chip `x` with its registers at `r` and `t`, its two clocks low and seen so. -/
structure State.rests (s : State) (j : Nat) (x : Chip) (r t : List Bool) : Prop where
  chip : ∃ b, s.attached j (x.standing r t b false false)
  srclk : s.padOut x.srclk = false
  rclk : s.padOut x.rclk = false

theorem rests_of_ports {s u : State} {j : Nat} {x : Chip} {r t : List Bool} (hs : s.rests j x r t) (hw : u.width = s.width)
    (hp : u.ports = s.ports) (hd : u.devices = s.devices) : u.rests j x r t := by
  obtain ⟨⟨b, hchip⟩, hsrclk, hrclk⟩ := hs
  exact ⟨⟨b, attached_of_ports hchip hw hp hd⟩, by rw [padOut_of_ports hw hp, hsrclk],
    by rw [padOut_of_ports hw hp, hrclk]⟩

theorem rests_doInternal {s : State} {j : Nat} {x : Chip} {r t : List Bool} (hs : s.rests j x r t) (n : Internal) :
    (doInternal .main n s).rests j x r t :=
  rests_of_ports hs (by simp [doInternal]) (by simp [doInternal]) (by simp [doInternal])

theorem driver_calmRun {s : State} {h : Shifter} {d c l : PinHandle} (hs : s.driver h d c l) (acts : List Act) :
    (calmRun acts s).driver h d c l where
  mode := hs.mode
  data := (calmRun_lineOk ..).trans hs.data
  clock := (calmRun_lineOk ..).trans hs.clock
  latch := (calmRun_lineOk ..).trans hs.latch
  one_le := hs.one_le
  le := hs.le

section Driver

variable {s : State} {j : Nat} {x : Chip} {h : Shifter} {d c l : PinHandle} {r t : List Bool}
  (hwired : x.wiredTo d c l) (hdriver : s.driver h d c l) (hrests : s.rests j x r t)

include hwired hdriver hrests

/-- One round of SHIFT.OUT shifts the bit it sends into the chip: the data line is set before the clock rises (R198). -/
theorem rests_shiftOutRound :
    (calmRun (shiftOutRound d c h.nbits h.order) s).rests j x (x.shifted r (Level.dataBit.eval (s.seq .main))) t := by
  obtain ⟨⟨b, hchip⟩, hsrclk, hrclk⟩ := hrests
  have hout := padOut_writeThrough hwired.data hdriver.data .dataBit
  have hser : (calmRun (writeThrough d .dataBit) s).padOut x.ser = Level.dataBit.eval (s.seq .main) := by
    rw [hout, Function.update_self]
  have hsrclk' : (calmRun (writeThrough d .dataBit) s).padOut x.srclk = false := by
    rw [hout, Function.update_of_ne hwired.ser_ne_srclk.symm, hsrclk]
  have hrclk' : (calmRun (writeThrough d .dataBit) s).padOut x.rclk = false := by
    rw [hout, Function.update_of_ne hwired.ser_ne_rclk.symm, hrclk]
  have hdata := attached_writeThrough hchip hwired.data .dataBit
  rw [seeing_standing, hsrclk, hrclk, see_still, seeing_standing, hsrclk', hrclk', see_still] at hdata
  obtain ⟨hpulse, hsame⟩ := attached_pulseThrough hdata hwired.clock (driver_calmRun hdriver _).clock hsrclk'
  rw [pulsed_srclk hsrclk' hrclk' hwired.ser_ne_srclk hwired.srclk_ne_rclk, hser, ← calmRun_append] at hpulse
  rw [← calmRun_append] at hsame
  rw [shiftOutRound, calmRun_append]
  exact rests_doInternal ⟨⟨_, hpulse⟩, by rw [hsame, hsrclk'], by rw [hsame, hrclk']⟩ (.advance h.order h.nbits)

/-- The latch pulse copies the shift register (R88, R216). -/
theorem rests_latchPulse : (calmRun (pulseThrough l true) s).rests j x r r := by
  obtain ⟨⟨b, hchip⟩, hsrclk, hrclk⟩ := hrests
  obtain ⟨hpulse, hsame⟩ := attached_pulseThrough hchip hwired.latch hdriver.latch hrclk
  have hlatched := pulsed_rclk hsrclk hrclk hwired.ser_ne_rclk hwired.srclk_ne_rclk r t b
  exact ⟨⟨_, hlatched ▸ hpulse⟩, by rw [hsame, hsrclk], by rw [hsame, hrclk]⟩

end Driver

/-- The sequencer `i` rounds of SHIFT.OUT on (R193, R194). -/
theorem progress_shiftOutRounds (d c : PinHandle) (nbits : Nat) (order : BitOrder) (s : State) (i : Nat) :
    ((calmRun (repeatActs i (shiftOutRound d c nbits order)) s).seq .main).progress =
      ((s.seq .main).cmd, (s.seq .main).val, (nextMask order nbits)^[i] (s.seq .main).smask) := by
  induction i with
  | zero => rfl
  | succ i ih =>
    obtain ⟨hcmd, hval, hmask⟩ : _ ∧ _ ∧ _ := by simpa only [Seq.progress, Prod.mk.injEq] using ih
    rw [repeatActs_succ_right, calmRun_append, progress_shiftOutRound, hcmd, hval, hmask, Function.iterate_succ_apply']

/-- The bit that round `i` sends (R197). -/
theorem dataBit_shiftOutRounds {s : State} {nbits : Nat} {order : BitOrder} {value : Word} (d c : PinHandle)
    (hval : (s.seq .main).val = truncAcc nbits value) (hmask : (s.seq .main).smask = initialMask order nbits)
    (hn : nbits ≤ 32) {i : Nat} (hi : i < nbits) :
    Level.dataBit.eval ((calmRun (repeatActs i (shiftOutRound d c nbits order)) s).seq .main) =
      value.getLsbD (bitPos order nbits i) := by
  have hprogress := progress_shiftOutRounds d c nbits order s i
  rw [hval, hmask, iterate_nextMask order hn hi] at hprogress
  simp only [Seq.progress, Prod.mk.injEq] at hprogress
  obtain ⟨-, hval', hmask'⟩ := hprogress
  rw [Level.eval, hval', hmask', truncAcc_and_bitMask order hn hi]

/-- The rounds of SHIFT.OUT shift the bits of VAL into the chip in the order they are sent. -/
theorem rests_shiftOutRounds {s : State} {j : Nat} {x : Chip} {h : Shifter} {d c l : PinHandle} {r t : List Bool}
    {value : Word} (hwired : x.wiredTo d c l) (hdriver : s.driver h d c l) (hrests : s.rests j x r t)
    (hval : (s.seq .main).val = truncAcc h.nbits value) (hmask : (s.seq .main).smask = initialMask h.order h.nbits) {i : Nat}
    (hi : i ≤ h.nbits) :
    (calmRun (repeatActs i (shiftOutRound d c h.nbits h.order)) s).rests j x
      (x.filled r (sentBits h.order h.nbits value i)) t := by
  induction i with
  | zero => exact hrests
  | succ i ih =>
    have hround := rests_shiftOutRound hwired (driver_calmRun hdriver _) (ih (by omega))
    rw [dataBit_shiftOutRounds d c hval hmask hdriver.le hi] at hround
    rwa [repeatActs_succ_right, calmRun_append, sentBits_succ, filled_concat]

/-- A CHIP.WRITE just accepted, as its first round finds it. -/
def State.chipWriteStart (s : State) (k : Nat) (value : Word) (h : Shifter) : State :=
  calmRun [.int (.loadVal h.nbits), .int (.initMask h.order h.nbits)] (accept .main (.chipWrite k value) .nothing s)

/-- A chip whose clock lines stand as it last saw them, low, is at rest when the command is accepted. -/
theorem rests_chipWriteStart {s : State} {j : Nat} {x : Chip} (hs : s.attached j x) (hsrclk : s.padOut x.srclk = false)
    (hrclk : s.padOut x.rclk = false) (hlastSrclk : x.lastSrclk = false) (hlastRclk : x.lastRclk = false) (k : Nat)
    (value : Word) (h : Shifter) : (s.chipWriteStart k value h).rests j x x.sr x.st := by
  have hx := eq_standing x
  rw [hlastSrclk, hlastRclk] at hx
  have hrests : s.rests j x x.sr x.st := ⟨⟨x.lastSer, by rwa [← hx]⟩, hsrclk, hrclk⟩
  have haccepted : (accept .main (.chipWrite k value) .nothing s).rests j x x.sr x.st := by
    rw [accept_of_not_isShift .main .nothing s rfl]
    exact rests_of_ports hrests rfl rfl rfl
  exact rests_doInternal (rests_doInternal haccepted (.loadVal h.nbits)) (.initMask h.order h.nbits)

theorem driver_chipWriteStart {s : State} {h : Shifter} {d c l : PinHandle} (hs : s.driver h d c l) (k : Nat)
    (value : Word) : (s.chipWriteStart k value h).driver h d c l := by
  refine driver_calmRun (s := accept .main (.chipWrite k value) .nothing s) ?_ _
  exact ⟨hs.mode, (accept_lineOk ..).trans hs.data, (accept_lineOk ..).trans hs.clock, (accept_lineOk ..).trans hs.latch,
    hs.one_le, hs.le⟩

/-- Settles O42: the bits sent are shifted in one by one, and the pulse after the last of them latches them all. -/
theorem chipHoldsTheValue : Obligations.ChipHoldsTheValue := by
  intro s k j value g h d c l x hwf hs hchip hslot hdata hclk hlatch hdev hd hc hl hserSrclk hserRclk hclks hoeSer hoeSrclk
    hoeRclk hsrclk hrclk hlastSrclk hlastRclk
  have hdriver := driver_of_wf hwf hchip hslot hdata hclk hlatch
  have hwired : x.wiredTo d c l := ⟨hd, hc, hl, hserSrclk, hserRclk, hclks⟩
  have hstart := rests_chipWriteStart ⟨hdev, hoeSer, hoeSrclk, hoeRclk⟩ hsrclk hrclk hlastSrclk hlastRclk k value h
  have hdriver' := driver_chipWriteStart hdriver k value
  have hshifted := rests_shiftOutRounds (value := value) hwired hdriver' hstart rfl rfl le_rfl
  have hlatched := rests_latchPulse hwired (driver_calmRun hdriver' _) hshifted
  have hbits : sentBits h.order h.nbits value h.nbits ≠ [] := by
    rw [sentBits, ne_eq, List.map_eq_nil_iff, List.range_eq_nil]
    exact Nat.one_le_iff_ne_zero.mp hdriver.one_le
  rw [State.chipWriteStart, ← calmRun_append, ← calmRun_append, filled_eq x x.sr hbits, ← shiftedBits_eq_reverse]
    at hlatched
  obtain ⟨⟨b, hend⟩, -, -⟩ := hlatched
  exact ⟨_, _, exec_eq_calmRun hs (planOf_chipWrite value hdriver.mode hchip hslot hdata hclk hlatch)
    (sectioned_chipWrite ..), hend.device, rfl, rfl⟩

end Sys2Proof.Machine
end

