-- ==== Sys2Proof/Proofs/ErrorFlags.lean ====
section
/-!
PROOFS. The error flags (R29, R234): no operation of either context clears one.
-/

namespace Sys2Proof.Machine

open Sys2Proof

/-- An error flag of the block (R29). -/
def State.flag (s : State) : Flag → Bool
  | .ill => s.ill
  | .cfgerr => s.cfgerr
  | .operr => s.operr

theorem flag_congr {s t : State} (hill : t.ill = s.ill) (hcfg : t.cfgerr = s.cfgerr) (hop : t.operr = s.operr) :
    t.flag = s.flag := by
  funext f
  cases f with
  | ill => exact hill
  | cfgerr => exact hcfg
  | operr => exact hop

/-- A flag set is one more flag set (R234). -/
theorem flag_setFlag (s : State) (f g : Flag) : (s.setFlag f).flag g = (s.flag g || decide (g = f)) := by
  cases f <;> cases g <;> simp [State.setFlag, State.flag]

theorem flag_respond (c : Ctx) (r : Response) (s : State) : (respond c r s).flag = s.flag :=
  flag_congr (by simp) (by simp) (by simp)

theorem flag_updSeq (s : State) (c : Ctx) (f : Seq → Seq) : (s.updSeq c f).flag = s.flag :=
  flag_congr (by simp) (by simp) (by simp)

theorem flag_setSeq (s : State) (c : Ctx) (q : Option Seq) : (s.setSeq c q).flag = s.flag :=
  flag_congr (by simp) (by simp) (by simp)

theorem flag_applyBind (b : Bind) (s : State) : (applyBind b s).flag = s.flag :=
  flag_congr (by simp) (by simp) (by simp)

theorem flag_sample (c : Ctx) (p : Nat) (r : Reg) (b : Nat) (inv : Bool) (s : State) :
    (sample c p r b inv s).flag = s.flag := by
  unfold sample
  dsimp only
  split <;> exact flag_updSeq ..

/-- No micro-operation touches an error flag. -/
theorem flag_applyUop (c : Ctx) (u : Uop) (s : State) : (applyUop c u s).flag = s.flag := by
  cases u with
  | sample p r b inv => exact flag_sample c p r b inv s
  | regRead p r => exact flag_updSeq ..
  | ieWrite v => rfl
  | rel => rfl
  | acq => exact flag_congr (acq_ill c s) (acq_cfgerr c s) (acq_operr c s)
  | regWrite p r v => exact flag_congr (regWrite_ill ..) (regWrite_cfgerr ..) (regWrite_operr ..)
  | bitWrite p r b level inv => exact flag_congr (bitWrite_ill ..) (bitWrite_cfgerr ..) (bitWrite_operr ..)

/-- A refusal sets its flag and leaves the others (R232). -/
theorem flag_refuse (c : Ctx) (f g : Flag) (s : State) : (refuse c f s).flag g = (s.flag g || decide (g = f)) := by
  rw [refuse, flag_respond, flag_setFlag]

/-- Every flag set in `s` is set in `t`. -/
def State.flagsKept (s t : State) : Prop := ∀ f, s.flag f = true → t.flag f = true

theorem flagsKept_of_eq {s t : State} (h : t.flag = s.flag) : s.flagsKept t := fun f hf => by rwa [h]

/-- Nothing but a reset clears an error flag (R234). -/
theorem flagsKept_kept : Kept State.flagsKept fun _ _ => True where
  refl _ _ := id
  trans h h' f hf := h' f (h f hf)
  elapse _ := flagsKept_of_eq rfl
  uop c u s := flagsKept_of_eq ((flag_updSeq ..).trans (flag_applyUop c u s))
  internal c n s := flagsKept_of_eq (flag_updSeq ..)
  accept c i s p _ := flagsKept_of_eq ((flag_setSeq ..).trans (flag_applyBind p.bind s))
  finish c sel s := flagsKept_of_eq ((flag_setSeq ..).trans (flag_respond ..))
  refuse c f s g hg := by rw [flag_refuse, hg, Bool.true_or]
  inputs _ _ _ := flagsKept_of_eq rfl
  reset _ _ := trivial
  after _ _ := trivial

/-- Settles O46, by the induction over everything a step can do. -/
theorem flagsAreSticky : Obligations.FlagsAreSticky := by
  intro s hs
  obtain ⟨t, ht, hkept⟩ := step_kept_of_noReset flagsKept_kept s hs
  exact ⟨t, ht, hkept .ill, hkept .cfgerr, hkept .operr⟩

end Sys2Proof.Machine
end

