-- ==== Sys2Proof/Proofs/Refusal.lean ====
section
/-!
PROOFS. Refusals (R230 to R232): at a well-formed state the checks of a command (R114) find a cause exactly where the table
of R231 lists one, and a command they let through answers with RESULT = 0 unless it is one of those that read (R84).
-/

namespace Sys2Proof.Machine

open Sys2Proof

/-! ### Slots that exist and slots that are free (R35) -/

theorem lt_length_of_slot {α : Type} {table : List (Option α)} {k : Nat} {h : α} (hslot : (table[k]?).join = some h) :
    k < table.length :=
  (List.getElem?_eq_some_iff.mp (Option.join_eq_some_iff.mp hslot)).1

/-- A slot is free where it exists and is not valid (R35). -/
theorem freeSlot_eq {α : Type} (table : List (Option α)) (k : Nat) :
    freeSlot table k = !(decide (table.length ≤ k) || (table[k]?).join.isSome) := by
  unfold freeSlot
  rcases Nat.lt_or_ge k table.length with hk | hk
  · cases hslot : table[k] <;> simp [hslot, hk]
  · simp [hk]

theorem outputSlot_eq (s : State) (k : Nat) : s.outputSlot k = !(s.pinSlot k).all fun h => !h.isOutput := by
  cases hslot : s.pinSlot k <;> simp [State.outputSlot, hslot]

theorem inputSlot_eq (s : State) (k : Nat) : s.inputSlot k = !(s.pinSlot k).all fun h => h.isOutput := by
  cases hslot : s.pinSlot k <;> simp [State.inputSlot, hslot]

theorem shiftOutSlot_eq (s : State) (k : Nat) :
    s.shiftOutSlot k = !(s.shiftSlot k).all fun h => decide (h.mode = .shiftIn) := by
  cases hslot : s.shiftSlot k with
  | none => simp [State.shiftOutSlot, hslot]
  | some u => cases hm : u.mode <;> simp [State.shiftOutSlot, hslot, hm]

/-! ### Descriptors a valid slot names (R192, R212) -/

theorem pinSlot_of_outputSlot {s : State} {k : Nat} (hk : s.outputSlot k = true) : ∃ h, s.pinSlot k = some h := by
  cases hslot : s.pinSlot k with
  | none => simp [State.outputSlot, hslot] at hk
  | some h => exact ⟨h, rfl⟩

theorem pinSlot_of_inputSlot {s : State} {k : Nat} (hk : s.inputSlot k = true) : ∃ h, s.pinSlot k = some h := by
  cases hslot : s.pinSlot k with
  | none => simp [State.inputSlot, hslot] at hk
  | some h => exact ⟨h, rfl⟩

theorem shiftSlot_of_shiftOutSlot {s : State} {k : Nat} (hk : s.shiftOutSlot k = true) :
    ∃ u, s.shiftSlot k = some u := by
  cases hslot : s.shiftSlot k with
  | none => simp [State.shiftOutSlot, hslot] at hk
  | some u => exact ⟨u, rfl⟩

/-- The handles of a valid Shifter slot are valid (R192). -/
theorem handles_of_wf {s : State} {k : Nat} {u : Shifter} (hwf : s.wf = true) (hslot : s.shiftSlot k = some u) :
    ∃ d c, s.pinSlot u.data = some d ∧ s.pinSlot u.clk = some c := by
  obtain ⟨-, hv⟩ := (wf_iff s).mp hwf
  have hok := hv.shift k u hslot
  simp only [State.shifterOk, Bool.and_eq_true] at hok
  obtain ⟨⟨hdata, hclk⟩, -⟩ := hok
  have hd : ∃ d, s.pinSlot u.data = some d := by
    cases hm : u.mode with
    | shiftIn => rw [hm] at hdata; exact pinSlot_of_inputSlot hdata
    | shiftOut => rw [hm] at hdata; exact pinSlot_of_outputSlot hdata
  obtain ⟨d, hd⟩ := hd
  obtain ⟨c, hc⟩ := pinSlot_of_outputSlot hclk
  exact ⟨d, c, hd, hc⟩

/-! ### What the checks of a command decide (R114, R231) -/

/-- The checks refuse with the flag of `cause`, or there is none and the command runs, with RESULT = 0 unless it reads. -/
def Verdict.accords (cause : Option Flag) (reads : Bool) : Verdict → Prop
  | .refuse f => cause = some f
  | .run p => cause = none ∧ (reads = false → p.result = .zero)

/-- Checks that pass exactly where nothing is broken (R114). -/
theorem accords_checked {f : Flag} {checks : List Bool} {broken reads : Bool} {p : Plan}
    (hbroken : broken = false ↔ checks.all id = true) (hresult : reads = false → p.result = .zero) :
    (checked f checks (.run p)).accords (if broken then some f else none) reads := by
  unfold checked
  cases hall : checks.all id <;> simp_all [Verdict.accords]

/-! ### The system commands (R135, R136) -/

theorem accords_regRd (port : Nat) (reg : RegSel) (s : State) :
    (planOf (.regRd port reg) s).accords (refusalCause (.regRd port reg) s) true := by
  cases reg with
  | noRegister => simp [planOf, planRegRd, regOf, refusalCause, Verdict.accords]
  | input => exact accords_checked (by simp) nofun
  | output => exact accords_checked (by simp) nofun
  | direction => exact accords_checked (by simp) nofun

theorem accords_regWr (port : Nat) (reg : RegSel) (value : Word) (s : State) :
    (planOf (.regWr port reg value) s).accords (refusalCause (.regWr port reg value) s) false := by
  cases reg with
  | noRegister => simp [planOf, planRegWr, regOf, refusalCause, Verdict.accords]
  | input => exact accords_checked (by simp) fun _ => rfl
  | output => exact accords_checked (by simp) fun _ => rfl
  | direction => exact accords_checked (by simp) fun _ => rfl

/-! ### The commands that bind a slot (R151, R172, R174, R191, R211) -/

theorem accords_portBind (k port : Nat) (dirn : Dirn) (start nbits : Nat) (s : State) :
    (planOf (.portBind k port dirn start nbits) s).accords (refusalCause (.portBind k port dirn start nbits) s) false :=
  accords_checked (by simp [freeSlot_eq, State.portSlot, Nat.one_le_iff_ne_zero, and_assoc]) fun _ => rfl

theorem accords_pinBindin (k : Nat) (pin : PinId) (pullup : Bool) (s : State) :
    (planOf (.pinBindin k pin pullup) s).accords (refusalCause (.pinBindin k pin pullup) s) false :=
  accords_checked (by simp [freeSlot_eq, State.pinSlot]) fun _ => rfl

theorem accords_pinBindout (k : Nat) (pin : PinId) (init dyn inv : Bool) (s : State) :
    (planOf (.pinBindout k pin init dyn inv) s).accords (refusalCause (.pinBindout k pin init dyn inv) s) false :=
  accords_checked (by simp [freeSlot_eq, State.pinSlot]) fun _ => rfl

theorem accords_shiftCfg (k : Nat) (mode : ShiftMode) (datah clkh nbits : Nat) (order : BitOrder) (s : State) :
    (planOf (.shiftCfg k mode datah clkh nbits order) s).accords
      (refusalCause (.shiftCfg k mode datah clkh nbits order) s) false := by
  refine accords_checked ?_ fun _ => rfl
  cases mode with
  | shiftIn => simp [freeSlot_eq, State.shiftSlot, outputSlot_eq, inputSlot_eq, Nat.one_le_iff_ne_zero, and_assoc]
  | shiftOut => simp [freeSlot_eq, State.shiftSlot, outputSlot_eq, Nat.one_le_iff_ne_zero, and_assoc]

theorem accords_chipCfg (k shifter latchh oeh : Nat) (initEn : Bool) (s : State) :
    (planOf (.chipCfg k shifter latchh oeh initEn) s).accords
      (refusalCause (.chipCfg k shifter latchh oeh initEn) s) false := by
  simp only [planOf, planChipCfg]
  split
  · next oe hoe =>
    exact accords_checked (by simp [freeSlot_eq, State.chipSlot, shiftOutSlot_eq, outputSlot_eq, hoe, and_assoc])
      fun _ => rfl
  · next hoe => simp [Verdict.accords, refusalCause, hoe]

/-! ### The commands that use a valid slot (R152, R164, R171, R182) -/

/-- A command whose slot is valid and that has no further check (R231). -/
theorem accords_of_valid {α : Type} {table : List (Option α)} {k : Nat} {v : Verdict} {reads : Bool}
    (hnone : (table[k]?).join = none → v = .refuse .operr)
    (hsome : ∀ h, (table[k]?).join = some h → ∃ p, v = .run p ∧ (reads = false → p.result = .zero)) :
    v.accords (if decide (table.length ≤ k) || (table[k]?).join.isNone then some .operr else none) reads := by
  cases hslot : (table[k]?).join with
  | none => simp [hnone hslot, Verdict.accords]
  | some h =>
    obtain ⟨p, rfl, hresult⟩ := hsome h hslot
    exact ⟨by simp [lt_length_of_slot hslot], hresult⟩

/-- A command whose slot is valid and whose one further check is on what the slot holds (R231). -/
theorem accords_of_kind {α : Type} {table : List (Option α)} {k : Nat} {bad : α → Bool} {v : Verdict} {reads : Bool}
    (hnone : (table[k]?).join = none → v = .refuse .operr)
    (hbad : ∀ h, (table[k]?).join = some h → bad h = true → v = .refuse .operr)
    (hgood : ∀ h, (table[k]?).join = some h → bad h = false → ∃ p, v = .run p ∧ (reads = false → p.result = .zero)) :
    v.accords (if decide (table.length ≤ k) || (table[k]?).join.all bad then some .operr else none) reads := by
  cases hslot : (table[k]?).join with
  | none => simp [hnone hslot, Verdict.accords]
  | some h =>
    cases hb : bad h with
    | true => simp [hbad h hslot hb, hb, Verdict.accords]
    | false =>
      obtain ⟨p, rfl, hresult⟩ := hgood h hslot hb
      exact ⟨by simp [lt_length_of_slot hslot, hb], hresult⟩

theorem accords_portWrite (k : Nat) (value : Word) (s : State) :
    (planOf (.portWrite k value) s).accords (refusalCause (.portWrite k value) s) false := by
  refine accords_of_kind (fun (hslot : s.portSlot k = none) => by simp [planOf, planPortWrite, hslot])
    (fun h (hslot : s.portSlot k = some h) hbad => ?_) fun h (hslot : s.portSlot k = some h) hgood => ?_
  · have hr : h.dirn = .reading := of_decide_eq_true hbad
    simp [planOf, planPortWrite, checked, hslot, hr]
  · have hw : h.dirn = .writing := by
      cases hd : h.dirn with
      | writing => rfl
      | reading => simp [hd] at hgood
    exact ⟨_, planOf_portWrite value hslot hw, fun _ => rfl⟩

/-- A command that writes through a Pin Handle is refused on an Input (R182). -/
theorem accords_of_output {s : State} {k : Nat} {v : Verdict} (acts : PinHandle → List Act)
    (hnone : s.pinSlot k = none → v = .refuse .operr)
    (hsome : ∀ h, s.pinSlot k = some h → v = checked .operr [h.isOutput] (.run { acts := acts h })) :
    v.accords (if decide (s.pn.length ≤ k) || (s.pinSlot k).all fun h => !h.isOutput then some .operr else none) false :=
  accords_of_kind hnone
    (fun h hslot hbad => by
      have hin : h.isOutput = false := by simpa using hbad
      simp [hsome h hslot, checked, hin])
    fun h hslot hgood => by
      have hout : h.isOutput = true := by simpa using hgood
      exact ⟨{ acts := acts h }, by simp [hsome h hslot, checked, hout], fun _ => rfl⟩

/-! ### The Shifter and the Chip Driver (R192, R212) -/

/-- SHIFT.IN and SHIFT.OUT, each refused on a unit of the other mode (R192). -/
theorem accords_withShifter {s : State} {k : Nat} {mode other : ShiftMode} {reads : Bool}
    {f : Shifter → PinHandle → PinHandle → Verdict} (hwf : s.wf = true) (hother : ∀ m, m = other ↔ m ≠ mode)
    (hf : ∀ u d c, ∃ p, f u d c = .run p ∧ (reads = false → p.result = .zero)) :
    (withShifter k mode s f).accords
      (if decide (s.sh.length ≤ k) || (s.shiftSlot k).all fun u => decide (u.mode = other) then some .operr else none)
      reads := by
  refine accords_of_kind (fun (hslot : s.shiftSlot k = none) => by simp [withShifter, hslot])
    (fun u (hslot : s.shiftSlot k = some u) hbad => ?_) fun u (hslot : s.shiftSlot k = some u) hgood => ?_
  all_goals obtain ⟨d, c, hd, hc⟩ := handles_of_wf hwf hslot
  · have hmode : u.mode ≠ mode := (hother u.mode).mp (of_decide_eq_true hbad)
    simp [withShifter, hslot, hd, hc, checked, hmode]
  · have hmode : u.mode = mode := not_not.mp fun hne => of_decide_eq_false hgood ((hother u.mode).mpr hne)
    obtain ⟨p, hp, hresult⟩ := hf u d c
    exact ⟨p, by simp [withShifter, hslot, hd, hc, checked, hmode, hp], hresult⟩

theorem accords_chipWrite (k : Nat) (value : Word) {s : State} (hwf : s.wf = true) :
    (planOf (.chipWrite k value) s).accords (refusalCause (.chipWrite k value) s) false := by
  refine accords_of_valid (fun (hslot : s.chipSlot k = none) => by simp [planOf, planChipWrite, hslot])
    fun g (hslot : s.chipSlot k = some g) => ?_
  obtain ⟨hsh, hlatch, -⟩ := chipOk_of_wf hwf hslot
  obtain ⟨u, hu⟩ := shiftSlot_of_shiftOutSlot hsh
  obtain ⟨l, hl⟩ := pinSlot_of_outputSlot hlatch
  obtain ⟨d, c, hd, hc⟩ := handles_of_wf hwf hu
  exact ⟨_, planOf_chipWrite value (mode_of_shiftOutSlot hsh hu) hslot hu hd hc hl, fun _ => rfl⟩

theorem accords_chipEnableTo (k : Nat) (v : Bool) {s : State} (hwf : s.wf = true) :
    (chipEnableTo k v s).accords
      (if decide (s.ch.length ≤ k) || (s.chipSlot k).isNone then some .operr else none) false := by
  refine accords_of_valid (fun (hslot : s.chipSlot k = none) => by simp [chipEnableTo, hslot])
    fun g (hslot : s.chipSlot k = some g) => ?_
  obtain ⟨-, -, hoe⟩ := chipOk_of_wf hwf hslot
  obtain ⟨oe, ho⟩ := pinSlot_of_outputSlot hoe
  exact ⟨_, chipEnableTo_of_slot v hslot ho, fun _ => rfl⟩

/-! ### Every command (R231) -/

/-- At a well-formed state the checks of every command decide what the table of R231 lists for it. -/
theorem planOf_accords (i : Instr) {s : State} (hwf : s.wf = true) :
    (planOf i s).accords (refusalCause i s) (reading i) := by
  cases i with
  | nop => exact ⟨rfl, fun _ => rfl⟩
  | statRd => exact ⟨rfl, nofun⟩
  | ieSet => exact ⟨rfl, fun _ => rfl⟩
  | ieClr => exact ⟨rfl, fun _ => rfl⟩
  | regRd port reg => exact accords_regRd port reg s
  | regWr port reg value => exact accords_regWr port reg value s
  | portBind k port dirn start nbits => exact accords_portBind k port dirn start nbits s
  | portEnout k =>
    exact accords_of_valid (fun (hslot : s.portSlot k = none) => by simp [planOf, planPortEnout, hslot])
      fun _ hslot => ⟨_, planOf_portEnout hslot, fun _ => rfl⟩
  | portEnin k =>
    exact accords_of_valid (fun (hslot : s.portSlot k = none) => by simp [planOf, planPortEnin, hslot])
      fun _ hslot => ⟨_, planOf_portEnin hslot, fun _ => rfl⟩
  | portRead k =>
    exact accords_of_valid (fun (hslot : s.portSlot k = none) => by simp [planOf, planPortRead, hslot])
      fun _ hslot => ⟨_, planOf_portRead hslot, nofun⟩
  | portWrite k value => exact accords_portWrite k value s
  | pinBindin k pin pullup => exact accords_pinBindin k pin pullup s
  | pinBindout k pin init dyn inv => exact accords_pinBindout k pin init dyn inv s
  | pinRead k =>
    exact accords_of_valid (fun (hslot : s.pinSlot k = none) => by simp [planOf, planPinRead, hslot])
      fun _ hslot => ⟨_, planOf_pinRead hslot, nofun⟩
  | pinWrite k value =>
    exact accords_of_output (fun h => writeThrough h (.const value))
      (fun hslot => by simp [planOf, planPinWrite, hslot]) fun _ hslot => by simp only [planOf, planPinWrite, hslot]
  | pinToggle k =>
    exact accords_of_output (fun h => readThrough h ++ writeThrough h .notSample)
      (fun hslot => by simp [planOf, planPinToggle, hslot]) fun _ hslot => by simp only [planOf, planPinToggle, hslot]
  | pinPulse k value =>
    exact accords_of_output (fun h => pulseThrough h value)
      (fun hslot => by simp [planOf, planPinPulse, hslot]) fun _ hslot => by simp only [planOf, planPinPulse, hslot]
  | shiftCfg k mode datah clkh nbits order => exact accords_shiftCfg k mode datah clkh nbits order s
  | shiftIn k => exact accords_withShifter hwf (fun m => by cases m <;> simp) fun _ _ _ => ⟨_, rfl, nofun⟩
  | shiftOut k value => exact accords_withShifter hwf (fun m => by cases m <;> simp) fun _ _ _ => ⟨_, rfl, fun _ => rfl⟩
  | chipCfg k shifter latchh oeh initEn => exact accords_chipCfg k shifter latchh oeh initEn s
  | chipWrite k value => exact accords_chipWrite k value hwf
  | chipEnable k => exact accords_chipEnableTo k true hwf
  | chipDisable k => exact accords_chipEnableTo k false hwf

/-- Settles O45: the checks find a listed cause or none, and a command they let through goes on to its response. -/
theorem refusedExactlyForTheListedCauses : Obligations.RefusedExactlyForTheListedCauses := by
  intro i s hwf
  have hplan := planOf_accords i hwf
  refine ⟨fun f hf => ?_, fun hnone hs => ?_⟩
  · cases hp : planOf i s with
    | refuse g =>
      rw [hp] at hplan
      obtain rfl := Option.some.inj (hf.symm.trans hplan)
      exact exec_refuse i s f hp
    | run p =>
      rw [hp] at hplan
      obtain ⟨hnone, -⟩ := hplan
      cases hf.symm.trans hnone
  · rcases exec_of_noReset i hs with ⟨f, hp, -⟩ | ⟨p, t, hp, -, hexec⟩
    · rw [hp] at hplan
      cases hnone.symm.trans hplan
    · rw [hp] at hplan
      obtain ⟨-, hresult⟩ := hplan
      exact ⟨_, resultOf .main p.result t, hexec, rfl, fun hr => by rw [hresult hr]; rfl⟩

end Sys2Proof.Machine
end

