-- ==== Sys2Proof/Proofs/Reset.lean ====
section
/-!
PROOFS. What a step does besides running a command: it applies the reset input (R260), which leaves the parameters (R265),
or it waits for a command to stand at the port (R262).
-/

namespace Sys2Proof.Machine

open Sys2Proof

/-! ### The reset input at the boundary of a step (R260) -/

theorem tick_of_due {s : State} (h : resetDue s = true) : tick s = .reset ((blockReset (elapse s)).observe none) := by
  simp [tick, h]

/-- Where reset is due the foreign context does not act. -/
theorem boundary_of_due {s : State} (h : resetDue s = true) :
    boundary s = .reset ((blockReset (elapse s)).observe none) := by
  rw [boundary, tick_of_due h, Flow.bind]

/-- A step whose boundary applies the reset takes no command. -/
theorem step_of_boundary_reset {s t : State} (hb : boundary s = .reset t) : step s = .next t := by
  simp only [step, hb]

/-- A reset takes the block, apart from the world, to the reset state; no command is taken from the port. -/
theorem apart_blockReset (s : State) : (blockReset s).apart = { State.init s.params with cmds := s.cmds } := rfl

/-- Settles O9: the boundary ends in the reset, and the step with it. -/
theorem resetInputResetsTheBlock : Obligations.ResetInputResetsTheBlock :=
  fun s hdue => ⟨_, step_of_boundary_reset (boundary_of_due hdue), apart_blockReset (elapse s)⟩

/-! ### The parameters (R265) -/

@[simp] theorem params_init (q : Params) : (State.init q).params = q := by
  simp [State.params, State.init]

theorem params_of_resetTo {s t : State} (h : s.resetTo t) : t.params = s.params :=
  calc t.params
      = t.apart.params := rfl
    _ = (State.init s.params).params := by rw [h]; rfl
    _ = s.params := params_init s.params

/-- Settles O48: a reset leaves the parameters, and so does everything else a step can do. -/
theorem parametersAreFixed : Obligations.ParametersAreFixed := by
  intro s
  obtain ⟨t, ht, hkept⟩ := step_kept params_kept s
  have hparams : t.params = s.params := hkept.elim id params_of_resetTo
  simp only [State.params, Params.mk.injEq] at hparams
  exact ⟨t, ht, hparams⟩

/-! ### Waiting for a command (R262) -/

/-- A step behind whose boundary no command stands at the port does nothing more. -/
theorem step_of_no_command {s t : State} (hb : boundary s = .live t) (hc : t.cmds = []) : step s = .next t := by
  simp only [step, hb, takeCommand, hc]

/-- A calm boundary takes no command from the port. -/
theorem calmBoundary_cmds (s : State) : (calmBoundary s).cmds = s.cmds := by
  rw [← apart_cmds, apart_calmBoundary, apart_cmds]

/-- Settles O7. -/
theorem waitsForItsFirstCommand : Obligations.WaitsForItsFirstCommand :=
  fun s hs hc => step_of_no_command (boundary_calm s hs) ((calmBoundary_cmds s).trans hc)

end Sys2Proof.Machine
end

