-- ==== Sys2Proof/Proofs/Counts.lean ====
section
/-!
PROOFS. The number of micro-operations of each command that is not refused (R203, R276): the count of each sequence, and
for each command the sequence it runs.
-/

namespace Sys2Proof.Machine

open Sys2Proof

/-! ### The counts of the sequences (R73, R154, R156, R172, R180, R197) -/

/-- The micro-operations of a masked write of a register (R276): one store at full width, four under the lock. -/
def maskedCost (w : Width) (nbits : Nat) : Nat := if nbits = w.bits then 1 else 4

/-- A masked write counts by whether the handle is full-width (R31). -/
theorem uopCount_masked (w : Width) (h : PortHandle) (store locked : List Act) (hstore : uopCount store = 1)
    (hlocked : uopCount locked = 4) : uopCount (if h.full w then store else locked) = maskedCost w h.nbits := by
  by_cases hn : h.nbits = w.bits <;> simp [maskedCost, full_iff, hn, hstore, hlocked]

theorem uopCount_directionActs (w : Width) (h : PortHandle) (outputs : Bool) :
    uopCount (directionActs w h outputs) = maskedCost w h.nbits := by
  cases outputs with
  | true => exact uopCount_masked w h _ _ rfl rfl
  | false => exact uopCount_masked w h _ _ rfl rfl

theorem uopCount_configurePin (pin : PinId) (output : Bool) :
    uopCount (configurePin pin output) = if pin = .noPin then 0 else 1 := by
  cases pin <;> rfl

theorem uopCount_pulseThrough {h : PinHandle} (ho : h.isOutput = true) (v : Bool) :
    uopCount (pulseThrough h v) = 2 * writeCost h := by
  rw [pulseThrough, uopCount_append, uopCount_writeThrough ho, uopCount_writeThrough ho, Nat.two_mul]

theorem uopCount_shiftOutRound {d c : PinHandle} (hd : d.isOutput = true) (hc : c.isOutput = true) (nbits : Nat)
    (order : BitOrder) : uopCount (shiftOutRound d c nbits order) = writeCost d + 2 * writeCost c := by
  simp only [shiftOutRound, uopCount_append, uopCount_writeThrough hd, uopCount_pulseThrough hc, uopCount, Nat.add_zero]

theorem uopCount_shiftInActs {d c : PinHandle} (hc : c.isOutput = true) (nbits : Nat) (order : BitOrder) :
    uopCount (shiftInActs d c nbits order) = nbits * (2 * writeCost c + readCost d) := by
  simp only [shiftInActs, uopCount_append, uopCount_repeatActs, uopCount_shiftInRound hc, uopCount, Nat.zero_add]

theorem uopCount_shiftOutActs {d c : PinHandle} (hd : d.isOutput = true) (hc : c.isOutput = true) (nbits : Nat)
    (order : BitOrder) : uopCount (shiftOutActs d c nbits order) = nbits * (writeCost d + 2 * writeCost c) := by
  simp only [shiftOutActs, uopCount_append, uopCount_repeatActs, uopCount_shiftOutRound hd hc, uopCount, Nat.zero_add]

/-! ### From the sequence to the command -/

theorem uopsOf_of_run {i : Instr} {s : State} {p : Plan} {n : Nat} (hp : planOf i s = .run p)
    (hcount : uopCount p.acts = n) : uopsOf i s = n := by
  rw [uopsOf, hp, actsOf, hcount]

/-- Checks that fail leave no micro-operation (R114). -/
theorem uopCount_checked (f : Flag) (checks : List Bool) (p : Plan) :
    uopCount (actsOf (checked f checks (.run p))) = if checks.all id then uopCount p.acts else 0 := by
  unfold checked
  split <;> rfl

/-- A command for which R231 lists no cause runs, so it counts what its plan counts if its checks pass. -/
theorem uopsOf_of_meets {i : Instr} {s : State} {n : Nat} (hwf : s.wf = true) (hcause : refusalCause i s = none)
    (hplan : (planOf i s).meets fun p => uopCount p.acts = n) : uopsOf i s = n := by
  have haccords := planOf_accords i hwf
  cases hp : planOf i s with
  | refuse f =>
    rw [hp] at haccords
    cases hcause.symm.trans haccords
  | run p =>
    rw [hp] at hplan
    exact uopsOf_of_run hp hplan

section
variable {s : State}

/-! ### The system commands (R130 to R136) -/

theorem uopsOf_regRd (hwf : s.wf = true) {port : Nat} {reg : RegSel} (hcause : refusalCause (.regRd port reg) s = none) :
    uopsOf (.regRd port reg) s = 1 := by
  refine uopsOf_of_meets hwf hcause ?_
  cases reg with
  | noRegister => exact meets_refuse ..
  | input => exact (meets_checked ..).mpr fun _ => rfl
  | output => exact (meets_checked ..).mpr fun _ => rfl
  | direction => exact (meets_checked ..).mpr fun _ => rfl

theorem uopsOf_regWr (hwf : s.wf = true) {port : Nat} {reg : RegSel} {v : Word}
    (hcause : refusalCause (.regWr port reg v) s = none) : uopsOf (.regWr port reg v) s = 1 := by
  refine uopsOf_of_meets hwf hcause ?_
  cases reg with
  | noRegister => exact meets_refuse ..
  | input => exact (meets_checked ..).mpr fun _ => rfl
  | output => exact (meets_checked ..).mpr fun _ => rfl
  | direction => exact (meets_checked ..).mpr fun _ => rfl

/-! ### The Port Handle commands (R151 to R160) -/

theorem uopsOf_portBind (hwf : s.wf = true) {k port : Nat} {dirn : Dirn} {start nbits : Nat}
    (hcause : refusalCause (.portBind k port dirn start nbits) s = none) :
    uopsOf (.portBind k port dirn start nbits) s = maskedCost s.width nbits := by
  refine uopsOf_of_meets hwf hcause ((meets_checked ..).mpr fun _ => ?_)
  cases dirn with
  | writing => exact uopCount_directionActs s.width ⟨port, .writing, start, nbits⟩ true
  | reading => exact uopCount_directionActs s.width ⟨port, .reading, start, nbits⟩ false

theorem uopsOf_portEnout {k : Nat} {h : PortHandle} (hslot : s.portSlot k = some h) :
    uopsOf (.portEnout k) s = maskedCost s.width h.nbits :=
  uopsOf_of_run (planOf_portEnout hslot) (uopCount_directionActs s.width h true)

theorem uopsOf_portEnin {k : Nat} {h : PortHandle} (hslot : s.portSlot k = some h) :
    uopsOf (.portEnin k) s = maskedCost s.width h.nbits :=
  uopsOf_of_run (planOf_portEnin hslot) (uopCount_directionActs s.width h false)

theorem uopsOf_portWrite {k : Nat} {h : PortHandle} (hslot : s.portSlot k = some h) (v : Word) (hw : h.dirn = .writing) :
    uopsOf (.portWrite k v) s = maskedCost s.width h.nbits :=
  uopsOf_of_run (planOf_portWrite v hslot hw) (uopCount_masked s.width h _ _ rfl rfl)

/-! ### The Pin Handle commands (R172 to R180) -/

theorem uopsOf_pinBindin (hwf : s.wf = true) {k : Nat} {pin : PinId} {pullup : Bool}
    (hcause : refusalCause (.pinBindin k pin pullup) s = none) :
    uopsOf (.pinBindin k pin pullup) s = if pin = .noPin then 0 else 1 :=
  uopsOf_of_meets hwf hcause ((meets_checked ..).mpr fun _ => uopCount_configurePin pin false)

theorem uopsOf_pinBindout (hwf : s.wf = true) {k : Nat} {pin : PinId} {init dyn inv : Bool}
    (hcause : refusalCause (.pinBindout k pin init dyn inv) s = none) :
    uopsOf (.pinBindout k pin init dyn inv) s = if pin = .noPin then 0 else if dyn then 5 else 2 := by
  refine uopsOf_of_meets hwf hcause ((meets_checked ..).mpr fun _ => ?_)
  have hcount : uopCount (writeThrough { kind := .output dyn inv, pin := pin } (.const init) ++ configurePin pin true) =
      writeCost { kind := .output dyn inv, pin := pin } + if pin = .noPin then 0 else 1 := by
    rw [uopCount_append, uopCount_writeThrough rfl, uopCount_configurePin]
  refine hcount.trans ?_
  cases pin with
  | noPin => rfl
  | pin p b => cases dyn <;> rfl

theorem uopsOf_pinToggle {k : Nat} {h : PinHandle} (hslot : s.pinSlot k = some h) (ho : h.isOutput = true) :
    uopsOf (.pinToggle k) s = if h.pin = .noPin then 0 else 1 + writeCost h := by
  refine uopsOf_of_run (planOf_pinToggle hslot ho) ?_
  rw [uopCount_append, uopCount_readThrough, uopCount_writeThrough ho]
  cases hpin : h.pin <;> simp [readCost, writeCost, hpin]

/-! ### The Shifter and the Chip Driver commands (R191 to R217) -/

/-- SHIFT.CFG has no micro-operation, refused or not. -/
theorem uopsOf_shiftCfg (k : Nat) (mode : ShiftMode) (datah clkh nbits : Nat) (order : BitOrder) :
    uopsOf (.shiftCfg k mode datah clkh nbits order) s = 0 :=
  (uopCount_checked ..).trans (ite_self 0)

theorem uopsOf_chipCfg (hwf : s.wf = true) {k shifter latchh oeh : Nat} {initEn : Bool} {oe : PinHandle}
    (hcause : refusalCause (.chipCfg k shifter latchh oeh initEn) s = none) (hoe : s.pinSlot oeh = some oe) :
    uopsOf (.chipCfg k shifter latchh oeh initEn) s = writeCost oe := by
  refine uopsOf_of_meets hwf hcause ?_
  simp only [planOf, planChipCfg, hoe]
  refine (meets_checked ..).mpr fun hchecks => ?_
  have ho : oe.isOutput = true := List.all_eq_true.mp hchecks oe.isOutput (by simp)
  exact uopCount_writeThrough ho _

/-- The two Shifter commands on the unit of a well-formed state's slot. -/
theorem uopsOf_shift (hwf : s.wf = true) {k : Nat} {h : Shifter} {d c : PinHandle} (hslot : s.shiftSlot k = some h)
    (hdata : s.pinSlot h.data = some d) (hclk : s.pinSlot h.clk = some c) :
    (h.mode = .shiftIn → uopsOf (.shiftIn k) s = h.nbits * (2 * writeCost c + readCost d)) ∧
      (h.mode = .shiftOut → ∀ v, uopsOf (.shiftOut k v) s = h.nbits * (writeCost d + 2 * writeCost c)) := by
  have hunit := unit_of_wf hwf hslot hdata hclk
  have hc := isOutput_of_lineOk hunit.clock
  refine ⟨fun hmode => ?_, fun hmode v => ?_⟩
  · exact uopsOf_of_run (planOf_shiftIn hslot hmode hdata hclk) (uopCount_shiftInActs hc ..)
  · have hd : d.isOutput = true := by rw [hunit.data, hmode]; rfl
    exact uopsOf_of_run (planOf_shiftOut v hslot hmode hdata hclk) (uopCount_shiftOutActs hd hc ..)

theorem uopsOf_chipWrite (hwf : s.wf = true) {k : Nat} {g : ChipDriver} {h : Shifter} {d c l : PinHandle} (v : Word)
    (hchip : s.chipSlot k = some g) (hslot : s.shiftSlot g.sh = some h) (hdata : s.pinSlot h.data = some d)
    (hclk : s.pinSlot h.clk = some c) (hlatch : s.pinSlot g.latch = some l) :
    uopsOf (.chipWrite k v) s = h.nbits * (writeCost d + 2 * writeCost c) + 2 * writeCost l := by
  have hdriver := driver_of_wf hwf hchip hslot hdata hclk hlatch
  refine uopsOf_of_run (planOf_chipWrite v hdriver.mode hchip hslot hdata hclk hlatch) ?_
  rw [uopCount_append, uopCount_shiftOutActs (isOutput_of_lineOk hdriver.data) (isOutput_of_lineOk hdriver.clock),
    uopCount_pulseThrough (isOutput_of_lineOk hdriver.latch)]

/-- CHIP.ENABLE and CHIP.DISABLE count the write of their line, whatever its level. -/
theorem uopCount_chipEnableTo (hwf : s.wf = true) {k : Nat} {g : ChipDriver} {oe : PinHandle} (v : Bool)
    (hchip : s.chipSlot k = some g) (hoe : s.pinSlot g.oe = some oe) :
    uopCount (actsOf (chipEnableTo k v s)) = writeCost oe := by
  obtain ⟨-, -, hout⟩ := chipOk_of_wf hwf hchip
  rw [chipEnableTo_of_slot v hchip hoe, actsOf, uopCount_writeThrough (isOutput_of_outputSlot hout hoe)]

end

/-- Settles O39, row by row of the table of R276. -/
theorem microOperationCounts : Obligations.MicroOperationCounts := by
  intro s hwf
  refine ⟨rfl, rfl, rfl, rfl, fun _ _ => uopsOf_regRd hwf, fun _ _ _ => uopsOf_regWr hwf,
    fun _ _ _ _ _ => uopsOf_portBind hwf, ?portHandle, fun _ _ _ => uopsOf_pinBindin hwf,
    fun _ _ _ _ _ => uopsOf_pinBindout hwf, ?pinHandle, uopsOf_shiftCfg,
    fun _ _ _ _ => uopsOf_shift hwf, fun _ _ _ _ _ _ => uopsOf_chipCfg hwf, ?chipDriver⟩
  case portHandle =>
    exact fun k h hslot => ⟨uopsOf_portEnout hslot, uopsOf_portEnin hslot, uopsOf_of_run (planOf_portRead hslot) rfl,
      uopsOf_portWrite hslot⟩
  case pinHandle =>
    refine fun k h hslot => ⟨uopsOf_of_run (planOf_pinRead hslot) (uopCount_readThrough h), fun ho v => ?_⟩
    exact ⟨uopsOf_of_run (planOf_pinWrite v hslot ho) (uopCount_writeThrough ho _), uopsOf_pinToggle hslot ho,
      uopsOf_of_run (planOf_pinPulse v hslot ho) (uopCount_pulseThrough ho v)⟩
  case chipDriver =>
    intro k g h d c l oe hchip hslot hdata hclk hlatch hoe
    exact ⟨fun v => uopsOf_chipWrite hwf v hchip hslot hdata hclk hlatch, uopCount_chipEnableTo hwf true hchip hoe,
      uopCount_chipEnableTo hwf false hchip hoe⟩

end Sys2Proof.Machine
end
